-- ==== Sys2Proof/Word.lean ====
section
/-! DEFINITION. The value types of requests and frames (00_scope.md R8). -/

namespace Sys2Proof

/-- `u8`: a byte of a frame, a register address, a one-byte register value. -/
abbrev Byte := BitVec 8

/-- `u16`: a two-byte register value. -/
abbrev Half := BitVec 16

/-- `u7`: a peripheral address on a bus (R40). -/
abbrev BusAddr := BitVec 7

/-- The identity of a handle (10_state.md R20, R22). -/
abbrev HandleId := Nat

end Sys2Proof
end

