-- ==== Sys2Proof/Machine/Bus.lean ====
section
/-! DEFINITION. What passes between the block and the bus environment: the answers (10_state.md R27), the
events of the history (R25) and the transfers that can hang (60_exceptions.md R208). -/

namespace Sys2Proof.Machine

/-- The answers to an open (R27). -/
inductive OpenAnswer
  | ok
  /-- "device path unavailable" -/
  | busFail
  /-- "peripheral not responding at configured address" -/
  | selectFail
  deriving DecidableEq, Repr

/-- The answers to a write transfer (R27). -/
inductive WriteAnswer
  | ok
  | fail
  deriving DecidableEq, Repr

/-- The answers to a read transfer (R27). -/
inductive ReadAnswer
  | bytes (l : List Byte)
  | fail
  deriving DecidableEq, Repr

/-- Whether an answer is one the environment can give to a read of `n` bytes: at most `n` bytes (R27). -/
def ReadAnswer.fits (n : Nat) : ReadAnswer → Bool
  | .bytes l => decide (l.length ≤ n)
  | .fail => true

/-- One answer of the environment fixed from outside, for the transfer it comes to serve (log entry 3). -/
inductive Answer
  | onOpen (a : OpenAnswer)
  | onWrite (a : WriteAnswer)
  | onRead (a : ReadAnswer)
  /-- the transfer is never answered: a hang (R27) -/
  | never
  deriving DecidableEq, Repr

/-- One entry of the history (R25). -/
inductive Event
  | opened (bus : String) (addr : BusAddr) (outcome : OpenAnswer) (h : Option HandleId)
  | wrote (h : HandleId) (bus : String) (addr : BusAddr) (bytes : List Byte) (outcome : WriteAnswer)
  | read (h : HandleId) (bus : String) (addr : BusAddr) (n : Nat) (outcome : ReadAnswer)
  | delayed (h : HandleId) (ms : Rat)
  | closed (h : HandleId)
  deriving DecidableEq, Repr

/-- A transfer that was issued and not answered (60_exceptions.md R208). -/
inductive Transfer
  | open_ (bus : String) (addr : BusAddr)
  | write (h : HandleId) (bytes : List Byte)
  | read (h : HandleId) (n : Nat)
  deriving DecidableEq, Repr

end Sys2Proof.Machine
end

