-- ==== Sys2Proof/Machine/Float.lean ====
section
/-! DEFINITION. The parameter `FLOAT_FMT` (00_scope.md R6, R9): exact rationals or a binary floating-point format, and the
rounding of an exact number to a number of such a format (log entries 12 and 20). -/

namespace Sys2Proof

/-- A binary floating-point format, as three numbers, each choice of which is one (DESIGN CHOICE, log entry 12). Its numbers
are `n * 2 ^ (e - fracBits)` with `|n| < 2 ^ (fracBits + 1)` and `minExp <= e <= minExp + expSpan`; whether it has
infinities or a NaN beside them does not matter to any rule. -/
structure BinaryFmt where
  fracBits : Nat
  minExp : Int
  expSpan : Nat
  deriving DecidableEq, Repr

/-- `FLOAT_FMT` (R6; 92_eei_decisions.md D4). -/
inductive FloatFmt
  | exact
  | binary (f : BinaryFmt)
  deriving DecidableEq, Repr

/-- The values of a floating-point format that are no numbers (41_angle.md R118; 92_eei_decisions.md D19). -/
inductive NonFinite
  | posInf | negInf | nan
  deriving DecidableEq, Repr, Inhabited

/-- The largest exponent. -/
def BinaryFmt.maxExp (f : BinaryFmt) : Int := f.minExp + f.expSpan

/-- The largest number of the format. -/
def BinaryFmt.largest (f : BinaryFmt) : Rat := (2 ^ (f.fracBits + 1) - 1) * 2 ^ (f.maxExp - f.fracBits)

/-- The exponent of the last place of the format's numbers around `x`. -/
def BinaryFmt.lastPlace (f : BinaryFmt) (x : Rat) : Int := max (Int.log 2 |x|) f.minExp - f.fracBits

/-- The number next to `x`, above or below it, in the format with its largest exponent left out; `x` itself where it is one. -/
def BinaryFmt.next (f : BinaryFmt) (up : Bool) (x : Rat) : Rat :=
  let places := x / 2 ^ f.lastPlace x
  ((if up then places.ceil else places.floor : Int) : Rat) * 2 ^ f.lastPlace x

/-- Whether `q` is a number of the format. -/
def BinaryFmt.holds (f : BinaryFmt) (q : Rat) : Bool := decide (f.next false q = q ∧ |q| ≤ f.largest)

end Sys2Proof
end

