-- ==== Sys2Proof/Config.lean ====
section
/-! DEFINITION. The implementation parameters (00_scope.md R6, 93_implementation_defined.md) as plain data, and the
values the spec leaves to the environment: constants without a body. The defaults are in Machine/Params.lean. -/

namespace Sys2Proof

/-- `AS_REG`: the address of each angle-sensor register (20_memory.md R47). -/
structure AngleMap where
  zmco : Byte
  zpos : Byte
  mpos : Byte
  mang : Byte
  conf : Byte
  rawAngle : Byte
  angle : Byte
  status : Byte
  agc : Byte
  magnitude : Byte
  burn : Byte
  deriving DecidableEq, Repr

/-- `IMU_REG`: the address of each IMU register (R51). -/
structure ImuMap where
  pwrMgmt : Byte
  accelConfig : Byte
  gyroConfig : Byte
  dlpfConfig : Byte
  accelX : Byte
  accelY : Byte
  accelZ : Byte
  temp : Byte
  gyroX : Byte
  gyroY : Byte
  gyroZ : Byte
  deriving DecidableEq, Repr

/-- `PWM_REG`: the address of each PWM register (R55). -/
structure PwmMap where
  mode1 : Byte
  mode2 : Byte
  led0OnL : Byte
  led0OnH : Byte
  led0OffL : Byte
  led0OffH : Byte
  allOnL : Byte
  allOnH : Byte
  allOffL : Byte
  allOffH : Byte
  prescale : Byte
  deriving DecidableEq, Repr

/-- `ANGLE_INT_DIVISOR` (41_angle.md R115). -/
inductive IntDivisor
  | literal
  | exact
  deriving DecidableEq, Repr

/-- `IMU_INIT_MODE` (42_imu.md R141). -/
inductive InitMode
  | rmw
  | writeZero
  deriving DecidableEq, Repr

/-- The open parameters of R6. A `maxRawLen` of `none` is unbounded; `RANGE_HI` is `rangeLo + 1` (log entry 10). -/
structure Config where
  asReg : AngleMap
  mhBit : Fin 8
  mlBit : Fin 8
  mdBit : Fin 8
  burnAngleCmd : Byte
  burnSettingCmd : Byte
  angleIntDivisor : IntDivisor
  imuReg : ImuMap
  imuSleepBit : Fin 8
  rangeLo : Fin 7
  imuInitMode : InitMode
  floatFmt : FloatFmt
  pwmReg : PwmMap
  restart : Byte
  sleep : Byte
  allcall : Byte
  outdrv : Byte
  numChannels : Nat
  tPwmFreqSettle : Rat
  tPwmBringupSettle : Rat
  maxRawLen : Option Nat
  deriving DecidableEq, Repr

/-- The environment's answer to an open, as a function of all it sees (10_state.md R27); `none` is no answer. -/
opaque Config.openOracle :
    List Machine.Event → String → BusAddr → Option Machine.OpenAnswer

/-- The environment's answer to a write transfer (R27); `none` is no answer. DESIGN CHOICE (log entry 3): the request it sees is
the bytes without the handle id, of which R27 does not say whether the request includes it. -/
opaque Config.writeOracle :
    List Machine.Event → String → BusAddr → List Byte → Option Machine.WriteAnswer

/-- The environment's answer to a read of `n` bytes, at most `n` of them (R27); `none` is no answer. DESIGN CHOICE (log entry 3):
as for a write, the request it sees is `n` without the handle id. -/
opaque Config.readOracle :
    List Machine.Event → String → BusAddr → (n : Nat) →
      Option (Subtype fun a : Machine.ReadAnswer => a.fits n = true)

/-- The free draw of AS_STATUS_SCALE for magnet-high with magnet-low (41_angle.md R119): the `k`-th draw, as the index
of one of the five values -2, -1, 0, 1, 2. -/
opaque Config.freeScale : Nat → Fin 5

/-- Which of the two neighbouring numbers of the format an exact number between them is rounded to: the spec names no
direction and no tie rule (00_scope.md R9, log entry 20). -/
opaque Config.roundsUp : BinaryFmt → Rat → Bool

/-- The result whose rounded value is beyond the largest number of the format: any number of the format, or `none`, a value
that is no number; the spec states none (R9, log entry 20). -/
opaque Config.overflowNumber : (f : BinaryFmt) → Rat → Option (Subtype fun q => f.holds q = true)

/-- Which value that is no number such a result is, where it is none (log entry 20). -/
opaque Config.overflowKind : BinaryFmt → Rat → NonFinite

/-- The register that a channel address above 0xFF selects: the spec does not say which (20_memory.md R57, log entry 13). -/
opaque Config.addressAbove : Nat → Byte

end Sys2Proof
end

