-- ==== Sys2Proof/Machine/Params.lean ====
section
/-! DEFINITION. The default values of the open parameters (20_memory.md R47, R49 to R56; log entry 9) and the constants
the source fixes (00_scope.md R6). -/

namespace Sys2Proof

/-- The default angle-sensor addresses (R47; PRESUMED: the AS5600's, log entry 9). -/
def AngleMap.default : AngleMap where
  zmco := 0x00
  zpos := 0x01
  mpos := 0x03
  mang := 0x05
  conf := 0x07
  rawAngle := 0x0C
  angle := 0x0E
  status := 0x0B
  agc := 0x1A
  magnitude := 0x1B
  burn := 0xFF

/-- The default IMU addresses (R51; PRESUMED: the MPU-6050's, log entry 9). -/
def ImuMap.default : ImuMap where
  pwrMgmt := 0x6B
  accelConfig := 0x1C
  gyroConfig := 0x1B
  dlpfConfig := 0x1A
  accelX := 0x3B
  accelY := 0x3D
  accelZ := 0x3F
  temp := 0x41
  gyroX := 0x43
  gyroY := 0x45
  gyroZ := 0x47

/-- The default PWM addresses (R55; PRESUMED: the PCA9685's, log entry 9). -/
def PwmMap.default : PwmMap where
  mode1 := 0x00
  mode2 := 0x01
  led0OnL := 0x06
  led0OnH := 0x07
  led0OffL := 0x08
  led0OffH := 0x09
  allOnL := 0xFA
  allOnH := 0xFB
  allOffL := 0xFC
  allOffH := 0xFD
  prescale := 0xFE

/-- The default parameters (R6, R49, R50, R52, R53, R56; 92_eei_decisions.md D4). -/
def Config.default : Config where
  asReg := AngleMap.default
  mhBit := 3
  mlBit := 4
  mdBit := 5
  burnAngleCmd := 0x80
  burnSettingCmd := 0x40
  angleIntDivisor := .literal
  imuReg := ImuMap.default
  imuSleepBit := 6
  rangeLo := 3
  imuInitMode := .rmw
  floatFmt := .exact
  pwmReg := PwmMap.default
  restart := 0x80
  sleep := 0x10
  allcall := 0x01
  outdrv := 0x04
  numChannels := 16
  tPwmFreqSettle := 5
  tPwmBringupSettle := 5
  maxRawLen := none

namespace Machine

/-- `AS_ADDR` (R6). No operation checks a handle's address against it (20_memory.md R41). -/
def asAddr : BusAddr := 0x36

/-- `IMU_ADDR` (R6). No operation checks a handle's address against it (20_memory.md R41). -/
def imuAddr : BusAddr := 0x68

/-- The common value of `PWM_ADDR`, which the caller supplies (R6). -/
def pwmAddrCommon : BusAddr := 0x40

/-- `FULL_SCALE` (R6). -/
def fullScale : Int := 4096

/-- `PWM_TICKS` (R6). -/
def pwmTicks : Rat := 4096

/-- `PWM_OSC_HZ` (R6). -/
def pwmOscHz : Rat := 25000000

/-- `GRAVITY`, 9.80665 (R6, R9). -/
def gravity : Rat := 980665 / 100000

/-- `TEMP_DIV` (R6). -/
def tempDiv : Rat := 340

/-- `TEMP_OFS`, 36.53 (R6, R9). -/
def tempOfs : Rat := 3653 / 100

/-- `AFS_TABLE`: counts per g of each selector (R6, 42_imu.md R147). -/
def afsTable (sel : BitVec 2) : Int :=
  match sel.toFin with
  | 0 => 16384
  | 1 => 8192
  | 2 => 4096
  | 3 => 2048

/-- `GFS_TABLE`: counts per degree per second of each selector (R6, R9, 42_imu.md R148). -/
def gfsTable (sel : BitVec 2) : Rat :=
  match sel.toFin with
  | 0 => 131
  | 1 => 131 / 2
  | 2 => 164 / 5
  | 3 => 82 / 5

end Machine

end Sys2Proof
end

