-- ==== Sys2Proof/Machine/Numeric.lean ====
section
/-! DEFINITION. The numeric notation of 00_scope.md (R10 to R12), the numeric converters of the three units
(41_angle.md, 42_imu.md, 43_pwm.md) and the byte order of two-byte values (20_memory.md R43). -/

namespace Sys2Proof.Machine

/-- `round`: to the nearest integer, halves away from zero (R10). -/
def roundHalfAway (x : Rat) : Int :=
  if 0 ≤ x then (x + 1 / 2).floor else -((-x + 1 / 2).floor)

/-- `a quot b`: truncated toward zero (R11). -/
def quot (a b : Int) : Int := Int.tdiv a b

/-- `a rem b`: the sign of `a` (R11). -/
def rem (a b : Int) : Int := a - b * quot a b

/-- `a emod b`: the Euclidean remainder (R11). -/
def emod (a b : Int) : Int := Int.emod a b

/-- `trunc`: toward zero (R11). -/
def trunc (x : Rat) : Int := if 0 ≤ x then x.floor else -((-x).floor)

/-- `fmod(x, y) = x - y * trunc(x / y)` (R11). -/
def fmod (x y : Rat) : Rat := x - y * (trunc (x / y) : Int)

/-- `s16`: the two's-complement reading (R12). -/
def s16 (u : Half) : Int :=
  if u.toNat < 0x8000 then (u.toNat : Int) else (u.toNat : Int) - 0x10000

/-- `v[15:8]` (30_encoding.md R72). -/
def hiByte (v : Half) : Byte := v.extractLsb' 8 8

/-- `v[7:0]` (R72). -/
def loByte (v : Half) : Byte := v.extractLsb' 0 8

/-- `(b0 << 8) | b1`, the first byte received is the high one (R74). -/
def bigEndian (b0 b1 : Byte) : Half := b0 ++ b1

/-- AS_MAXPOS (41_angle.md R114). -/
def maxPosition (zeroPos range : Half) : Int :=
  emod ((zeroPos.toNat : Int) + (range.toNat : Int)) fullScale

/-- AS_RAW2DEG_I (R115). -/
def rawToDegInt (d : IntDivisor) (raw zeroPos maxPos : Half) : Int :=
  let num : Int := (raw.toNat : Int) * ((maxPos.toNat : Int) - (zeroPos.toNat : Int))
  match d with
  | .literal => quot num 46603
  | .exact => quot (num * 360) (fullScale * fullScale)

/-- AS_RAW2DEG_F (R116). -/
def rawToDegRat (raw zeroPos maxPos : Half) : Rat :=
  (((raw.toNat : Int) * ((maxPos.toNat : Int) - (zeroPos.toNat : Int)) * 360 : Int) : Rat)
    / ((fullScale * fullScale : Int) : Rat)

/-- AS_DEG2RAW_I (R117). -/
def degToRawInt (deg : Int) : Int := quot (fullScale * rem deg 360) 360

/-- AS_DEG2RAW_F (R118). -/
def degToRawRat (deg : Rat) : Rat := (fullScale : Rat) * fmod deg 360 / 360

/-- The rows of the magnet-status table (R119); `none` where the table has no row. -/
def statusScale (c : Config) (x : Byte) : Option Int :=
  let mh := x.getLsbD c.mhBit
  let ml := x.getLsbD c.mlBit
  let md := x.getLsbD c.mdBit
  match mh, ml with
  | true, false => some (if md then 1 else 2)
  | false, true => some (if md then -1 else -2)
  | false, false => some 0
  | true, true => none

/-- The value of a free draw, one of -2, -1, 0, 1, 2 (R119). -/
def drawnScale (d : Fin 5) : Int := (d.val : Int) - 2

/-- The range selector `cfg[RANGE_HI:RANGE_LO]` (42_imu.md R144). -/
def rangeSel (c : Config) (cfg : Byte) : BitVec 2 := cfg.extractLsb' c.rangeLo 2

/-- IMU_TEMP_C (R146). -/
def tempC (raw : Half) : Rat := (s16 raw : Rat) / tempDiv + tempOfs

/-- IMU_ACCEL_CONV (R149). -/
def accelConv (c : Config) (raw : Half) (cfg : Byte) (ms2 : Bool) : Rat :=
  let a : Rat := (s16 raw : Rat) / (afsTable (rangeSel c cfg) : Rat)
  if ms2 then a * gravity else a

/-- IMU_GYRO_CONV (R150). -/
def gyroConv (c : Config) (raw : Half) (cfg : Byte) : Rat :=
  (s16 raw : Rat) / gfsTable (rangeSel c cfg)

/-- PWM_PRESCALE (43_pwm.md R171). -/
def prescaleOf (freq : Rat) : Int := roundHalfAway (pwmOscHz / pwmTicks / freq - 1)

/-- PWM_TICKS_MS: `round(ms * bitsPerMs)` with `bitsPerMs = 4096 * freq / 1000` (R176). -/
def ticksMs (ms freq : Rat) : Int := roundHalfAway (ms * (4096 * freq / 1000))

/-- `t[7:0]` of a tick count (20_memory.md R45). -/
def tickLo (t : Int) : Byte := BitVec.ofInt 8 t

/-- `t[15:8]` of a tick count, `t >> 8` (R45, 43_pwm.md R174). -/
def tickHi (t : Int) : Byte := BitVec.ofInt 8 (t / 256)

end Sys2Proof.Machine
end

