-- ==== Sys2Proof/Syntax.lean ====
section
/-! DEFINITION. The requests (30_encoding.md R75, R76): register and command names, operand tokens, and one constructor
of `Instr` for each row of the opcode map (R78). -/

namespace Sys2Proof

/-- `areg`: the angle-sensor register names (20_memory.md R47). -/
inductive AngleReg
  | zmco | zpos | mpos | mang | conf | rawAngle | angle | status | agc | magnitude | burn
  deriving DecidableEq, Repr

/-- `ireg`: the IMU register names (R51). -/
inductive ImuReg
  | pwrMgmt | accelConfig | gyroConfig | dlpfConfig
  | accelX | accelY | accelZ | temp | gyroX | gyroY | gyroZ
  deriving DecidableEq, Repr

/-- `axis` (R76). -/
inductive Axis
  | x | y | z
  deriving DecidableEq, Repr

/-- `cmd` (R76). -/
inductive BurnCmd
  | angle | setting
  deriving DecidableEq, Repr

/-- The refusal reasons (60_exceptions.md R206). -/
inductive RefuseReason
  | unknownOpcode | badOperand | writeOnlyRegister | readOnlyRegister
  | channelOutOfRange | tickOutOfRange | prescaleOutOfRange
  deriving DecidableEq, Repr

/-- One element of a byte list as the host writes it, before its type is checked: a number, or, spelt as the host wrote it,
anything that is no number (a name, a string, a boolean, an infinity, a NaN, a list), which no `u8` is (00_scope.md R8). -/
inductive Element
  | num (q : Rat)
  | other (s : String)
  deriving DecidableEq, Repr

/-- One operand of a request as the host writes it, before its type is checked (R76, R77, log entry 2). A number is an
exact rational, so that an operand outside its type can be written down and shown refused; an infinity and a NaN can be
written down too, and no type holds them (60_exceptions.md R206, 92_eei_decisions.md D19). -/
inductive Operand
  | num (q : Rat)
  | nonFinite (x : NonFinite)
  | str (s : String)
  | bool (b : Bool)
  /-- a byte list, with elements inside and outside their type -/
  | bytes (l : List Element)
  | areg (r : AngleReg)
  | ireg (r : ImuReg)
  | axis (a : Axis)
  | cmd (c : BurnCmd)
  /-- a name that is none of the names of R76 -/
  | badName (s : String)
  deriving DecidableEq, Repr

/-- A request `{ op, operands }` (R75). -/
structure Request where
  op : Byte
  operands : List Operand
  deriving DecidableEq, Repr

/-- The operations, in the order of the opcode map (R78), with their operands in the order of R76. A length stays the
`u8` the host gave, and a frequency the rational it gave: the ranges of R77 are checks, not types. -/
inductive Instr
  -- transport
  | openHandle (bus : String) (addr : BusAddr)
  | closeHandle (h : HandleId)
  | readReg (h : HandleId) (reg : Byte) (len : Byte)
  | writeReg (h : HandleId) (reg : Byte) (value : Half) (len : Byte)
  | writeRaw (h : HandleId) (bytes : List Byte)
  -- angle sensor
  | asRead (h : HandleId) (areg : AngleReg)
  | asWrite (h : HandleId) (areg : AngleReg) (value : Half)
  | asBurn (h : HandleId) (cmd : BurnCmd)
  | asMaxPos (zeroPos : Half) (range : Half)
  | asRaw2DegI (raw : Half) (zeroPos : Half) (maxPos : Half)
  | asRaw2DegF (raw : Half) (zeroPos : Half) (maxPos : Half)
  | asDeg2RawI (deg : Int)
  | asDeg2RawF (deg : Rat)
  | asStatusScale (x : Byte)
  -- inertial sensor
  | imuInit (h : HandleId)
  | imuRead (h : HandleId) (ireg : ImuReg)
  | imuWrite (h : HandleId) (ireg : ImuReg) (value : Byte)
  | imuS16 (x : Half)
  | imuTempC (raw : Half)
  | imuAccelScale (cfg : Byte)
  | imuGyroScale (cfg : Byte)
  | imuAccelConv (raw : Half) (cfg : Byte) (ms2 : Bool)
  | imuGyroConv (raw : Half) (cfg : Byte)
  | imuReadTemp (h : HandleId)
  | imuReadAccel (h : HandleId) (axis : Axis) (ms2 : Bool)
  | imuReadGyro (h : HandleId) (axis : Axis)
  -- PWM controller
  | pwmBringup (h : HandleId)
  | pwmSetChannel (h : HandleId) (ch : Nat) (on : Int) (off : Int)
  | pwmSetAll (h : HandleId) (on : Int) (off : Int)
  | pwmPrescale (freq : Rat)
  | pwmSetFreq (h : HandleId) (freq : Rat)
  | pwmTicksMs (ms : Rat) (freq : Rat)
  | pwmSetPulseMs (h : HandleId) (ch : Nat) (ms : Rat)
  deriving DecidableEq, Repr

end Sys2Proof
end

