-- ==== Sys2Proof/Machine/Operands.lean ====
section
/-! DEFINITION. The operand forms: register names to addresses and lengths (41_angle.md R110, 42_imu.md R140), access
rights (20_memory.md R48, R51), the operand ranges (30_encoding.md R77 and the checks of 43_pwm.md), and the frames
(30_encoding.md R70 to R73). -/

namespace Sys2Proof.Machine

/-- `REG_LENGTHS` (00_scope.md R6): a register is one or two bytes long. -/
inductive RegLen
  | one
  | two
  deriving DecidableEq, Repr

/-- The legal lengths of a request's `len` operand: 1 and 2 (R77). -/
def regLen (len : Byte) : Option RegLen :=
  if len = 1 then some .one else if len = 2 then some .two else none

/-- How many bytes a read of this length asks for (R71). -/
def RegLen.count : RegLen → Nat
  | .one => 1
  | .two => 2

/-- `AS_REG(areg)` (R110). -/
def asRegAddr (m : AngleMap) : AngleReg → Byte
  | .zmco => m.zmco
  | .zpos => m.zpos
  | .mpos => m.mpos
  | .mang => m.mang
  | .conf => m.conf
  | .rawAngle => m.rawAngle
  | .angle => m.angle
  | .status => m.status
  | .agc => m.agc
  | .magnitude => m.magnitude
  | .burn => m.burn

/-- `LEN(areg)` (20_memory.md R47). -/
def asRegLen : AngleReg → RegLen
  | .zmco | .status | .agc | .burn => .one
  | .zpos | .mpos | .mang | .conf | .rawAngle | .angle | .magnitude => .two

/-- AS_READ may read every register except BURN (R48). -/
def asReadable : AngleReg → Bool
  | .burn => false
  | .zmco | .zpos | .mpos | .mang | .conf | .rawAngle | .angle | .status | .agc | .magnitude => true

/-- AS_WRITE may write only ZPOS, MPOS, MANG and CONF (R48). -/
def asWritable : AngleReg → Bool
  | .zpos | .mpos | .mang | .conf => true
  | .zmco | .rawAngle | .angle | .status | .agc | .magnitude | .burn => false

/-- The burn command codes (R50, 41_angle.md R113). -/
def burnCode (c : Config) : BurnCmd → Byte
  | .angle => c.burnAngleCmd
  | .setting => c.burnSettingCmd

/-- `IMU_REG(ireg)` (42_imu.md R140). -/
def imuRegAddr (m : ImuMap) : ImuReg → Byte
  | .pwrMgmt => m.pwrMgmt
  | .accelConfig => m.accelConfig
  | .gyroConfig => m.gyroConfig
  | .dlpfConfig => m.dlpfConfig
  | .accelX => m.accelX
  | .accelY => m.accelY
  | .accelZ => m.accelZ
  | .temp => m.temp
  | .gyroX => m.gyroX
  | .gyroY => m.gyroY
  | .gyroZ => m.gyroZ

/-- `LEN(ireg)` (20_memory.md R51). -/
def imuRegLen : ImuReg → RegLen
  | .pwrMgmt | .accelConfig | .gyroConfig | .dlpfConfig => .one
  | .accelX | .accelY | .accelZ | .temp | .gyroX | .gyroY | .gyroZ => .two

/-- IMU_WRITE may write only the four configuration registers (42_imu.md R143). -/
def imuWritable : ImuReg → Bool
  | .pwrMgmt | .accelConfig | .gyroConfig | .dlpfConfig => true
  | .accelX | .accelY | .accelZ | .temp | .gyroX | .gyroY | .gyroZ => false

/-- `ACCEL_axis` (R140). -/
def accelReg : Axis → ImuReg
  | .x => .accelX
  | .y => .accelY
  | .z => .accelZ

/-- `GYRO_axis` (R140). -/
def gyroReg : Axis → ImuReg
  | .x => .gyroX
  | .y => .gyroY
  | .z => .gyroZ

/-- `1 <= len(bytes) <= MAX_RAW_LEN` (30_encoding.md R77, 40_transport.md R95). -/
def rawLenLegal (c : Config) (bytes : List Byte) : Bool :=
  !bytes.isEmpty && (match c.maxRawLen with
    | none => true
    | some m => decide (bytes.length ≤ m))

/-- `freq > 0` (43_pwm.md R171, R172, R176). -/
def freqLegal (freq : Rat) : Bool := decide (0 < freq)

/-- `ch < NUM_CHANNELS` (R174). -/
def channelLegal (c : Config) (ch : Nat) : Bool := decide (ch < c.numChannels)

/-- A tick count in 0..4095 (R174). -/
def tickLegal (t : Int) : Bool := decide (0 ≤ t ∧ t ≤ 4095)

/-- A prescale in 0..255 (R172). -/
def prescaleLegal (p : Int) : Bool := decide (0 ≤ p ∧ p ≤ 255)

/-- The register-write frame (30_encoding.md R72): with one byte only the low byte is sent. -/
def writeFrame (reg : Byte) (len : RegLen) (value : Half) : List Byte :=
  match len with
  | .one => [reg, loByte value]
  | .two => [reg, hiByte value, loByte value]

/-- The address `base + 4 * ch` of a channel's register (20_memory.md R57). Where the sum is no register address it is a free
value (log entry 13); under the default parameters it always is one. -/
def channelAddr (base : Byte) (ch : Nat) : Byte :=
  if base.toNat + 4 * ch < 256 then BitVec.ofNat 8 (base.toNat + 4 * ch)
  else Config.addressAbove (base.toNat + 4 * ch)

/-- The four channel registers in the order written, each with its byte (20_memory.md R45, R57, 43_pwm.md R174). -/
def channelBytes (m : PwmMap) (ch : Nat) (on off : Int) : List (Byte × Byte) :=
  [(channelAddr m.led0OnL ch, tickLo on), (channelAddr m.led0OnH ch, tickHi on),
   (channelAddr m.led0OffL ch, tickLo off), (channelAddr m.led0OffH ch, tickHi off)]

/-- The four broadcast registers in the order written, each with its byte (43_pwm.md R175). -/
def allChannelBytes (m : PwmMap) (on off : Int) : List (Byte × Byte) :=
  [(m.allOnL, tickLo on), (m.allOnH, tickHi on), (m.allOffL, tickLo off), (m.allOffH, tickHi off)]

/-- `IMU_SLEEP_MASK = 1 << IMU_SLEEP_BIT` (42_imu.md R141). -/
def imuSleepMask (c : Config) : Byte := (1 : Byte) <<< c.imuSleepBit.val

end Sys2Proof.Machine
end

