-- ==== Sys2Proof/WellFormed.lean ====
section
/-! DEFINITION. Which instructions pass every check that does not depend on the handle table: the operand ranges of
30_encoding.md R77 and the operation-specific checks of 41_angle.md, 42_imu.md and 43_pwm.md. An instruction that
fails one is refused by its meaning (60_exceptions.md R206). -/

namespace Sys2Proof

open Machine

/-- The static checks of an instruction under the parameters `c`. -/
def Instr.wellFormed (c : Config) : Instr → Bool
  | .readReg _ _ len => (regLen len).isSome
  | .writeReg _ _ _ len => (regLen len).isSome
  | .writeRaw _ bytes => rawLenLegal c bytes
  | .asRead _ areg => asReadable areg
  | .asWrite _ areg _ => asWritable areg
  | .imuWrite _ ireg _ => imuWritable ireg
  | .pwmSetChannel _ ch on off => channelLegal c ch && tickLegal on && tickLegal off
  | .pwmSetAll _ on off => tickLegal on && tickLegal off
  | .pwmPrescale freq => freqLegal freq
  | .pwmSetFreq _ freq => freqLegal freq && prescaleLegal (prescaleOf freq)
  | .pwmTicksMs _ freq => freqLegal freq
  | .pwmSetPulseMs _ ch _ => channelLegal c ch
  | .openHandle _ _ => true
  | .closeHandle _ => true
  | .asBurn _ _ => true
  | .asMaxPos _ _ => true
  | .asRaw2DegI _ _ _ => true
  | .asRaw2DegF _ _ _ => true
  | .asDeg2RawI _ => true
  | .asDeg2RawF _ => true
  | .asStatusScale _ => true
  | .imuInit _ => true
  | .imuRead _ _ => true
  | .imuS16 _ => true
  | .imuTempC _ => true
  | .imuAccelScale _ => true
  | .imuGyroScale _ => true
  | .imuAccelConv _ _ _ => true
  | .imuGyroConv _ _ => true
  | .imuReadTemp _ => true
  | .imuReadAccel _ _ _ => true
  | .imuReadGyro _ _ => true
  | .pwmBringup _ => true

end Sys2Proof
end

