-- ==== Sys2Proof/Decode.lean ====
section
/-! DEFINITION. The opcode map and request formats (30_encoding.md R76, R78), the decoder from requests to instructions
(R75, R77, R79), the encoder, the pseudo-operations (R81), and the decoder on a row's word of the opcode table. -/

namespace Sys2Proof

/-! ## Operand types (00_scope.md R8) -/

/-- An `int` operand: a number that is an integer. -/
def Operand.asInt : Operand → Option Int
  | .num q => if q.den = 1 then some q.num else none
  | _ => none

/-- A `Nat` or `HandleId` operand. -/
def Operand.asNat (o : Operand) : Option Nat :=
  match o.asInt with
  | some z => if 0 ≤ z then some z.toNat else none
  | none => none

/-- An unsigned operand of `w` bits: `u7`, `u8`, `u16`. -/
def Operand.asBits (w : Nat) (o : Operand) : Option (BitVec w) :=
  match o.asNat with
  | some n => if n < 2 ^ w then some (BitVec.ofNat w n) else none
  | none => none

/-- A `rat` operand: an infinity or a NaN is none, in any `FLOAT_FMT` (60_exceptions.md R206, 92_eei_decisions.md D19). -/
def Operand.asRat : Operand → Option Rat
  | .num q => some q
  | _ => none

/-- A `string` operand. -/
def Operand.asStr : Operand → Option String
  | .str s => some s
  | _ => none

/-- A `bool` operand. -/
def Operand.asBool : Operand → Option Bool
  | .bool b => some b
  | _ => none

/-- An element of a byte list: a `u8`. -/
def Element.asByte : Element → Option Byte
  | .num q => (Operand.num q).asBits 8
  | .other _ => none

/-- The bytes of a byte list; one element that is no `u8` puts the whole operand outside its type (R8). -/
def bytesOf : List Element → Option (List Byte)
  | [] => some []
  | x :: rest =>
    match x.asByte, bytesOf rest with
    | some b, some l => some (b :: l)
    | _, _ => none

/-- A `List u8` operand. -/
def Operand.asBytes : Operand → Option (List Byte)
  | .bytes l => bytesOf l
  | _ => none

/-- An `areg` operand. -/
def Operand.asAreg : Operand → Option AngleReg
  | .areg r => some r
  | _ => none

/-- An `ireg` operand. -/
def Operand.asIreg : Operand → Option ImuReg
  | .ireg r => some r
  | _ => none

/-- An `axis` operand. -/
def Operand.asAxis : Operand → Option Axis
  | .axis a => some a
  | _ => none

/-- A `cmd` operand. -/
def Operand.asCmd : Operand → Option BurnCmd
  | .cmd c => some c
  | _ => none

/-! ## Formats (R76) -/

/-- The request formats (R76). -/
inductive Format
  | fOpen | fH | fRR | fRW | fRaw | fAR | fAW | fBurn | fMaxPos | fR2D | fD2RI | fD2RF | fU8 | fU16
  | fIR | fIW | fAConv | fGConv | fAXA | fAXG | fCh | fAll | fFreq | fHFreq | fTms | fPulse
  deriving DecidableEq, Repr

/-- Exactly one operand of the type read by `f`. -/
def oneOperand {α : Type} (f : Operand → Option α) : List Operand → Option α
  | [a] => f a
  | _ => none

/-- Exactly two operands of the types read by `f` and `g`, in order. -/
def twoOperands {α β : Type} (f : Operand → Option α) (g : Operand → Option β) :
    List Operand → Option (α × β)
  | [a, b] =>
    match f a, g b with
    | some x, some y => some (x, y)
    | _, _ => none
  | _ => none

/-- Exactly three operands of the types read by `f`, `g` and `k`, in order. -/
def threeOperands {α β γ : Type} (f : Operand → Option α) (g : Operand → Option β)
    (k : Operand → Option γ) : List Operand → Option (α × β × γ)
  | [a, b, c] =>
    match f a, g b, k c with
    | some x, some y, some z => some (x, y, z)
    | _, _, _ => none
  | _ => none

/-- Exactly four operands of the types read by `f`, `g`, `k` and `m`, in order. -/
def fourOperands {α β γ δ : Type} (f : Operand → Option α) (g : Operand → Option β)
    (k : Operand → Option γ) (m : Operand → Option δ) : List Operand → Option (α × β × γ × δ)
  | [a, b, c, d] =>
    match f a, g b, k c, m d with
    | some x, some y, some z, some w => some (x, y, z, w)
    | _, _, _, _ => none
  | _ => none

/-! ## The decoder (R75, R77, R79) -/

/-- The instruction an opcode makes of its operands (R78): `none` for an opcode of no operation (R79), `some none` for
operands that are not those of its format (R76, R77). DESIGN CHOICE (log entry 21): too few or too many operands are no
operands of the format either; R75 fixes their number and names no outcome for another. -/
def decodeOp (op : Byte) (ops : List Operand) : Option (Option Instr) :=
  match op.toNat with
  | 0x01 => some ((twoOperands Operand.asStr (Operand.asBits 7) ops).map fun (b, a) => .openHandle b a)
  | 0x02 => some ((oneOperand Operand.asNat ops).map fun h => .closeHandle h)
  | 0x03 => some ((threeOperands Operand.asNat (Operand.asBits 8) (Operand.asBits 8) ops).map
      fun (h, r, l) => .readReg h r l)
  | 0x04 => some ((fourOperands Operand.asNat (Operand.asBits 8) (Operand.asBits 16) (Operand.asBits 8) ops).map
      fun (h, r, v, l) => .writeReg h r v l)
  | 0x05 => some ((twoOperands Operand.asNat Operand.asBytes ops).map fun (h, l) => .writeRaw h l)
  | 0x10 => some ((twoOperands Operand.asNat Operand.asAreg ops).map fun (h, r) => .asRead h r)
  | 0x11 => some ((threeOperands Operand.asNat Operand.asAreg (Operand.asBits 16) ops).map
      fun (h, r, v) => .asWrite h r v)
  | 0x12 => some ((twoOperands Operand.asNat Operand.asCmd ops).map fun (h, c) => .asBurn h c)
  | 0x13 => some ((twoOperands (Operand.asBits 16) (Operand.asBits 16) ops).map fun (z, r) => .asMaxPos z r)
  | 0x14 => some ((threeOperands (Operand.asBits 16) (Operand.asBits 16) (Operand.asBits 16) ops).map
      fun (r, z, m) => .asRaw2DegI r z m)
  | 0x15 => some ((threeOperands (Operand.asBits 16) (Operand.asBits 16) (Operand.asBits 16) ops).map
      fun (r, z, m) => .asRaw2DegF r z m)
  | 0x16 => some ((oneOperand Operand.asInt ops).map fun d => .asDeg2RawI d)
  | 0x17 => some ((oneOperand Operand.asRat ops).map fun d => .asDeg2RawF d)
  | 0x18 => some ((oneOperand (Operand.asBits 8) ops).map fun x => .asStatusScale x)
  | 0x20 => some ((oneOperand Operand.asNat ops).map fun h => .imuInit h)
  | 0x21 => some ((twoOperands Operand.asNat Operand.asIreg ops).map fun (h, r) => .imuRead h r)
  | 0x22 => some ((threeOperands Operand.asNat Operand.asIreg (Operand.asBits 8) ops).map
      fun (h, r, v) => .imuWrite h r v)
  | 0x23 => some ((oneOperand (Operand.asBits 16) ops).map fun x => .imuS16 x)
  | 0x24 => some ((oneOperand (Operand.asBits 16) ops).map fun x => .imuTempC x)
  | 0x25 => some ((oneOperand (Operand.asBits 8) ops).map fun x => .imuAccelScale x)
  | 0x26 => some ((oneOperand (Operand.asBits 8) ops).map fun x => .imuGyroScale x)
  | 0x27 => some ((threeOperands (Operand.asBits 16) (Operand.asBits 8) Operand.asBool ops).map
      fun (r, c, m) => .imuAccelConv r c m)
  | 0x28 => some ((twoOperands (Operand.asBits 16) (Operand.asBits 8) ops).map fun (r, c) => .imuGyroConv r c)
  | 0x29 => some ((oneOperand Operand.asNat ops).map fun h => .imuReadTemp h)
  | 0x2A => some ((threeOperands Operand.asNat Operand.asAxis Operand.asBool ops).map
      fun (h, a, m) => .imuReadAccel h a m)
  | 0x2B => some ((twoOperands Operand.asNat Operand.asAxis ops).map fun (h, a) => .imuReadGyro h a)
  | 0x30 => some ((oneOperand Operand.asNat ops).map fun h => .pwmBringup h)
  | 0x31 => some ((fourOperands Operand.asNat Operand.asNat Operand.asInt Operand.asInt ops).map
      fun (h, c, n, f) => .pwmSetChannel h c n f)
  | 0x32 => some ((threeOperands Operand.asNat Operand.asInt Operand.asInt ops).map
      fun (h, n, f) => .pwmSetAll h n f)
  | 0x33 => some ((oneOperand Operand.asRat ops).map fun f => .pwmPrescale f)
  | 0x34 => some ((twoOperands Operand.asNat Operand.asRat ops).map fun (h, f) => .pwmSetFreq h f)
  | 0x35 => some ((twoOperands Operand.asRat Operand.asRat ops).map fun (m, f) => .pwmTicksMs m f)
  | 0x36 => some ((threeOperands Operand.asNat Operand.asNat Operand.asRat ops).map
      fun (h, c, m) => .pwmSetPulseMs h c m)
  | _ => none

/-- The decoder: the instruction of a request, or the reason it is refused (60_exceptions.md R206). The ranges that R77
adds to the types (a length of 1 or 2, a non-empty byte list, a positive frequency) are checked at the start of each
meaning, before it performs anything (log entry 4). DESIGN CHOICE (log entry 21): a request with too few or too many
operands is refused BadOperand; R206 names that reason for operands outside their type or range and none for a count. -/
def decode (r : Request) : Except RefuseReason Instr :=
  match decodeOp r.op r.operands with
  | some (some i) => .ok i
  | some none => .error .badOperand
  | none => .error .unknownOpcode

/-! ## The encoder -/

/-- The opcode of an instruction (R78). -/
def Instr.opcode : Instr → Byte
  | .openHandle _ _ => 0x01
  | .closeHandle _ => 0x02
  | .readReg _ _ _ => 0x03
  | .writeReg _ _ _ _ => 0x04
  | .writeRaw _ _ => 0x05
  | .asRead _ _ => 0x10
  | .asWrite _ _ _ => 0x11
  | .asBurn _ _ => 0x12
  | .asMaxPos _ _ => 0x13
  | .asRaw2DegI _ _ _ => 0x14
  | .asRaw2DegF _ _ _ => 0x15
  | .asDeg2RawI _ => 0x16
  | .asDeg2RawF _ => 0x17
  | .asStatusScale _ => 0x18
  | .imuInit _ => 0x20
  | .imuRead _ _ => 0x21
  | .imuWrite _ _ _ => 0x22
  | .imuS16 _ => 0x23
  | .imuTempC _ => 0x24
  | .imuAccelScale _ => 0x25
  | .imuGyroScale _ => 0x26
  | .imuAccelConv _ _ _ => 0x27
  | .imuGyroConv _ _ => 0x28
  | .imuReadTemp _ => 0x29
  | .imuReadAccel _ _ _ => 0x2A
  | .imuReadGyro _ _ => 0x2B
  | .pwmBringup _ => 0x30
  | .pwmSetChannel _ _ _ _ => 0x31
  | .pwmSetAll _ _ _ => 0x32
  | .pwmPrescale _ => 0x33
  | .pwmSetFreq _ _ => 0x34
  | .pwmTicksMs _ _ => 0x35
  | .pwmSetPulseMs _ _ _ => 0x36

/-- A natural number as an operand. -/
def natOperand (n : Nat) : Operand := .num ((n : Int) : Rat)

/-- An integer as an operand. -/
def intOperand (z : Int) : Operand := .num (z : Rat)

/-- Bits as an operand: their unsigned value. -/
def bitsOperand {w : Nat} (b : BitVec w) : Operand := natOperand b.toNat

/-- The element that spells a byte. -/
def byteElement (b : Byte) : Element := .num ((b.toNat : Int) : Rat)

/-- The operand tuple of an instruction, in the order of its format (R76). -/
def Instr.operands : Instr → List Operand
  | .openHandle b a => [.str b, bitsOperand a]
  | .closeHandle h => [natOperand h]
  | .readReg h r l => [natOperand h, bitsOperand r, bitsOperand l]
  | .writeReg h r v l => [natOperand h, bitsOperand r, bitsOperand v, bitsOperand l]
  | .writeRaw h l => [natOperand h, .bytes (l.map byteElement)]
  | .asRead h r => [natOperand h, .areg r]
  | .asWrite h r v => [natOperand h, .areg r, bitsOperand v]
  | .asBurn h c => [natOperand h, .cmd c]
  | .asMaxPos z r => [bitsOperand z, bitsOperand r]
  | .asRaw2DegI r z m => [bitsOperand r, bitsOperand z, bitsOperand m]
  | .asRaw2DegF r z m => [bitsOperand r, bitsOperand z, bitsOperand m]
  | .asDeg2RawI d => [intOperand d]
  | .asDeg2RawF d => [.num d]
  | .asStatusScale x => [bitsOperand x]
  | .imuInit h => [natOperand h]
  | .imuRead h r => [natOperand h, .ireg r]
  | .imuWrite h r v => [natOperand h, .ireg r, bitsOperand v]
  | .imuS16 x => [bitsOperand x]
  | .imuTempC x => [bitsOperand x]
  | .imuAccelScale x => [bitsOperand x]
  | .imuGyroScale x => [bitsOperand x]
  | .imuAccelConv r c m => [bitsOperand r, bitsOperand c, .bool m]
  | .imuGyroConv r c => [bitsOperand r, bitsOperand c]
  | .imuReadTemp h => [natOperand h]
  | .imuReadAccel h a m => [natOperand h, .axis a, .bool m]
  | .imuReadGyro h a => [natOperand h, .axis a]
  | .pwmBringup h => [natOperand h]
  | .pwmSetChannel h c n f => [natOperand h, natOperand c, intOperand n, intOperand f]
  | .pwmSetAll h n f => [natOperand h, intOperand n, intOperand f]
  | .pwmPrescale f => [.num f]
  | .pwmSetFreq h f => [natOperand h, .num f]
  | .pwmTicksMs m f => [.num m, .num f]
  | .pwmSetPulseMs h c m => [natOperand h, natOperand c, .num m]

/-- The encoder: the request of an instruction (R75). -/
def encode (i : Instr) : Request := { op := i.opcode, operands := i.operands }

/-! ## The opcode map as data (R78) -/

/-- One row of the opcode map. -/
structure OpRow where
  op : Byte
  mnemonic : String
  format : Format
  /-- whether the operation performs transfers and so needs an open handle -/
  bus : Bool
  deriving DecidableEq, Repr

/-- The transport and angle-sensor rows (R78). -/
def opRowsLow : List OpRow :=
  [⟨0x01, "OPEN", .fOpen, true⟩, ⟨0x02, "CLOSE", .fH, true⟩, ⟨0x03, "READ_REG", .fRR, true⟩,
   ⟨0x04, "WRITE_REG", .fRW, true⟩, ⟨0x05, "WRITE_RAW", .fRaw, true⟩, ⟨0x10, "AS_READ", .fAR, true⟩,
   ⟨0x11, "AS_WRITE", .fAW, true⟩, ⟨0x12, "AS_BURN", .fBurn, true⟩, ⟨0x13, "AS_MAXPOS", .fMaxPos, false⟩,
   ⟨0x14, "AS_RAW2DEG_I", .fR2D, false⟩, ⟨0x15, "AS_RAW2DEG_F", .fR2D, false⟩,
   ⟨0x16, "AS_DEG2RAW_I", .fD2RI, false⟩, ⟨0x17, "AS_DEG2RAW_F", .fD2RF, false⟩,
   ⟨0x18, "AS_STATUS_SCALE", .fU8, false⟩]

/-- The IMU rows (R78). -/
def opRowsImu : List OpRow :=
  [⟨0x20, "IMU_INIT", .fH, true⟩, ⟨0x21, "IMU_READ", .fIR, true⟩, ⟨0x22, "IMU_WRITE", .fIW, true⟩,
   ⟨0x23, "IMU_S16", .fU16, false⟩, ⟨0x24, "IMU_TEMP_C", .fU16, false⟩,
   ⟨0x25, "IMU_ACCEL_SCALE", .fU8, false⟩, ⟨0x26, "IMU_GYRO_SCALE", .fU8, false⟩,
   ⟨0x27, "IMU_ACCEL_CONV", .fAConv, false⟩, ⟨0x28, "IMU_GYRO_CONV", .fGConv, false⟩,
   ⟨0x29, "IMU_READ_TEMP", .fH, true⟩, ⟨0x2A, "IMU_READ_ACCEL", .fAXA, true⟩,
   ⟨0x2B, "IMU_READ_GYRO", .fAXG, true⟩]

/-- The PWM rows (R78). -/
def opRowsPwm : List OpRow :=
  [⟨0x30, "PWM_BRINGUP", .fH, true⟩, ⟨0x31, "PWM_SET_CHANNEL", .fCh, true⟩, ⟨0x32, "PWM_SET_ALL", .fAll, true⟩,
   ⟨0x33, "PWM_PRESCALE", .fFreq, false⟩, ⟨0x34, "PWM_SET_FREQ", .fHFreq, true⟩,
   ⟨0x35, "PWM_TICKS_MS", .fTms, false⟩, ⟨0x36, "PWM_SET_PULSE_MS", .fPulse, true⟩]

/-- The opcode map (R78). -/
def opRows : List OpRow := opRowsLow ++ opRowsImu ++ opRowsPwm

/-- The row of an opcode, if it spells an operation (R79). -/
def opRow (op : Byte) : Option OpRow := opRows.find? fun r => r.op == op

/-- The number of operands of a format (R76). -/
def Format.arity : Format → Nat
  | .fH | .fD2RI | .fD2RF | .fU8 | .fU16 | .fFreq => 1
  | .fOpen | .fRaw | .fAR | .fBurn | .fMaxPos | .fIR | .fGConv | .fAXG | .fHFreq | .fTms => 2
  | .fRR | .fAW | .fR2D | .fIW | .fAConv | .fAXA | .fAll | .fPulse => 3
  | .fRW | .fCh => 4

/-! ## The pseudo-operations (R81) -/

/-- The requests a pseudo-operation stands for, in order; `none` where the name or the operand count is not one of
R81's. That the first error ends a sequence of three is `performSequence` (log entry 16). -/
def expandPseudo (name : String) (ops : List Operand) : Option (List Request) :=
  match name, ops with
  | "READ8", [h, reg] => some [⟨0x03, [h, reg, .num 1]⟩]
  | "READ16", [h, reg] => some [⟨0x03, [h, reg, .num 2]⟩]
  | "WRITE8", [h, reg, v] => some [⟨0x04, [h, reg, v, .num 1]⟩]
  | "WRITE16", [h, reg, v] => some [⟨0x04, [h, reg, v, .num 2]⟩]
  | "IMU_SAMPLE_ACCEL", [h, ms2] =>
    some [⟨0x2A, [h, .axis .x, ms2]⟩, ⟨0x2A, [h, .axis .y, ms2]⟩, ⟨0x2A, [h, .axis .z, ms2]⟩]
  | "IMU_SAMPLE_GYRO", [h] => some [⟨0x2B, [h, .axis .x]⟩, ⟨0x2B, [h, .axis .y]⟩, ⟨0x2B, [h, .axis .z]⟩]
  | _, _ => none

/-! ## The word of an opcode-table row -/

/-- The operand tuple of a format with every operand zero (log entry 14): the number 0, the empty string or list,
`false`, and the first name of each list of names. -/
def Format.zeroOperands : Format → List Operand
  | .fOpen => [.str "", .num 0]
  | .fH | .fD2RI | .fD2RF | .fU8 | .fU16 | .fFreq => [.num 0]
  | .fMaxPos | .fGConv | .fHFreq | .fTms => [.num 0, .num 0]
  | .fRR | .fR2D | .fAll | .fPulse => [.num 0, .num 0, .num 0]
  | .fRW | .fCh => [.num 0, .num 0, .num 0, .num 0]
  | .fRaw => [.num 0, .bytes []]
  | .fAR => [.num 0, .areg .zmco]
  | .fAW => [.num 0, .areg .zmco, .num 0]
  | .fBurn => [.num 0, .cmd .angle]
  | .fIR => [.num 0, .ireg .pwrMgmt]
  | .fIW => [.num 0, .ireg .pwrMgmt, .num 0]
  | .fAConv => [.num 0, .num 0, .bool false]
  | .fAXA => [.num 0, .axis .x, .bool false]
  | .fAXG => [.num 0, .axis .x]

/-- The request whose bits are `w`: the opcode in bits 7..0 and zero operands. The operand tuple has no bits in the
table (30_encoding.md R75), so a word with a bit above bit 7 spells operands that are none of a format's. -/
def tableRequest (nbits w : Nat) : Request :=
  let v := w % 2 ^ nbits
  let op : Byte := BitVec.ofNat 8 v
  let ops : List Operand := if v < 256 then
      (match opRow op with
        | some r => r.format.zeroOperands
        | none => [])
    else []
  { op := op, operands := ops }

/-- The instruction the decoder reads from an opcode-table word. -/
def decodeTableWord (nbits w : Nat) : Option Instr :=
  match decode (tableRequest nbits w) with
  | .ok i => some i
  | .error _ => none

end Sys2Proof
end

