-- ==== Sys2Proof/Machine/State.lean ====
section
/-! DEFINITION. The block's state (10_state.md R20 to R26) as plain data, what an operation ends in (00_scope.md R14),
and the state after reset (R31). -/

namespace Sys2Proof.Machine

/-- A handle table entry (R21). -/
structure HandleRec where
  bus : String
  addr : BusAddr
  isOpen : Bool
  deriving DecidableEq, Repr

/-- The error kinds (60_exceptions.md R200). -/
inductive Error
  | busOpenFailed | addressSelectFailed | writeFailed | readFailed | shortRead | notOpen
  deriving DecidableEq, Repr

/-- The fault reasons of the spec (R207). -/
inductive FaultReason
  | frequencyUnset
  deriving DecidableEq, Repr

/-- The value of an operation that ends in `Ok` (00_scope.md R14), of the type its rule gives it. -/
inductive Value
  | unit
  | handle (h : HandleId)
  | u8 (b : Byte)
  | u16 (v : Half)
  | int (z : Int)
  | rat (q : Rat)
  /-- a floating result that is no number: only in a binary `FLOAT_FMT`, only out of its range (log entry 20) -/
  | nonFinite (x : NonFinite)
  deriving DecidableEq, Repr

/-- How an operation ended (R14): with a value, an error, a refusal or a fault. -/
inductive Ending
  | ok (v : Value)
  | err (e : Error)
  | refused (r : RefuseReason)
  | faulted (r : FaultReason)
  deriving DecidableEq, Repr

/-- Why a step has no next state. -/
inductive Fault
  /-- Raised by `step` alone, when a transfer was never answered: the block has no step then (60_exceptions.md R208,
  70_reset_and_hazards.md R231; 93_implementation_defined.md U3, "stuck"). Safe: nothing is claimed of such a run. -/
  | hungTransfer
  deriving DecidableEq, Repr

/-- Why an instruction has no meaning in the model. The refusals of the spec (R206) are none of these: they are next
states with the refusal mark set. -/
inductive Refusal
  /-- Raised by `exec` for an instruction that has no meaning yet; no arm does. Safe. -/
  | notModelled (mnemonic : String)
  deriving DecidableEq, Repr

/-- The state. The first group is the parameters (log entry 8), the second the spec's own state (R20), the third the
model's own: the host's coming requests, the environment's answers fixed from outside, the last request's ending, the
unanswered transfer and the number of free draws (log entries 1, 3, 5, 6, 11). A table lists its entries by rising
handle id; an unlisted id maps to `none` (log entry 7). -/
structure State where
  config : Config
  handles : List (HandleId × HandleRec)
  nextHandle : Nat
  pwmFreq : List (HandleId × Rat)
  history : List Event
  refused : Bool
  faulted : Bool
  requests : List Request
  script : List Answer
  ending : Option Ending
  hung : Option Transfer
  draws : Nat
  deriving DecidableEq, Repr

/-- The state after reset (R31) under the parameters `c`. -/
def State.resetWith (c : Config) : State where
  config := c
  handles := []
  nextHandle := 0
  pwmFreq := []
  history := []
  refused := false
  faulted := false
  requests := []
  script := []
  ending := none
  hung := none
  draws := 0

/-- The state after reset (R31, R220) under the default parameters (log entry 9). -/
def State.reset : State := State.resetWith Config.default

end Sys2Proof.Machine
end

