-- ==== Sys2Proof/Machine/Table.lean ====
section
/-! DEFINITION. A table from handle ids to optional values (10_state.md R20) as a list in one canonical form: ids
strictly rising, an unlisted id mapping to `none` (log entry 7). -/

namespace Sys2Proof.Machine

/-- The value of id `i`. -/
def lookup {α : Type} (i : HandleId) : List (HandleId × α) → Option α
  | [] => none
  | (k, v) :: rest => if k = i then some v else lookup i rest

/-- The table with id `i` mapping to `some a`. -/
def insert {α : Type} (i : HandleId) (a : α) : List (HandleId × α) → List (HandleId × α)
  | [] => [(i, a)]
  | (k, v) :: rest =>
    if i < k then (i, a) :: (k, v) :: rest
    else if k = i then (i, a) :: rest
    else (k, v) :: insert i a rest

/-- The table with id `i` mapping to `none`. -/
def erase {α : Type} (i : HandleId) : List (HandleId × α) → List (HandleId × α)
  | [] => []
  | (k, v) :: rest => if k = i then erase i rest else (k, v) :: erase i rest

/-- The canonical form: ids strictly rising. -/
abbrev TableWf {α : Type} (t : List (HandleId × α)) : Prop := (t.map Prod.fst).Pairwise (· < ·)

end Sys2Proof.Machine
end

