-- ==== Sys2Proof/Machine/Ops.lean ====
section
/-! DEFINITION. The shared operations: the environment's answers (10_state.md R27), the primitives of 00_scope.md R13
(BusWrite, BusRead, Delay, MemRead, MemWrite, raise, refuse, fault, return), and the handle check (40_transport.md
R90). Raising an error takes the place of taking an exception, and there is no return from one
(60_exceptions.md R204, R205). -/

namespace Sys2Proof.Machine

/-! ## The environment's answers (R27, log entry 3): the scripted one if it can serve the transfer, else the oracle's;
`none` is no answer at all -/

/-- The answer to an open of `(bus, addr)`. -/
def answerOpen (s : State) (bus : String) (addr : BusAddr) : Option OpenAnswer :=
  match s.script with
  | .onOpen a :: _ => some a
  | .never :: _ => none
  | _ => Config.openOracle s.history bus addr

/-- The answer to a write of `bytes` to the peripheral `(bus, addr)`. -/
def answerWrite (s : State) (bus : String) (addr : BusAddr) (bytes : List Byte) : Option WriteAnswer :=
  match s.script with
  | .onWrite a :: _ => some a
  | .never :: _ => none
  | _ => Config.writeOracle s.history bus addr bytes

/-- The oracle's answer to a read, without its bound. -/
def oracleRead (s : State) (bus : String) (addr : BusAddr) (n : Nat) : Option ReadAnswer :=
  match Config.readOracle s.history bus addr n with
  | some a => some a.val
  | none => none

/-- The answer to a read of `n` bytes from the peripheral `(bus, addr)`: at most `n` bytes. -/
def answerRead (s : State) (bus : String) (addr : BusAddr) (n : Nat) : Option ReadAnswer :=
  match s.script with
  | .onRead a :: _ => if a.fits n then some a else oracleRead s bus addr n
  | .never :: _ => none
  | _ => oracleRead s bus addr n

/-! ## State updates -/

/-- Append one event to the history (R25). -/
def State.record (s : State) (e : Event) : State := { s with history := s.history ++ [e] }

/-- A transfer was answered: its event is appended, and its scripted answer is used up. -/
def State.answered (s : State) (e : Event) : State :=
  { s with history := s.history ++ [e], script := s.script.tail }

/-- A transfer is never answered: nothing is appended (R25, R27). -/
def State.blockedOn (s : State) (t : Transfer) : State :=
  { s with script := s.script.tail, hung := some t }

/-- How the operation ended; `none` while it has not. -/
def State.ended (s : State) (e : Option Ending) : State := { s with ending := e }

/-- A new handle bound to `(bus, addr)` (40_transport.md R91). -/
def State.bindHandle (s : State) (bus : String) (addr : BusAddr) : State :=
  { s with
    nextHandle := s.nextHandle + 1
    handles := insert s.nextHandle { bus := bus, addr := addr, isOpen := true } s.handles
    pwmFreq := erase s.nextHandle s.pwmFreq }

/-- Close the handle `h` with entry `r` (R96). -/
def State.closeEntry (s : State) (h : HandleId) (r : HandleRec) : State :=
  { s with handles := insert h { r with isOpen := false } s.handles }

/-- Set the frequency register of `h` (43_pwm.md R172). -/
def State.setFreq (s : State) (h : HandleId) (freq : Rat) : State :=
  { s with pwmFreq := insert h freq s.pwmFreq }

/-- Use up one free draw. -/
def State.drawn (s : State) : State := { s with draws := s.draws + 1 }

/-! ## An operation in progress -/

/-- Where a part of an operation has come to: done with a value, ended by an error, or never to end. -/
inductive Run (α : Type)
  | done (a : α) (s : State)
  | raised (e : Error) (s : State)
  | hung (s : State)

/-- Go on with `f` where the first part is done; an error or a hang is the operation's (60_exceptions.md R201). -/
def Run.andThen {α β : Type} (r : Run α) (f : α → State → Run β) : Run β :=
  match r with
  | .done a s => f a s
  | .raised e s => .raised e s
  | .hung s => .hung s

/-- The state a part of an operation has come to. -/
def Run.state {α : Type} : Run α → State
  | .done _ s => s
  | .raised _ s => s
  | .hung s => s

/-- The ending that a finished part gives its operation; `none` for a hang, which is no end (00_scope.md R14). -/
def Run.ending : Run Value → Option Ending
  | .done v _ => some (.ok v)
  | .raised e _ => some (.err e)
  | .hung _ => none

/-- The end of an operation that used the bus: its result is delivered, or the block stays blocked (00_scope.md R14).
An error changes nothing but what was already recorded (60_exceptions.md R204). -/
def finish (r : Run Value) : Host.Outcome State Fault Refusal := .next (r.state.ended r.ending)

/-- `return v` of an operation that performs no transfer. -/
def returnValue (v : Value) (s : State) : Host.Outcome State Fault Refusal :=
  .next (s.ended (some (.ok v)))

/-! ## Floating results (00_scope.md R9) -/

/-- The floating result whose exact value is `x`: rounded once, where `FLOAT_FMT` is a binary format (log entries 12 and 20). -/
def floatValue (c : Config) (x : Rat) : Value :=
  match c.floatFmt with
  | .exact => .rat x
  | .binary f =>
    if |f.next (Config.roundsUp f x) x| ≤ f.largest then .rat (f.next (Config.roundsUp f x) x)
    else
      match Config.overflowNumber f x with
      | some q => .rat q.val
      | none => .nonFinite (Config.overflowKind f x)

/-- `return x` of an operation that performs no transfer and whose result is floating. -/
def returnFloat (x : Rat) (s : State) : Host.Outcome State Fault Refusal :=
  returnValue (floatValue s.config x) s

/-! ## Transfers (00_scope.md R13) -/

/-- `BusWrite(h, bytes)`, through the entry `r` of `h` (20_memory.md R41). -/
def busWrite (h : HandleId) (r : HandleRec) (bytes : List Byte) (s : State) : Run WriteAnswer :=
  match answerWrite s r.bus r.addr bytes with
  | some a => .done a (s.answered (.wrote h r.bus r.addr bytes a))
  | none => .hung (s.blockedOn (.write h bytes))

/-- `BusRead(h, n)`. -/
def busRead (h : HandleId) (r : HandleRec) (n : Nat) (s : State) : Run ReadAnswer :=
  match answerRead s r.bus r.addr n with
  | some a => .done a (s.answered (.read h r.bus r.addr n a))
  | none => .hung (s.blockedOn (.read h n))

/-- `Delay(h, ms)`: recorded, never answered and never failing (70_reset_and_hazards.md R232). -/
def delay (h : HandleId) (ms : Rat) (s : State) : Run Unit :=
  .done () (s.record (.delayed h ms))

/-- One write transfer; a failed one raises WriteFailed (40_transport.md R94, R95). -/
def sendFrame (h : HandleId) (r : HandleRec) (bytes : List Byte) (s : State) : Run Unit :=
  (busWrite h r bytes s).andThen fun a s =>
    match a with
    | .ok => .done () s
    | .fail => .raised .writeFailed s

/-- The register select and the read of exactly `n` bytes, or the error that R92 names; fewer bytes are never returned
(R93). -/
def readBytes (h : HandleId) (r : HandleRec) (reg : Byte) (n : Nat) (s : State) : Run (List Byte) :=
  (sendFrame h r [reg] s).andThen fun _ s =>
    (busRead h r n s).andThen fun a s =>
      match a with
      | .fail => .raised .readFailed s
      | .bytes l => if l.length < n then .raised .shortRead s else .done l s

/-- A one-byte register read: `a[0]` (R92). -/
def readByte (h : HandleId) (r : HandleRec) (reg : Byte) (s : State) : Run Byte :=
  (readBytes h r reg 1 s).andThen fun l s =>
    match l with
    | b :: _ => .done b s
    | [] => .raised .shortRead s

/-- A two-byte register read: `(a[0] << 8) | a[1]` (R92). -/
def readHalf (h : HandleId) (r : HandleRec) (reg : Byte) (s : State) : Run Half :=
  (readBytes h r reg 2 s).andThen fun l s =>
    match l with
    | b0 :: b1 :: _ => .done (bigEndian b0 b1) s
    | _ => .raised .shortRead s

/-- The body of READ_REG (R92): a `u8` or a `u16`. -/
def memRead (h : HandleId) (r : HandleRec) (reg : Byte) (len : RegLen) (s : State) : Run Value :=
  match len with
  | .one => (readByte h r reg s).andThen fun b s => .done (.u8 b) s
  | .two => (readHalf h r reg s).andThen fun v s => .done (.u16 v) s

/-- The body of WRITE_REG (R94): one transfer. -/
def memWrite (h : HandleId) (r : HandleRec) (reg : Byte) (len : RegLen) (value : Half) (s : State) :
    Run Unit :=
  sendFrame h r (writeFrame reg len value) s

/-- A one-byte register write of a byte. -/
def writeByte (h : HandleId) (r : HandleRec) (reg value : Byte) (s : State) : Run Unit :=
  sendFrame h r [reg, value] s

/-- One-byte register writes in the order given, each a transfer of its own; the first failure ends them
(60_exceptions.md R201). -/
def writeBytes (h : HandleId) (r : HandleRec) : List (Byte × Byte) → State → Run Unit
  | [], s => .done () s
  | (reg, value) :: rest, s =>
    (writeByte h r reg value s).andThen fun _ s => writeBytes h r rest s

/-- `return unit` after a part that yields nothing. -/
def unitAfter (r : Run Unit) : Run Value := r.andThen fun _ s => .done .unit s

/-! ## The handle check (40_transport.md R90) -/

/-- `checkOpen(h)`: the entry of an open handle, `none` for a closed or invalid one. -/
def checkOpen (s : State) (h : HandleId) : Option HandleRec :=
  match lookup h s.handles with
  | some r => if r.isOpen then some r else none
  | none => none

/-- An operation on a handle: NotOpen, with no transfer and no event, or the operation's body with the entry. The
entry cannot change inside an operation, so one check serves a body of several register accesses (log entry 15). -/
def withHandle (h : HandleId) (s : State) (body : HandleRec → State → Run Value) :
    Host.Outcome State Fault Refusal :=
  match checkOpen s h with
  | some r => finish (body r s)
  | none => finish (.raised .notOpen s)

end Sys2Proof.Machine
end

