-- ==== Sys2Proof/Machine/Flags.lean ====
section
/-! DEFINITION. The block has no flags (10_state.md R28); its only status is the two sticky marks (R26), which a refusal
and a fault set (60_exceptions.md R206, R207). Both are next states: the host goes on (log entry 6). -/

namespace Sys2Proof.Machine

/-- The state with the refusal mark set and nothing else of the block's changed. -/
def State.markRefused (s : State) (reason : RefuseReason) : State :=
  { s with refused := true, ending := some (.refused reason) }

/-- The state with the fault mark set and nothing else of the block's changed. -/
def State.markFaulted (s : State) (reason : FaultReason) : State :=
  { s with faulted := true, ending := some (.faulted reason) }

/-- `refuse Reason`: nothing is performed, no event is appended, and the refusal mark is set (R206). -/
def refuse (reason : RefuseReason) (s : State) : Host.Outcome State Fault Refusal :=
  .next (s.markRefused reason)

/-- `fault Reason`: the operation ends with no result, and the fault mark is set (R207). -/
def faultWith (reason : FaultReason) (s : State) : Host.Outcome State Fault Refusal :=
  .next (s.markFaulted reason)

/-- The result code of an error kind (R200). -/
def Error.code : Error → Nat
  | .busOpenFailed => 1
  | .addressSelectFailed => 2
  | .writeFailed => 3
  | .readFailed => 4
  | .shortRead => 5
  | .notOpen => 6

/-- The result code the host receives (R200): 0 for `Ok`; a refusal or a fault returns no result. -/
def Ending.code : Ending → Option Nat
  | .ok _ => some 0
  | .err e => some e.code
  | .refused _ => none
  | .faulted _ => none

end Sys2Proof.Machine
end

