-- ==== Sys2Proof/Machine/Angle.lean ====
section
/-! DEFINITION. The angle-sensor register mapper and degree converter (41_angle.md). -/

namespace Sys2Proof.Machine

/-- AS_READ (R111). -/
def execAsRead (h : HandleId) (areg : AngleReg) (s : State) : Host.Outcome State Fault Refusal :=
  if asReadable areg then
    withHandle h s fun r s => memRead h r (asRegAddr s.config.asReg areg) (asRegLen areg) s
  else refuse .writeOnlyRegister s

/-- AS_WRITE (R112). -/
def execAsWrite (h : HandleId) (areg : AngleReg) (value : Half) (s : State) :
    Host.Outcome State Fault Refusal :=
  if asWritable areg then
    withHandle h s fun r s =>
      unitAfter (memWrite h r (asRegAddr s.config.asReg areg) (asRegLen areg) value s)
  else refuse .readOnlyRegister s

/-- AS_BURN (R113). -/
def execAsBurn (h : HandleId) (cmd : BurnCmd) (s : State) : Host.Outcome State Fault Refusal :=
  withHandle h s fun r s =>
    unitAfter (writeByte h r (asRegAddr s.config.asReg .burn) (burnCode s.config cmd) s)

/-- AS_MAXPOS (R114). -/
def execAsMaxPos (zeroPos range : Half) (s : State) : Host.Outcome State Fault Refusal :=
  returnValue (.int (maxPosition zeroPos range)) s

/-- AS_RAW2DEG_I (R115). -/
def execAsRaw2DegI (raw zeroPos maxPos : Half) (s : State) : Host.Outcome State Fault Refusal :=
  returnValue (.int (rawToDegInt s.config.angleIntDivisor raw zeroPos maxPos)) s

/-- AS_RAW2DEG_F (R116). -/
def execAsRaw2DegF (raw zeroPos maxPos : Half) (s : State) : Host.Outcome State Fault Refusal :=
  returnFloat (rawToDegRat raw zeroPos maxPos) s

/-- AS_DEG2RAW_I (R117). -/
def execAsDeg2RawI (deg : Int) (s : State) : Host.Outcome State Fault Refusal :=
  returnValue (.int (degToRawInt deg)) s

/-- AS_DEG2RAW_F (R118). -/
def execAsDeg2RawF (deg : Rat) (s : State) : Host.Outcome State Fault Refusal :=
  returnFloat (degToRawRat deg) s

/-- AS_STATUS_SCALE (R119): a free draw where the table has no row (log entry 11). -/
def execAsStatusScale (x : Byte) (s : State) : Host.Outcome State Fault Refusal :=
  match statusScale s.config x with
  | some v => returnValue (.int v) s
  | none => returnValue (.int (drawnScale (Config.freeScale s.draws))) s.drawn

end Sys2Proof.Machine
end

