-- ==== Sys2Proof/Machine/Imu.lean ====
section
/-! DEFINITION. The IMU register mapper, scale-factor selector and signed converter (42_imu.md). -/

namespace Sys2Proof.Machine

/-- IMU_INIT (R141). -/
def execImuInit (h : HandleId) (s : State) : Host.Outcome State Fault Refusal :=
  withHandle h s fun r s =>
    match s.config.imuInitMode with
    | .rmw =>
      (readByte h r (imuRegAddr s.config.imuReg .pwrMgmt) s).andThen fun v s =>
        unitAfter (writeByte h r (imuRegAddr s.config.imuReg .pwrMgmt) (v &&& ~~~(imuSleepMask s.config)) s)
    | .writeZero => unitAfter (writeByte h r (imuRegAddr s.config.imuReg .pwrMgmt) 0 s)

/-- IMU_READ (R142). -/
def execImuRead (h : HandleId) (ireg : ImuReg) (s : State) : Host.Outcome State Fault Refusal :=
  withHandle h s fun r s => memRead h r (imuRegAddr s.config.imuReg ireg) (imuRegLen ireg) s

/-- IMU_WRITE (R143). -/
def execImuWrite (h : HandleId) (ireg : ImuReg) (value : Byte) (s : State) :
    Host.Outcome State Fault Refusal :=
  if imuWritable ireg then
    withHandle h s fun r s => unitAfter (writeByte h r (imuRegAddr s.config.imuReg ireg) value s)
  else refuse .readOnlyRegister s

/-- IMU_S16 (R145). -/
def execImuS16 (x : Half) (s : State) : Host.Outcome State Fault Refusal :=
  returnValue (.int (s16 x)) s

/-- IMU_TEMP_C (R146). -/
def execImuTempC (raw : Half) (s : State) : Host.Outcome State Fault Refusal :=
  returnFloat (tempC raw) s

/-- IMU_ACCEL_SCALE (R147). -/
def execImuAccelScale (cfg : Byte) (s : State) : Host.Outcome State Fault Refusal :=
  returnValue (.int (afsTable (rangeSel s.config cfg))) s

/-- IMU_GYRO_SCALE (R148). -/
def execImuGyroScale (cfg : Byte) (s : State) : Host.Outcome State Fault Refusal :=
  returnFloat (gfsTable (rangeSel s.config cfg)) s

/-- IMU_ACCEL_CONV (R149). -/
def execImuAccelConv (raw : Half) (cfg : Byte) (ms2 : Bool) (s : State) :
    Host.Outcome State Fault Refusal :=
  returnFloat (accelConv s.config raw cfg ms2) s

/-- IMU_GYRO_CONV (R150). -/
def execImuGyroConv (raw : Half) (cfg : Byte) (s : State) : Host.Outcome State Fault Refusal :=
  returnFloat (gyroConv s.config raw cfg) s

/-- IMU_READ_TEMP (R151). -/
def execImuReadTemp (h : HandleId) (s : State) : Host.Outcome State Fault Refusal :=
  withHandle h s fun r s =>
    (readHalf h r (imuRegAddr s.config.imuReg .temp) s).andThen fun raw s =>
      .done (floatValue s.config (tempC raw)) s

/-- IMU_READ_ACCEL (R152): the sample first, then the live range (R154). -/
def execImuReadAccel (h : HandleId) (axis : Axis) (ms2 : Bool) (s : State) :
    Host.Outcome State Fault Refusal :=
  withHandle h s fun r s =>
    (readHalf h r (imuRegAddr s.config.imuReg (accelReg axis)) s).andThen fun raw s =>
      (readByte h r (imuRegAddr s.config.imuReg .accelConfig) s).andThen fun cfg s =>
        .done (floatValue s.config (accelConv s.config raw cfg ms2)) s

/-- IMU_READ_GYRO (R153): the sample first, then the live range (R154). -/
def execImuReadGyro (h : HandleId) (axis : Axis) (s : State) : Host.Outcome State Fault Refusal :=
  withHandle h s fun r s =>
    (readHalf h r (imuRegAddr s.config.imuReg (gyroReg axis)) s).andThen fun raw s =>
      (readByte h r (imuRegAddr s.config.imuReg .gyroConfig) s).andThen fun cfg s =>
        .done (floatValue s.config (gyroConv s.config raw cfg)) s

end Sys2Proof.Machine
end

