-- ==== Sys2Proof/Machine/Pwm.lean ====
section
/-! DEFINITION. The PWM frequency calculator, mode sequence and channel writer (43_pwm.md). -/

namespace Sys2Proof.Machine

/-- `setRegs(h, ch, on, off)` (R174). -/
def setRegs (h : HandleId) (r : HandleRec) (ch : Nat) (on off : Int) (s : State) : Run Unit :=
  writeBytes h r (channelBytes s.config.pwmReg ch on off) s

/-- The body of PWM_SET_ALL (R175). -/
def setAllRegs (h : HandleId) (r : HandleRec) (on off : Int) (s : State) : Run Unit :=
  writeBytes h r (allChannelBytes s.config.pwmReg on off) s

/-- The sleep, reconfigure, restart sequence with the prescale byte `p` (R172, R173): PRESCALE is written only after
the sleep-mode write of the same sequence was answered `ok`. -/
def changePrescale (h : HandleId) (r : HandleRec) (p : Byte) (s : State) : Run Unit :=
  (readByte h r s.config.pwmReg.mode1 s).andThen fun old s =>
    (writeByte h r s.config.pwmReg.mode1 (old ||| s.config.sleep) s).andThen fun _ s =>
      (writeByte h r s.config.pwmReg.prescale p s).andThen fun _ s =>
        (writeByte h r s.config.pwmReg.mode1 old s).andThen fun _ s =>
          (delay h s.config.tPwmFreqSettle s).andThen fun _ s =>
            writeByte h r s.config.pwmReg.mode1 (old ||| s.config.restart) s

/-- The bring-up sequence (R178): silence the outputs, then enable them, then wake. -/
def bringup (h : HandleId) (r : HandleRec) (s : State) : Run Unit :=
  (setAllRegs h r 0 0 s).andThen fun _ s =>
    (writeByte h r s.config.pwmReg.mode2 s.config.outdrv s).andThen fun _ s =>
      (writeByte h r s.config.pwmReg.mode1 s.config.allcall s).andThen fun _ s =>
        (delay h s.config.tPwmBringupSettle s).andThen fun _ s =>
          (readByte h r s.config.pwmReg.mode1 s).andThen fun m s =>
            (writeByte h r s.config.pwmReg.mode1 (m &&& ~~~s.config.sleep) s).andThen fun _ s =>
              delay h s.config.tPwmBringupSettle s

/-- PWM_BRINGUP (R178). -/
def execPwmBringup (h : HandleId) (s : State) : Host.Outcome State Fault Refusal :=
  withHandle h s fun r s => unitAfter (bringup h r s)

/-- PWM_SET_CHANNEL (R174). -/
def execPwmSetChannel (h : HandleId) (ch : Nat) (on off : Int) (s : State) :
    Host.Outcome State Fault Refusal :=
  if channelLegal s.config ch then
    if tickLegal on && tickLegal off then
      withHandle h s fun r s => unitAfter (setRegs h r ch on off s)
    else refuse .tickOutOfRange s
  else refuse .channelOutOfRange s

/-- PWM_SET_ALL (R175). -/
def execPwmSetAll (h : HandleId) (on off : Int) (s : State) : Host.Outcome State Fault Refusal :=
  if tickLegal on && tickLegal off then
    withHandle h s fun r s => unitAfter (setAllRegs h r on off s)
  else refuse .tickOutOfRange s

/-- PWM_PRESCALE (R171). -/
def execPwmPrescale (freq : Rat) (s : State) : Host.Outcome State Fault Refusal :=
  if freqLegal freq then returnValue (.int (prescaleOf freq)) s else refuse .badOperand s

/-- PWM_SET_FREQ (R172): the frequency register is written only when the sequence completes (R179). -/
def execPwmSetFreq (h : HandleId) (freq : Rat) (s : State) : Host.Outcome State Fault Refusal :=
  if freqLegal freq then
    if prescaleLegal (prescaleOf freq) then
      withHandle h s fun r s =>
        (changePrescale h r (BitVec.ofInt 8 (prescaleOf freq)) s).andThen fun _ s =>
          .done .unit (s.setFreq h freq)
    else refuse .prescaleOutOfRange s
  else refuse .badOperand s

/-- PWM_TICKS_MS (R176). -/
def execPwmTicksMs (ms freq : Rat) (s : State) : Host.Outcome State Fault Refusal :=
  if freqLegal freq then returnValue (.int (ticksMs ms freq)) s else refuse .badOperand s

/-- PWM_SET_PULSE_MS (R177): the channel, then the handle, then the frequency register, then the tick count
(60_exceptions.md R203). -/
def execPwmSetPulseMs (h : HandleId) (ch : Nat) (ms : Rat) (s : State) :
    Host.Outcome State Fault Refusal :=
  if channelLegal s.config ch then
    match checkOpen s h with
    | none => finish (.raised .notOpen s)
    | some r =>
      match lookup h s.pwmFreq with
      | none => faultWith .frequencyUnset s
      | some f =>
        if tickLegal (ticksMs ms f) then finish (unitAfter (setRegs h r ch 0 (ticksMs ms f) s))
        else refuse .tickOutOfRange s
  else refuse .channelOutOfRange s

end Sys2Proof.Machine
end

