-- ==== Sys2Proof/Machine/Transport.lean ====
section
/-! DEFINITION. The register bus transport (40_transport.md). -/

namespace Sys2Proof.Machine

/-- The body of OPEN (R91). -/
def openBus (bus : String) (addr : BusAddr) (s : State) : Run Value :=
  match answerOpen s bus addr with
  | none => .hung (s.blockedOn (.open_ bus addr))
  | some .busFail => .raised .busOpenFailed (s.answered (.opened bus addr .busFail none))
  | some .selectFail => .raised .addressSelectFailed (s.answered (.opened bus addr .selectFail none))
  | some .ok =>
    .done (.handle s.nextHandle)
      ((s.bindHandle bus addr).answered (.opened bus addr .ok (some s.nextHandle)))

/-- OPEN (R91). -/
def execOpen (bus : String) (addr : BusAddr) (s : State) : Host.Outcome State Fault Refusal :=
  finish (openBus bus addr s)

/-- CLOSE (R96): no transfer. -/
def execClose (h : HandleId) (s : State) : Host.Outcome State Fault Refusal :=
  withHandle h s fun r s => .done .unit ((s.closeEntry h r).record (.closed h))

/-- READ_REG (R92). -/
def execReadReg (h : HandleId) (reg len : Byte) (s : State) : Host.Outcome State Fault Refusal :=
  match regLen len with
  | some n => withHandle h s fun r s => memRead h r reg n s
  | none => refuse .badOperand s

/-- WRITE_REG (R94). -/
def execWriteReg (h : HandleId) (reg : Byte) (value : Half) (len : Byte) (s : State) :
    Host.Outcome State Fault Refusal :=
  match regLen len with
  | some n => withHandle h s fun r s => unitAfter (memWrite h r reg n value s)
  | none => refuse .badOperand s

/-- WRITE_RAW (R95). -/
def execWriteRaw (h : HandleId) (bytes : List Byte) (s : State) : Host.Outcome State Fault Refusal :=
  if rawLenLegal s.config bytes then
    withHandle h s fun r s => unitAfter (sendFrame h r bytes s)
  else refuse .badOperand s

end Sys2Proof.Machine
end

