-- ==== Sys2Proof/Machine/Dispatch.lean ====
section
/-! DEFINITION. One arm per constructor of `Instr`, each one call of its meaning. -/

namespace Sys2Proof.Machine

def exec (i : Instr) (s : State) : Host.Outcome State Fault Refusal :=
  match i with
  -- transport
  | .openHandle bus addr => Sys2Proof.Machine.execOpen bus addr s
  | .closeHandle h => Sys2Proof.Machine.execClose h s
  | .readReg h reg len => Sys2Proof.Machine.execReadReg h reg len s
  | .writeReg h reg value len => Sys2Proof.Machine.execWriteReg h reg value len s
  | .writeRaw h bytes => Sys2Proof.Machine.execWriteRaw h bytes s
  -- angle sensor
  | .asRead h areg => Sys2Proof.Machine.execAsRead h areg s
  | .asWrite h areg value => Sys2Proof.Machine.execAsWrite h areg value s
  | .asBurn h cmd => Sys2Proof.Machine.execAsBurn h cmd s
  | .asMaxPos zeroPos range => Sys2Proof.Machine.execAsMaxPos zeroPos range s
  | .asRaw2DegI raw zeroPos maxPos => Sys2Proof.Machine.execAsRaw2DegI raw zeroPos maxPos s
  | .asRaw2DegF raw zeroPos maxPos => Sys2Proof.Machine.execAsRaw2DegF raw zeroPos maxPos s
  | .asDeg2RawI deg => Sys2Proof.Machine.execAsDeg2RawI deg s
  | .asDeg2RawF deg => Sys2Proof.Machine.execAsDeg2RawF deg s
  | .asStatusScale x => Sys2Proof.Machine.execAsStatusScale x s
  -- inertial sensor
  | .imuInit h => Sys2Proof.Machine.execImuInit h s
  | .imuRead h ireg => Sys2Proof.Machine.execImuRead h ireg s
  | .imuWrite h ireg value => Sys2Proof.Machine.execImuWrite h ireg value s
  | .imuS16 x => Sys2Proof.Machine.execImuS16 x s
  | .imuTempC raw => Sys2Proof.Machine.execImuTempC raw s
  | .imuAccelScale cfg => Sys2Proof.Machine.execImuAccelScale cfg s
  | .imuGyroScale cfg => Sys2Proof.Machine.execImuGyroScale cfg s
  | .imuAccelConv raw cfg ms2 => Sys2Proof.Machine.execImuAccelConv raw cfg ms2 s
  | .imuGyroConv raw cfg => Sys2Proof.Machine.execImuGyroConv raw cfg s
  | .imuReadTemp h => Sys2Proof.Machine.execImuReadTemp h s
  | .imuReadAccel h axis ms2 => Sys2Proof.Machine.execImuReadAccel h axis ms2 s
  | .imuReadGyro h axis => Sys2Proof.Machine.execImuReadGyro h axis s
  -- PWM controller
  | .pwmBringup h => Sys2Proof.Machine.execPwmBringup h s
  | .pwmSetChannel h ch on off => Sys2Proof.Machine.execPwmSetChannel h ch on off s
  | .pwmSetAll h on off => Sys2Proof.Machine.execPwmSetAll h on off s
  | .pwmPrescale freq => Sys2Proof.Machine.execPwmPrescale freq s
  | .pwmSetFreq h freq => Sys2Proof.Machine.execPwmSetFreq h freq s
  | .pwmTicksMs ms freq => Sys2Proof.Machine.execPwmTicksMs ms freq s
  | .pwmSetPulseMs h ch ms => Sys2Proof.Machine.execPwmSetPulseMs h ch ms s

end Sys2Proof.Machine
end

