-- ==== Sys2Proof/Machine/Request.lean ====
section
/-! DEFINITION. Taking the host's next request: an instruction is executed, a request that spells none is refused
(30_encoding.md R75, R77, R79); and the sequence of a pseudo-operation (R81). -/

namespace Sys2Proof.Machine

/-- The block with its first request taken from the host. -/
def State.took (s : State) : State := { s with requests := s.requests.tail }

/-- Execute one request in `s`. -/
def perform (r : Request) (s : State) : Host.Outcome State Fault Refusal :=
  match decode r with
  | .ok i => exec i s
  | .error reason => refuse reason s

/-- Execute the requests of a pseudo-operation in order: the first that does not end in a value ends the sequence (R81). This
is the host's loop around the block's operations; no step runs it (log entry 16). -/
def performSequence : List Request → State → Host.Outcome State Fault Refusal
  | [], s => .next s
  | r :: rest, s =>
    match perform r s with
    | .next t =>
      match t.ending with
      | some (.ok _) => performSequence rest t
      | _ => .next t
    | .fault f => .fault f
    | .refused x => .refused x

end Sys2Proof.Machine
end

