-- ==== Sys2Proof/Machine/Step.lean ====
section
/-! DEFINITION. One step: the block takes the host's next request and executes it to its end (00_scope.md R5). With no
request it waits, unchanged (70_reset_and_hazards.md R220); blocked in a transfer that is never answered, it has no
next step (60_exceptions.md R208). -/

namespace Sys2Proof.Machine

def step (s : State) : Host.Outcome State Fault Refusal :=
  match s.hung with
  | some _ => .fault .hungTransfer
  | none =>
    match s.requests with
    | [] => .next s
    | r :: _ => perform r s.took

/-- `s` with the request of an opcode-table word as the host's next one, and the block free to take it. -/
def State.withFetchWord (s : State) (nbits w : Nat) : State :=
  { s with requests := tableRequest nbits w :: s.requests, hung := none }

end Sys2Proof.Machine
end

