-- ==== Sys2Proof/Machine/Assembler.lean ====
section
/-! DEFINITION. The text syntax of requests (30_encoding.md R80): a line read into the requests it stands for. No step of
the machine reads text; this is how a host's program is written down. -/

namespace Sys2Proof.Machine

/-! ## Characters and numbers -/

/-- A list of characters without the spaces at its ends. -/
def trimSpaces (cs : List Char) : List Char :=
  ((cs.dropWhile (· == ' ')).reverse.dropWhile (· == ' ')).reverse

/-- A non-empty string of decimal digits. -/
def parseDigits (cs : List Char) : Option Nat :=
  if cs ≠ [] ∧ cs.all Char.isDigit then
    some (cs.foldl (fun n c => 10 * n + (c.toNat - '0'.toNat)) 0)
  else none

/-- The value of a hexadecimal digit. -/
def hexDigit (c : Char) : Option Nat :=
  if c.isDigit then some (c.toNat - '0'.toNat)
  else if 'a'.toNat ≤ c.toNat ∧ c.toNat ≤ 'f'.toNat then some (c.toNat - 'a'.toNat + 10)
  else if 'A'.toNat ≤ c.toNat ∧ c.toNat ≤ 'F'.toNat then some (c.toNat - 'A'.toNat + 10)
  else none

/-- Hexadecimal digits read after the number `n`. -/
def hexAfter (n : Nat) : List Char → Option Nat
  | [] => some n
  | c :: rest =>
    match hexDigit c with
    | some d => hexAfter (16 * n + d) rest
    | none => none

/-- A number without sign: hexadecimal, decimal, decimal fraction, or `n/d`, all exact. -/
def parseUnsigned (cs : List Char) : Option Rat :=
  match cs with
  | '0' :: 'x' :: rest =>
    if rest = [] then none else (hexAfter 0 rest).map fun n => ((n : Int) : Rat)
  | _ =>
    let whole := cs.takeWhile Char.isDigit
    match parseDigits whole, cs.dropWhile Char.isDigit with
    | some n, [] => some ((n : Int) : Rat)
    | some n, '.' :: frac =>
      (parseDigits frac).map fun f => ((n : Int) : Rat) + ((f : Int) : Rat) / ((10 ^ frac.length : Nat) : Rat)
    | some n, '/' :: den =>
      match parseDigits den with
      | some d => if d = 0 then none else some (((n : Int) : Rat) / ((d : Int) : Rat))
      | none => none
    | _, _ => none

/-- A number, with its sign: `-` or none (log entry 17). -/
def parseNumber (cs : List Char) : Option Rat :=
  match cs with
  | '-' :: rest => (parseUnsigned rest).map fun q => -q
  | _ => parseUnsigned cs

/-! ## Names -/

/-- `areg` names (20_memory.md R47). -/
def aregName : String → Option AngleReg
  | "ZMCO" => some .zmco
  | "ZPOS" => some .zpos
  | "MPOS" => some .mpos
  | "MANG" => some .mang
  | "CONF" => some .conf
  | "RAW_ANGLE" => some .rawAngle
  | "ANGLE" => some .angle
  | "STATUS" => some .status
  | "AGC" => some .agc
  | "MAGNITUDE" => some .magnitude
  | "BURN" => some .burn
  | _ => none

/-- `ireg` names (R51). -/
def iregName : String → Option ImuReg
  | "PWR_MGMT" => some .pwrMgmt
  | "ACCEL_CONFIG" => some .accelConfig
  | "GYRO_CONFIG" => some .gyroConfig
  | "DLPF_CONFIG" => some .dlpfConfig
  | "ACCEL_X" => some .accelX
  | "ACCEL_Y" => some .accelY
  | "ACCEL_Z" => some .accelZ
  | "TEMP" => some .temp
  | "GYRO_X" => some .gyroX
  | "GYRO_Y" => some .gyroY
  | "GYRO_Z" => some .gyroZ
  | _ => none

/-- `axis` names (30_encoding.md R76). -/
def axisName : String → Option Axis
  | "X" => some .x
  | "Y" => some .y
  | "Z" => some .z
  | _ => none

/-- `cmd` names (R76). -/
def cmdName : String → Option BurnCmd
  | "ANGLE" => some .angle
  | "SETTING" => some .setting
  | _ => none

/-- A name where a request of this format has one; a name that is none of them is a bad name (R77). -/
def nameOperand (f : Format) (s : String) : Operand :=
  let found : Option Operand := match f with
    | .fAR | .fAW => (aregName s).map .areg
    | .fIR | .fIW => (iregName s).map .ireg
    | .fAXA | .fAXG => (axisName s).map .axis
    | .fBurn => (cmdName s).map .cmd
    | _ => none
  found.getD (.badName s)

/-! ## Operands and lines -/

/-- Cut at each comma that stands outside brackets and quotes; `inStr` and `inBr` say where the reading stands, `cur` holds
the current piece in reverse. -/
def splitCommas (inStr inBr : Bool) (cur : List Char) : List Char → List (List Char)
  | [] => [cur.reverse]
  | c :: rest =>
    if c = '"' then splitCommas (!inStr) inBr (c :: cur) rest
    else if c = '[' ∧ !inStr then splitCommas inStr true (c :: cur) rest
    else if c = ']' ∧ !inStr then splitCommas inStr false (c :: cur) rest
    else if c = ',' ∧ !inStr ∧ !inBr then cur.reverse :: splitCommas inStr inBr [] rest
    else splitCommas inStr inBr (c :: cur) rest

/-- The line up to a `;` that stands outside quotes. -/
def dropComment (inStr : Bool) : List Char → List Char
  | [] => []
  | c :: rest =>
    if c = ';' ∧ !inStr then []
    else c :: dropComment (if c = '"' then !inStr else inStr) rest

/-- One operand of a request of format `f` that is no list; `none` where the text is none of R80's forms.
DESIGN CHOICE (log entry 17), each a point of which R80 says nothing:
- a string runs from the first to the last double quote of its text, and a double quote between the two is part of it, so
  `"a" "b"` is the one string `a" "b`;
- a handle `h<n>` is the number token `n`, so a bare number is accepted in a handle's place and `h<n>` in a number's place;
- a numeral begins with a digit or `-`, so `+5` and `.5` are bad names and their request is refused BadOperand;
- integers and rationals are one number token, so `12.0` or `24/2` is accepted as an integer and `0x10` as a rational. -/
def parseScalar (f : Format) (cs : List Char) : Option Operand :=
  match cs with
  | [] => none
  | '"' :: rest =>
    match rest.reverse with
    | '"' :: body => some (.str (String.ofList body.reverse))
    | _ => none
  | 'h' :: rest =>
    match parseDigits rest with
    | some n => some (natOperand n)
    | none => some (nameOperand f (String.ofList cs))
  | c :: _ =>
    if c.isDigit ∨ c = '-' then (parseNumber cs).map .num
    else if cs = "true".toList then some (.bool true)
    else if cs = "false".toList then some (.bool false)
    else some (nameOperand f (String.ofList cs))

/-- The elements of a byte list, each read as an operand of its own would be (log entry 17): a number, or something else,
for which the request is refused (00_scope.md R8); `none` where the text of one is none of R80's forms. -/
def parseElements (f : Format) : List (List Char) → Option (List Element)
  | [] => some []
  | cs :: rest =>
    match parseScalar f (trimSpaces cs), parseElements f rest with
    | some (.num q), some l => some (.num q :: l)
    | some _, some l => some (.other (String.ofList (trimSpaces cs)) :: l)
    | _, _ => none

/-- One operand of a request of format `f`: a byte list in brackets, or one of the other forms of R80, with the choices that
are marked at `parseScalar` (strings among them). -/
def parseOperand (f : Format) (cs : List Char) : Option Operand :=
  match cs with
  | '[' :: rest =>
    match rest.reverse with
    | ']' :: body =>
      if trimSpaces body = [] then some (.bytes [])
      else (parseElements f (splitCommas false false [] body.reverse)).map .bytes
    | _ => none
  | _ => parseScalar f cs

/-- The operands of a line. -/
def parseOperands (f : Format) : List (List Char) → Option (List Operand)
  | [] => some []
  | cs :: rest =>
    match parseOperand f (trimSpaces cs), parseOperands f rest with
    | some o, some l => some (o :: l)
    | _, _ => none

/-- The requests of one line: none for an empty line or a comment, one for an operation, one or three for a
pseudo-operation (R81); `none` where the line is not in the syntax. -/
def assembleLine (line : List Char) : Option (List Request) :=
  let text := trimSpaces (dropComment false line)
  if text = [] then some []
  else
    let name := String.ofList (text.takeWhile (· != ' '))
    let args := text.dropWhile (· != ' ')
    let pieces := if trimSpaces args = [] then [] else splitCommas false false [] args
    match opRows.find? fun r => r.mnemonic == name with
    | some row => (parseOperands row.format pieces).map fun ops => [⟨row.op, ops⟩]
    | none =>
      match parseOperands .fRR pieces with
      | some ops => expandPseudo name ops
      | none => none

/-- The requests of a program, one line after another; `none` where a line is not in the syntax. -/
def assemble : List String → Option (List Request)
  | [] => some []
  | line :: rest =>
    match assembleLine line.toList, assemble rest with
    | some a, some b => some (a ++ b)
    | _, _ => none

end Sys2Proof.Machine
end

