-- ==== Sys2Proof/Safety.lean ====
section
/-! DEFINITION. The terms claims use: good states (10_state.md R26), what an instruction addresses, the environment
answering as a list of events says, and the invariants of the machine. -/

namespace Sys2Proof.Machine

/-- A good final state has neither mark set (R26). -/
abbrev State.good (s : State) : Prop := s.refused = false ∧ s.faulted = false

/-- The handle an instruction is issued on; OPEN and the pure converters have none. -/
def handleOf : Instr → Option HandleId
  | .closeHandle h | .readReg h _ _ | .writeReg h _ _ _ | .writeRaw h _ | .asRead h _ | .asWrite h _ _
  | .asBurn h _ | .imuInit h | .imuRead h _ | .imuWrite h _ _ | .imuReadTemp h | .imuReadAccel h _ _
  | .imuReadGyro h _ | .pwmBringup h | .pwmSetChannel h _ _ _ | .pwmSetAll h _ _ | .pwmSetFreq h _
  | .pwmSetPulseMs h _ _ => some h
  | .openHandle _ _ | .asMaxPos _ _ | .asRaw2DegI _ _ _ | .asRaw2DegF _ _ _ | .asDeg2RawI _
  | .asDeg2RawF _ | .asStatusScale _ | .imuS16 _ | .imuTempC _ | .imuAccelScale _ | .imuGyroScale _
  | .imuAccelConv _ _ _ | .imuGyroConv _ _ | .pwmPrescale _ | .pwmTicksMs _ _ => none

/-- The pure converters: neither a handle nor a transfer (30_encoding.md R78). -/
def isPure : Instr → Bool
  | .openHandle _ _ => false
  | i => (handleOf i).isNone

/-! ## Events of a handle -/

/-- The handle of an event. -/
def eventHandle : Event → Option HandleId
  | .opened _ _ _ h => h
  | .wrote h _ _ _ _ | .read h _ _ _ _ | .delayed h _ | .closed h => some h

/-- A write transfer through the entry `r` of `h`, answered `a`. -/
def wrote (h : HandleId) (r : HandleRec) (bytes : List Byte) (a : WriteAnswer) : Event :=
  .wrote h r.bus r.addr bytes a

/-- A read transfer of `n` bytes through the entry `r` of `h`, answered with the bytes `l`. -/
def readBack (h : HandleId) (r : HandleRec) (n : Nat) (l : List Byte) : Event :=
  .read h r.bus r.addr n (.bytes l)

/-- A read transfer of `n` bytes through the entry `r` of `h` that failed. -/
def readFails (h : HandleId) (r : HandleRec) (n : Nat) : Event := .read h r.bus r.addr n .fail

/-- The register select and the read of a register, both answered (40_transport.md R92). -/
def regRead (h : HandleId) (r : HandleRec) (reg : Byte) (l : List Byte) : List Event :=
  [wrote h r [reg] .ok, readBack h r l.length l]

/-- One-byte register writes, each answered `ok`. -/
def wroteAll (h : HandleId) (r : HandleRec) (l : List (Byte × Byte)) : List Event :=
  l.map fun p => wrote h r [p.1, p.2] .ok

/-- Whether an event is a transfer, which takes an answer of the environment. -/
def isTransfer : Event → Bool
  | .opened _ _ _ _ | .wrote _ _ _ _ _ | .read _ _ _ _ _ => true
  | .delayed _ _ | .closed _ => false

/-- `s` after the events `es`: they stand in its history, and each transfer has used up its scripted answer. -/
def State.played (s : State) (es : List Event) : State :=
  { s with history := s.history ++ es, script := s.script.drop (es.countP isTransfer) }

/-- Whether the environment answers in `s` as the event says. -/
def answersAs (s : State) : Event → Bool
  | .opened bus addr a _ => answerOpen s bus addr == some a
  | .wrote _ bus addr bytes a => answerWrite s bus addr bytes == some a
  | .read _ bus addr n a => answerRead s bus addr n == some a
  | .delayed _ _ | .closed _ => true

/-- Whether the environment, from `s` on, answers the transfers of `es` as they say, one after the other. -/
def environmentPlays (s : State) : List Event → Bool
  | [] => true
  | e :: es => answersAs s e && environmentPlays (s.played [e]) es

/-- The same write transfer, answered `fail`. -/
def refusedByBus : Event → Event
  | .wrote h bus addr bytes _ => .wrote h bus addr bytes .fail
  | e => e

/-- Whether an event is a write transfer. -/
def isWrite : Event → Bool
  | .wrote _ _ _ _ _ => true
  | .opened _ _ _ _ | .read _ _ _ _ _ | .delayed _ _ | .closed _ => false

/-- An event of an operation on the handle `h` with entry `r`: it names that handle and that pair (20_memory.md R41), and a
read got at most the bytes it asked for (10_state.md R27). -/
def boundTo (h : HandleId) (r : HandleRec) : Event → Prop
  | .wrote k bus addr _ _ => k = h ∧ bus = r.bus ∧ addr = r.addr
  | .read k bus addr n a => k = h ∧ bus = r.bus ∧ addr = r.addr ∧ a.fits n = true
  | .delayed k _ => k = h
  | .closed k => k = h
  | .opened _ _ _ _ => False

/-- The seven events of a frequency change that completes (43_pwm.md R172): the mode byte `old` read, and the prescale byte
`p` written. -/
def setFreqEvents (c : Config) (h : HandleId) (r : HandleRec) (old p : Byte) : List Event :=
  regRead h r c.pwmReg.mode1 [old] ++
    [wrote h r [c.pwmReg.mode1, old ||| c.sleep] .ok,
     wrote h r [c.pwmReg.prescale, p] .ok,
     wrote h r [c.pwmReg.mode1, old] .ok,
     .delayed h c.tPwmFreqSettle,
     wrote h r [c.pwmReg.mode1, old ||| c.restart] .ok]

/-- The eleven events of a bring-up that completes (43_pwm.md R178): the mode byte `m` read. -/
def bringupEvents (c : Config) (h : HandleId) (r : HandleRec) (m : Byte) : List Event :=
  wroteAll h r [(c.pwmReg.allOnL, 0), (c.pwmReg.allOnH, 0), (c.pwmReg.allOffL, 0), (c.pwmReg.allOffH, 0),
      (c.pwmReg.mode2, c.outdrv), (c.pwmReg.mode1, c.allcall)] ++
    [.delayed h c.tPwmBringupSettle] ++ regRead h r c.pwmReg.mode1 [m] ++
    [wrote h r [c.pwmReg.mode1, m &&& ~~~c.sleep] .ok, .delayed h c.tPwmBringupSettle]

/-! ## Numbers -/

/-- `p` is `x` rounded to the nearest integer, a half rounded away from zero (00_scope.md R10). -/
def roundsTo (x : Rat) (p : Int) : Prop :=
  |x - (p : Rat)| < 1 / 2 ∨ (|x - (p : Rat)| = 1 / 2 ∧ |x| < |(p : Rat)|)

/-- `q` is a number of the format (00_scope.md R9, log entry 12): a whole number of the last place of some exponent. -/
def inFormat (f : BinaryFmt) (q : Rat) : Prop :=
  ∃ n e : Int, f.minExp ≤ e ∧ e ≤ f.maxExp ∧ |n| < 2 ^ (f.fracBits + 1) ∧ q = n * 2 ^ (e - f.fracBits)

/-- `v` is the floating result whose exact value is `x` (R9). Where `FLOAT_FMT` is exact it is `x`. Where it is a binary
format it is a number of the format with none between it and `x`, so `x` itself if the format has it; in which direction
it is rounded is free (log entry 20). Beyond the largest number of the format it is free: a number of the format or a
value that is no number. -/
def Represents (c : Config) (x : Rat) (v : Value) : Prop :=
  (c.floatFmt = .exact → v = .rat x) ∧
  ∀ f, c.floatFmt = .binary f →
    (∃ q, v = .rat q ∧ inFormat f q ∧
      (|x| ≤ f.largest → ∀ y, inFormat f y → (x ≤ y ∧ y ≤ q) ∨ (q ≤ y ∧ y ≤ x) → y = q)) ∨
    (f.largest < |x| ∧ ∃ n, v = .nonFinite n)

/-! ## The invariants -/

/-- The handle table and the frequency registers: in canonical form; exactly the ids below `nextHandle` have an entry
(10_state.md R22, 40_transport.md R91); a frequency belongs to such an id and is one PWM_SET_FREQ accepts (R24). -/
structure TablesInv (s : State) : Prop where
  handlesWf : TableWf s.handles
  freqWf : TableWf s.pwmFreq
  ids : ∀ h, (lookup h s.handles).isSome = true ↔ h < s.nextHandle
  freqIds : ∀ h f, lookup h s.pwmFreq = some f → h < s.nextHandle
  freqLegal : ∀ h f, lookup h s.pwmFreq = some f → 0 < f ∧ 0 ≤ prescaleOf f ∧ prescaleOf f ≤ 255

/-- Whether an event of the history agrees with the handle table: it went through an entry to the pair that entry is bound
to (20_memory.md R41), and a read got at most the bytes it asked for (10_state.md R27). -/
def agrees (s : State) : Event → Prop
  | .opened bus addr .ok (some h) => ∃ r, lookup h s.handles = some r ∧ r.bus = bus ∧ r.addr = addr
  | .opened _ _ .ok none => False
  | .opened _ _ .busFail h => h = none
  | .opened _ _ .selectFail h => h = none
  | .wrote h bus addr _ _ => ∃ r, lookup h s.handles = some r ∧ r.bus = bus ∧ r.addr = addr
  | .read h bus addr n a =>
    (∃ r, lookup h s.handles = some r ∧ r.bus = bus ∧ r.addr = addr) ∧ a.fits n = true
  | .delayed h _ => (lookup h s.handles).isSome = true
  | .closed h => ∃ r, lookup h s.handles = some r ∧ r.isOpen = false

/-- The history agrees with the handle table. -/
structure HistoryInv (s : State) : Prop where
  tables : TablesInv s
  agree : ∀ e ∈ s.history, agrees s e

/-- After the close of a handle the history holds no event of that handle (70_reset_and_hazards.md R225), and a handle is
closed exactly when its close stands in the history (10_state.md R23). -/
structure CloseInv (s : State) : Prop where
  tables : TablesInv s
  closed : ∀ h r, lookup h s.handles = some r → (r.isOpen = false ↔ .closed h ∈ s.history)
  issued : ∀ e ∈ s.history, ∀ h, eventHandle e = some h → h < s.nextHandle
  quiet : ∀ pre post h, s.history = pre ++ .closed h :: post → ∀ e ∈ post, eventHandle e ≠ some h

end Sys2Proof.Machine
end

