-- ==== Sys2Proof/Certificates/Slice0/Obligations.lean ====
section
/-! DEFINITION. The statements for the provers, one for each entry of OBLIGATIONS.json. Register addresses, bit positions
and masks are the parameters `s.config`, so that no statement rests on a default of log entry 9 unless it says so. -/

open Sys2Proof Sys2Proof.Machine

/-! ## Encoding -/

/-- Every operand of every instruction survives encoding and decoding (30_encoding.md R75, R76). -/
def Obligations.DecodeOfEncodeIsTheInstruction : Prop :=
  ∀ i : Instr, decode (encode i) = .ok i

/-- A request that decodes is the encoding of what it decodes to: no operand is ignored and no instruction has two
encodings (30_encoding.md R75). -/
def Obligations.DecodedRequestIsItsEncoding : Prop :=
  ∀ (q : Request) (i : Instr), decode q = .ok i → encode i = q

/-- The reserved opcodes (30_encoding.md R79), and no others, spell no operation; a request with one is refused with
UnknownOpcode and performs nothing. -/
def Obligations.ReservedOpcodesAreRefused : Prop :=
  (∀ q : Request, decode q = .error .unknownOpcode ↔
    (q.op.toNat = 0x00 ∨ (0x06 ≤ q.op.toNat ∧ q.op.toNat ≤ 0x0F) ∨ (0x19 ≤ q.op.toNat ∧ q.op.toNat ≤ 0x1F) ∨
      (0x2C ≤ q.op.toNat ∧ q.op.toNat ≤ 0x2F) ∨ 0x37 ≤ q.op.toNat)) ∧
  ∀ (q : Request) (rest : List Request) (s : State), s.hung = none → s.requests = q :: rest →
    decode q = .error .unknownOpcode →
    step s = .next { s with requests := rest, refused := true, ending := some (.refused .unknownOpcode) }

/-- Words written out from the opcode map (30_encoding.md R78) and the programs of 95_test_vectors.md. -/
def Obligations.SampleWordsDecode : Prop :=
  decode ⟨0x01, [.str "1", .num 0x36]⟩ = .ok (.openHandle "1" 0x36) ∧
  decode ⟨0x04, [.num 0, .num 0x01, .num 0x0123, .num 2]⟩ = .ok (.writeReg 0 0x01 0x0123 2) ∧
  decode ⟨0x10, [.num 0, .areg .zpos]⟩ = .ok (.asRead 0 .zpos) ∧
  decode ⟨0x15, [.num 2048, .num 100, .num 300]⟩ = .ok (.asRaw2DegF 2048 100 300) ∧
  decode ⟨0x2A, [.num 0, .axis .z, .bool true]⟩ = .ok (.imuReadAccel 0 .z true) ∧
  decode ⟨0x36, [.num 0, .num 0, .num (3 / 2)]⟩ = .ok (.pwmSetPulseMs 0 0 (3 / 2))

/-- An operand outside its type makes the request refused BadOperand at decode (30_encoding.md R77, 60_exceptions.md R206), for
every opcode of an operation: a request that is no instruction's encoding decodes to that refusal. So an address above 0x7F, a
register above 0xFF, a value above 0xFFFF, a number that is negative or not whole where the type is unsigned, a byte list with
an element that is negative, above 0xFF, not whole or no number (00_scope.md R8), a name that is none of the names, an infinity
and a NaN. (That a request with too few or too many operands is refused so too is the model's choice, log entry 21.) -/
def Obligations.OperandsOutsideTheirTypeAreRefused : Prop :=
  (∀ q : Request, opRow q.op ≠ none → (∀ i, encode i ≠ q) → decode q = .error .badOperand) ∧
  (∀ (bus : String) (n : Nat), 0x7F < n → decode ⟨0x01, [.str bus, .num n]⟩ = .error .badOperand) ∧
  (∀ (h n l : Nat), 0xFF < n → decode ⟨0x03, [.num h, .num n, .num l]⟩ = .error .badOperand) ∧
  (∀ (h r n l : Nat), 0xFFFF < n → decode ⟨0x04, [.num h, .num r, .num n, .num l]⟩ = .error .badOperand) ∧
  (∀ (h n : Nat) (r : ImuReg), 0xFF < n → decode ⟨0x22, [.num h, .ireg r, .num n]⟩ = .error .badOperand) ∧
  (∀ (h : Nat) (l : List Element), (∃ q : Rat, .num q ∈ l ∧ (q < 0 ∨ 0xFF < q ∨ ¬ ∃ z : Int, q = z)) ∨
      (∃ x, .other x ∈ l) →
    decode ⟨0x05, [.num h, .bytes l]⟩ = .error .badOperand) ∧
  (∀ q : Rat, (q < 0 ∨ ¬ ∃ z : Int, q = z) → decode ⟨0x02, [.num q]⟩ = .error .badOperand) ∧
  (∀ q : Rat, (¬ ∃ z : Int, q = z) → decode ⟨0x16, [.num q]⟩ = .error .badOperand) ∧
  (∀ (h : Nat) (x : String), decode ⟨0x10, [.num h, .badName x]⟩ = .error .badOperand ∧
    decode ⟨0x12, [.num h, .badName x]⟩ = .error .badOperand ∧
    decode ⟨0x21, [.num h, .badName x]⟩ = .error .badOperand ∧
    decode ⟨0x2B, [.num h, .badName x]⟩ = .error .badOperand) ∧
  ∀ (h : Nat) (ch : Nat) (q : Rat) (x : NonFinite), decode ⟨0x17, [.nonFinite x]⟩ = .error .badOperand ∧
    decode ⟨0x33, [.nonFinite x]⟩ = .error .badOperand ∧
    decode ⟨0x34, [.num h, .nonFinite x]⟩ = .error .badOperand ∧
    decode ⟨0x35, [.nonFinite x, .num q]⟩ = .error .badOperand ∧
    decode ⟨0x35, [.num q, .nonFinite x]⟩ = .error .badOperand ∧
    decode ⟨0x36, [.num h, .num ch, .nonFinite x]⟩ = .error .badOperand

/-! ## The step -/

/-- A step takes the host's next request; where it decodes to an instruction, the step is that instruction's execution, and
where it does not, the request is refused with the decoder's reason. -/
def Obligations.StepRunsTheDecodedInstruction : Prop :=
  ∀ (s : State) (q : Request) (rest : List Request), s.hung = none → s.requests = q :: rest →
    (∀ i, decode q = .ok i → step s = exec i { s with requests := rest }) ∧
    (∀ reason, decode q = .error reason → step s =
      .next { s with requests := rest, refused := true, ending := some (.refused reason) })

/-- With no request the block waits, unchanged (70_reset_and_hazards.md R220; the idle step is log entry 1). -/
def Obligations.IdleBlockWaits : Prop :=
  ∀ s : State, s.hung = none → s.requests = [] → step s = .next s

/-- A transfer that is never answered leaves its operation without an end (60_exceptions.md R208): what was answered before it
stands in the history, nothing is appended for it, no result is delivered, and the block has no next step
(70_reset_and_hazards.md R231; that a stuck block is a fault of the step is log entry 5). So an OPEN; every operation of one
write transfer; the register select and the read of either length of READ_REG. The reads of AS_READ, IMU_READ, IMU_INIT and
the IMU_READ operations end as READ_REG does, and the write after the read of IMU_INIT as WRITE_REG does, by their own
statements; for the PWM operations see `UnansweredPwmTransferBlocksTheBlock`. -/
def Obligations.UnansweredTransferBlocksTheBlock : Prop :=
  (∀ (s : State) (bus : String) (addr : BusAddr), answerOpen s bus addr = none →
    exec (.openHandle bus addr) s =
      .next { s with script := s.script.tail, hung := some (.open_ bus addr), ending := none }) ∧
  (∀ (s : State) (i : Instr) (h : HandleId) (r : HandleRec) (reg : Byte) (value : Half) (hi lo : Byte)
      (bytes : List Byte), checkOpen s h = some r → value.toNat = 256 * hi.toNat + lo.toNat →
    ((i = .writeReg h reg value 1 ∧ bytes = [reg, lo]) ∨
      (i = .writeReg h reg value 2 ∧ bytes = [reg, hi, lo]) ∨
      (i = .writeRaw h bytes ∧ rawLenLegal s.config bytes = true) ∨
      (i = .readReg h reg 1 ∧ bytes = [reg]) ∨
      (i = .readReg h reg 2 ∧ bytes = [reg]) ∨
      (∃ a, i = .asWrite h a value ∧ bytes = [reg, hi, lo] ∧
        (a, reg) ∈ [(AngleReg.zpos, s.config.asReg.zpos), (.mpos, s.config.asReg.mpos),
          (.mang, s.config.asReg.mang), (.conf, s.config.asReg.conf)]) ∨
      (∃ cmd, i = .asBurn h cmd ∧ bytes = [s.config.asReg.burn, lo] ∧
        (cmd, lo) ∈ [(BurnCmd.angle, s.config.burnAngleCmd), (.setting, s.config.burnSettingCmd)]) ∨
      (∃ g, i = .imuWrite h g lo ∧ bytes = [reg, lo] ∧
        (g, reg) ∈ [(ImuReg.pwrMgmt, s.config.imuReg.pwrMgmt), (.accelConfig, s.config.imuReg.accelConfig),
          (.gyroConfig, s.config.imuReg.gyroConfig), (.dlpfConfig, s.config.imuReg.dlpfConfig)])) →
    answerWrite s r.bus r.addr bytes = none →
    exec i s = .next { s with script := s.script.tail, hung := some (.write h bytes), ending := none }) ∧
  (∀ (s : State) (h : HandleId) (r : HandleRec) (reg len : Byte), checkOpen s h = some r → len = 1 ∨ len = 2 →
    environmentPlays s [wrote h r [reg] .ok] = true →
    answerRead (s.played [wrote h r [reg] .ok]) r.bus r.addr len.toNat = none →
    exec (.readReg h reg len) s =
      .next { s with history := s.history ++ [wrote h r [reg] .ok], script := s.script.tail.tail,
                     hung := some (.read h len.toNat), ending := none }) ∧
  ∀ (s : State) (x : Transfer), s.hung = some x → step s = .fault .hungTransfer

/-! ## Whole-machine rules -/

/-- Every operation, from every state in which the block is not blocked, ends in exactly one of a value, an error, a refusal
or a fault, or does not end at all; the model stops on none (00_scope.md R14). -/
def Obligations.OperationsEndInExactlyOneWay : Prop :=
  ∀ (i : Instr) (s : State), s.hung = none →
    ∃ t, exec i s = .next t ∧
      ((t.hung = none ∧ ∃ e, t.ending = some e) ∨ (t.ending = none ∧ ∃ x, t.hung = some x))

/-- The marks are set by the requests that end in a refusal or a fault, by nothing else, and never cleared; an error result
sets none; a state with a mark set is not good (10_state.md R26). -/
def Obligations.MarksFollowTheEndings : Prop :=
  (∀ (s t : State) (q : Request) (rest : List Request), s.hung = none → s.requests = q :: rest →
    step s = .next t →
    (t.refused = true ↔ s.refused = true ∨ ∃ x, t.ending = some (.refused x)) ∧
    (t.faulted = true ↔ s.faulted = true ∨ ∃ x, t.ending = some (.faulted x)) ∧
    (∀ e, t.ending = some (.err e) → t.refused = s.refused ∧ t.faulted = s.faulted)) ∧
  ∀ t : State, t.good ↔ t.refused ≠ true ∧ t.faulted ≠ true

/-- A refused request performs nothing: only the mark, the ending and the taken request change (60_exceptions.md R206). -/
def Obligations.RefusedRequestPerformsNothing : Prop :=
  ∀ (s t : State) (q : Request) (rest : List Request) (x : RefuseReason), s.hung = none →
    s.requests = q :: rest → step s = .next t → t.ending = some (.refused x) →
    t = { s with requests := rest, refused := true, ending := some (.refused x) }

/-- An instruction other than PWM_SET_PULSE_MS is refused exactly when it fails one of the static checks of its rule, in
every state, whatever the handle table holds (60_exceptions.md R203, R206). -/
def Obligations.RefusedExactlyWhenIllFormed : Prop :=
  ∀ (i : Instr) (s : State), (∀ h ch ms, i ≠ .pwmSetPulseMs h ch ms) →
    (i.wellFormed s.config = false ↔
      ∃ x, exec i s = .next { s with refused := true, ending := some (.refused x) })

/-- The pure converters perform no transfer, raise no error, write no state but the marks, and read none but the parameters;
the free draw of AS_STATUS_SCALE counts the model's own draws (30_encoding.md R78, log entry 11). That a floating result in a
binary `FLOAT_FMT` is the same in every state with the same parameters, at two times in one run too, is the model's choice:
its rounding, and its result beyond the format's range, are functions of the format and the exact value alone (log entry 20). -/
def Obligations.PureConvertersWriteNothing : Prop :=
  ∀ (i : Instr) (s t : State), isPure i = true → exec i s = .next t →
    t = { s with refused := t.refused, ending := t.ending, draws := t.draws } ∧
    (∀ e, t.ending ≠ some (.err e)) ∧ (∀ x, t.ending ≠ some (.faulted x)) ∧
    (t.draws = s.draws ∨ ∃ x, i = .asStatusScale x) ∧
    ∀ s' : State, s'.config = s.config → s'.draws = s.draws →
      ∃ t', exec i s' = .next t' ∧ t'.ending = t.ending

/-- `checkOpen` is the first step of every operation on a handle: on a closed or invalid handle it ends in NotOpen, with no
transfer and no event, and on an open one it never does (40_transport.md R90). -/
def Obligations.ClosedOrInvalidHandleIsNotOpen : Prop :=
  ∀ (i : Instr) (h : HandleId) (s : State), handleOf i = some h → i.wellFormed s.config = true →
    ((lookup h s.handles = none ∨ ∃ r, lookup h s.handles = some r ∧ r.isOpen = false) →
      exec i s = .next { s with ending := some (.err .notOpen) }) ∧
    (∀ r t, lookup h s.handles = some r → r.isOpen = true → exec i s = .next t →
      t.ending ≠ some (.err .notOpen))

/-- The handle table is written by OPEN, for the next id only, and by CLOSE, for its own handle only; the parameters are
written by nothing, and no operation touches the host's coming requests (10_state.md R20, 20_memory.md R65). -/
def Obligations.HandleTableWrittenOnlyByOpenAndClose : Prop :=
  ∀ (i : Instr) (s t : State), exec i s = .next t →
    t.config = s.config ∧ t.requests = s.requests ∧
    ((∀ bus addr, i ≠ .openHandle bus addr) → t.nextHandle = s.nextHandle ∧
      ∀ k, i ≠ .closeHandle k → lookup k t.handles = lookup k s.handles) ∧
    (∀ bus addr, i = .openHandle bus addr → ∀ k, k ≠ s.nextHandle → lookup k t.handles = lookup k s.handles)

/-- The frequency register is written by a PWM_SET_FREQ that ends in Ok, for its own handle, and by nothing else, and it is
read only by PWM_SET_PULSE_MS (43_pwm.md R179). The premise on the next id rules out states that no run reaches. -/
def Obligations.FrequencyWrittenOnlyBySetFreq : Prop :=
  ∀ (i : Instr) (s t : State), lookup s.nextHandle s.pwmFreq = none → exec i s = .next t →
    (∀ h f, i = .pwmSetFreq h f → t.ending = some (.ok .unit) →
      lookup h t.pwmFreq = some f ∧ ∀ k, k ≠ h → lookup k t.pwmFreq = lookup k s.pwmFreq) ∧
    ((∀ h f, i = .pwmSetFreq h f → t.ending ≠ some (.ok .unit)) →
      ∀ k, lookup k t.pwmFreq = lookup k s.pwmFreq) ∧
    ((∀ h ch ms, i ≠ .pwmSetPulseMs h ch ms) → ∀ table, ∃ t', exec i { s with pwmFreq := table } = .next t' ∧
      { t' with pwmFreq := t.pwmFreq } = t)

/-- An error rolls nothing back: the next state is the old one with the events played that the environment answered before the
error, each of them in the history, and with the error as ending; no handle, frequency or mark changes, and every handle is
open as before (40_transport.md R98). -/
def Obligations.ErrorsRollNothingBack : Prop :=
  ∀ (i : Instr) (s t : State) (e : Error), exec i s = .next t → t.ending = some (.err e) →
    (∃ es, environmentPlays s es = true ∧ t = (s.played es).ended (some (.err e))) ∧
    ∀ h, checkOpen t h = checkOpen s h

/-- Every transfer of an operation on a handle targets the pair the handle is bound to, whatever unit the operation belongs
to (20_memory.md R41). -/
def Obligations.TransfersTargetTheBoundPair : Prop :=
  ∀ (i : Instr) (h : HandleId) (r : HandleRec) (s t : State), handleOf i = some h →
    lookup h s.handles = some r → exec i s = .next t →
    ∃ es, t.history = s.history ++ es ∧ ∀ e ∈ es, boundTo h r e

/-! ## Transport -/

/-- OPEN (40_transport.md R91): the environment's three answers, and an address above 0x7F. -/
def Obligations.OpenBindsANewHandle : Prop :=
  ∀ (s : State) (bus : String) (addr : BusAddr),
    (answerOpen s bus addr = some .busFail → exec (.openHandle bus addr) s =
      .next { s with history := s.history ++ [.opened bus addr .busFail none], script := s.script.tail,
                     ending := some (.err .busOpenFailed) }) ∧
    (answerOpen s bus addr = some .selectFail → exec (.openHandle bus addr) s =
      .next { s with history := s.history ++ [.opened bus addr .selectFail none], script := s.script.tail,
                     ending := some (.err .addressSelectFailed) }) ∧
    (answerOpen s bus addr = some .ok → ∃ table freqs, exec (.openHandle bus addr) s =
      .next { s with history := s.history ++ [.opened bus addr .ok (some s.nextHandle)],
                     script := s.script.tail, nextHandle := s.nextHandle + 1, handles := table,
                     pwmFreq := freqs, ending := some (.ok (.handle s.nextHandle)) } ∧
      lookup s.nextHandle table = some { bus := bus, addr := addr, isOpen := true } ∧
      (∀ k, k ≠ s.nextHandle → lookup k table = lookup k s.handles) ∧
      lookup s.nextHandle freqs = none ∧
      ∀ k, k ≠ s.nextHandle → lookup k freqs = lookup k s.pwmFreq) ∧
    ∀ n : Nat, 0x7F < n → decode ⟨0x01, [.str bus, .num n]⟩ = .error .badOperand

/-- CLOSE (40_transport.md R96): no transfer; afterwards every operation on the handle, a second CLOSE among them, is NotOpen
unless a static check refuses it first, and so is a CLOSE of a closed or invalid handle. -/
def Obligations.CloseReleasesTheHandle : Prop :=
  ∀ (s : State) (h : HandleId),
    (∀ r, checkOpen s h = some r → ∃ table, exec (.closeHandle h) s =
      .next { s with handles := table, history := s.history ++ [.closed h], ending := some (.ok .unit) } ∧
      lookup h table = some { r with isOpen := false } ∧
      (∀ k, k ≠ h → lookup k table = lookup k s.handles) ∧
      ∀ (u : State) (i : Instr), u.handles = table → handleOf i = some h → i.wellFormed u.config = true →
        exec i u = .next { u with ending := some (.err .notOpen) }) ∧
    (checkOpen s h = none → exec (.closeHandle h) s = .next { s with ending := some (.err .notOpen) })

/-- READ_REG (40_transport.md R92): its results, its errors in the order checked, and the lengths refused. -/
def Obligations.ReadRegReturnsTheBytesRead : Prop :=
  ∀ (s : State) (h : HandleId) (reg len : Byte),
    (len ≠ 1 → len ≠ 2 → exec (.readReg h reg len) s =
      .next { s with refused := true, ending := some (.refused .badOperand) }) ∧
    (len = 1 ∨ len = 2 → checkOpen s h = none →
      exec (.readReg h reg len) s = .next { s with ending := some (.err .notOpen) }) ∧
    ∀ r, checkOpen s h = some r →
      (∀ b0, environmentPlays s (regRead h r reg [b0]) = true → exec (.readReg h reg 1) s =
        .next ((s.played (regRead h r reg [b0])).ended (some (.ok (.u8 b0))))) ∧
      (∀ b0 b1, environmentPlays s (regRead h r reg [b0, b1]) = true → exec (.readReg h reg 2) s =
        .next ((s.played (regRead h r reg [b0, b1])).ended
          (some (.ok (.u16 (BitVec.ofNat 16 (256 * b0.toNat + b1.toNat))))))) ∧
      (len = 1 ∨ len = 2 → environmentPlays s [wrote h r [reg] .fail] = true → exec (.readReg h reg len) s =
        .next ((s.played [wrote h r [reg] .fail]).ended (some (.err .writeFailed)))) ∧
      (len = 1 ∨ len = 2 →
        environmentPlays s [wrote h r [reg] .ok, readFails h r len.toNat] = true →
        exec (.readReg h reg len) s =
        .next ((s.played [wrote h r [reg] .ok, readFails h r len.toNat]).ended (some (.err .readFailed)))) ∧
      (∀ l, len = 1 ∨ len = 2 → l.length < len.toNat →
        environmentPlays s [wrote h r [reg] .ok, readBack h r len.toNat l] = true →
        exec (.readReg h reg len) s =
        .next ((s.played [wrote h r [reg] .ok, readBack h r len.toNat l]).ended (some (.err .shortRead))))

/-- READ_REG never returns a partial value: a value is returned only for a read of exactly as many bytes as requested, a read
answered with fewer, none among them, is ShortRead, and ReadFailed is reserved for a read reported as failed
(40_transport.md R93). -/
def Obligations.ReadNeverReturnsAPartialValue : Prop :=
  ∀ (s t : State) (h : HandleId) (r : HandleRec) (reg len : Byte), len = 1 ∨ len = 2 →
    checkOpen s h = some r → exec (.readReg h reg len) s = .next t →
    (∀ v, t.ending = some (.ok v) →
      ∃ l : List Byte, l.length = len.toNat ∧ t.history = s.history ++ regRead h r reg l) ∧
    (∀ es n l, t.history = s.history ++ es ++ [readBack h r n l] → l.length < n →
      t.ending = some (.err .shortRead)) ∧
    (t.ending = some (.err .readFailed) →
      t.history = s.history ++ [wrote h r [reg] .ok, readFails h r len.toNat])

/-- WRITE_REG (40_transport.md R94): one transfer, high byte first, the low byte alone with a length of 1. -/
def Obligations.WriteRegSendsOneFrame : Prop :=
  ∀ (s : State) (h : HandleId) (reg len : Byte) (value : Half),
    (len ≠ 1 → len ≠ 2 → exec (.writeReg h reg value len) s =
      .next { s with refused := true, ending := some (.refused .badOperand) }) ∧
    (len = 1 ∨ len = 2 → checkOpen s h = none →
      exec (.writeReg h reg value len) s = .next { s with ending := some (.err .notOpen) }) ∧
    (∀ n : Nat, 0xFFFF < n →
      decode ⟨0x04, [.num h, .num reg.toNat, .num n, .num len.toNat]⟩ = .error .badOperand) ∧
    ∀ (r : HandleRec) (hi lo : Byte), checkOpen s h = some r → value.toNat = 256 * hi.toNat + lo.toNat →
      (environmentPlays s [wrote h r [reg, lo] .ok] = true → exec (.writeReg h reg value 1) s =
        .next ((s.played [wrote h r [reg, lo] .ok]).ended (some (.ok .unit)))) ∧
      (environmentPlays s [wrote h r [reg, hi, lo] .ok] = true → exec (.writeReg h reg value 2) s =
        .next ((s.played [wrote h r [reg, hi, lo] .ok]).ended (some (.ok .unit)))) ∧
      (environmentPlays s [wrote h r [reg, lo] .fail] = true → exec (.writeReg h reg value 1) s =
        .next ((s.played [wrote h r [reg, lo] .fail]).ended (some (.err .writeFailed)))) ∧
      (environmentPlays s [wrote h r [reg, hi, lo] .fail] = true → exec (.writeReg h reg value 2) s =
        .next ((s.played [wrote h r [reg, hi, lo] .fail]).ended (some (.err .writeFailed))))

/-- WRITE_RAW (40_transport.md R95): the list as it is, in one transfer; an empty or over-long list is refused. -/
def Obligations.WriteRawSendsTheListUnchanged : Prop :=
  ∀ (s : State) (h : HandleId) (bytes : List Byte),
    ((bytes = [] ∨ ∃ m, s.config.maxRawLen = some m ∧ m < bytes.length) → exec (.writeRaw h bytes) s =
      .next { s with refused := true, ending := some (.refused .badOperand) }) ∧
    (bytes ≠ [] → (∀ m, s.config.maxRawLen = some m → bytes.length ≤ m) →
      (checkOpen s h = none → exec (.writeRaw h bytes) s = .next { s with ending := some (.err .notOpen) }) ∧
      ∀ r, checkOpen s h = some r →
        (environmentPlays s [wrote h r bytes .ok] = true → exec (.writeRaw h bytes) s =
          .next ((s.played [wrote h r bytes .ok]).ended (some (.ok .unit)))) ∧
        (environmentPlays s [wrote h r bytes .fail] = true → exec (.writeRaw h bytes) s =
          .next ((s.played [wrote h r bytes .fail]).ended (some (.err .writeFailed)))))

/-! ## Angle sensor -/

/-- AS_READ (41_angle.md R111): the value exactly as read, with the address and the length of the register's row (R110,
20_memory.md R47); in all else, errors and hangs among it, it is READ_REG of that register's address. BURN is refused. -/
def Obligations.AsReadReturnsTheRegisterAsRead : Prop :=
  ∀ (s : State) (h : HandleId) (r : HandleRec) (a : AngleReg) (addr : Byte),
    addr = (match a with
      | .zmco => s.config.asReg.zmco
      | .zpos => s.config.asReg.zpos
      | .mpos => s.config.asReg.mpos
      | .mang => s.config.asReg.mang
      | .conf => s.config.asReg.conf
      | .rawAngle => s.config.asReg.rawAngle
      | .angle => s.config.asReg.angle
      | .status => s.config.asReg.status
      | .agc => s.config.asReg.agc
      | .magnitude => s.config.asReg.magnitude
      | .burn => s.config.asReg.burn) →
    (exec (.asRead h .burn) s =
      .next { s with refused := true, ending := some (.refused .writeOnlyRegister) }) ∧
    (a ≠ .burn → exec (.asRead h a) s =
      exec (.readReg h addr (if a ∈ [AngleReg.zmco, .status, .agc] then 1 else 2)) s) ∧
    (checkOpen s h = some r → a ∈ [.zmco, .status, .agc] → ∀ b0,
      environmentPlays s (regRead h r addr [b0]) = true →
      exec (.asRead h a) s = .next ((s.played (regRead h r addr [b0])).ended (some (.ok (.u8 b0))))) ∧
    (checkOpen s h = some r → a ∈ [.zpos, .mpos, .mang, .conf, .rawAngle, .angle, .magnitude] → ∀ b0 b1,
      environmentPlays s (regRead h r addr [b0, b1]) = true →
      exec (.asRead h a) s =
        .next ((s.played (regRead h r addr [b0, b1])).ended
          (some (.ok (.u16 (BitVec.ofNat 16 (256 * b0.toNat + b1.toNat)))))))

/-- AS_WRITE (41_angle.md R112): the value as given, high byte first, to the address of the register's row (R110); the other
registers are refused. -/
def Obligations.AsWriteSendsTheValueAsGiven : Prop :=
  ∀ (s : State) (h : HandleId) (r : HandleRec) (a : AngleReg) (value : Half) (hi lo addr : Byte),
    value.toNat = 256 * hi.toNat + lo.toNat →
    (a ∉ [AngleReg.zpos, .mpos, .mang, .conf] → exec (.asWrite h a value) s =
      .next { s with refused := true, ending := some (.refused .readOnlyRegister) }) ∧
    ((a, addr) ∈ [(AngleReg.zpos, s.config.asReg.zpos), (.mpos, s.config.asReg.mpos),
        (.mang, s.config.asReg.mang), (.conf, s.config.asReg.conf)] →
      (checkOpen s h = none → exec (.asWrite h a value) s = .next { s with ending := some (.err .notOpen) }) ∧
      (checkOpen s h = some r →
        (environmentPlays s [wrote h r [addr, hi, lo] .ok] = true → exec (.asWrite h a value) s =
          .next ((s.played [wrote h r [addr, hi, lo] .ok]).ended (some (.ok .unit)))) ∧
        (environmentPlays s [wrote h r [addr, hi, lo] .fail] = true → exec (.asWrite h a value) s =
          .next ((s.played [wrote h r [addr, hi, lo] .fail]).ended (some (.err .writeFailed))))))

/-- AS_BURN (41_angle.md R113): one command byte to BURN, whatever ZMCO holds; no retry. -/
def Obligations.AsBurnSendsOneCommand : Prop :=
  ∀ (s : State) (h : HandleId) (r : HandleRec) (cmd : BurnCmd) (code : Byte),
    code = (match cmd with
      | .angle => s.config.burnAngleCmd
      | .setting => s.config.burnSettingCmd) →
    (checkOpen s h = none → exec (.asBurn h cmd) s = .next { s with ending := some (.err .notOpen) }) ∧
    (checkOpen s h = some r →
      (environmentPlays s [wrote h r [s.config.asReg.burn, code] .ok] = true → exec (.asBurn h cmd) s =
        .next ((s.played [wrote h r [s.config.asReg.burn, code] .ok]).ended (some (.ok .unit)))) ∧
      (environmentPlays s [wrote h r [s.config.asReg.burn, code] .fail] = true → exec (.asBurn h cmd) s =
        .next ((s.played [wrote h r [s.config.asReg.burn, code] .fail]).ended (some (.err .writeFailed)))))

/-- AS_MAXPOS (41_angle.md R114): the sum modulo 4096, in 0..4095. -/
def Obligations.AsMaxPosIsTheSumModulo4096 : Prop :=
  ∀ (s : State) (zeroPos range : Half), ∃ z : Int,
    exec (.asMaxPos zeroPos range) s = .next { s with ending := some (.ok (.int z)) } ∧
    0 ≤ z ∧ z ≤ 4095 ∧ ∃ k : Nat, (zeroPos.toNat : Int) + range.toNat = z + 4096 * k

/-- AS_RAW2DEG_I (41_angle.md R115) with either divisor, truncated toward zero, and AS_RAW2DEG_F (R116) as an exact
rational, rounded once where `FLOAT_FMT` is a binary format (00_scope.md R9; log entries 12 and 20). -/
def Obligations.RawToDegreesRescales : Prop :=
  ∀ (s : State) (raw zeroPos maxPos : Half),
    (s.config.angleIntDivisor = .literal → exec (.asRaw2DegI raw zeroPos maxPos) s =
      .next { s with ending := some (.ok (.int
        (Int.tdiv ((raw.toNat : Int) * ((maxPos.toNat : Int) - zeroPos.toNat)) 46603))) }) ∧
    (s.config.angleIntDivisor = .exact → exec (.asRaw2DegI raw zeroPos maxPos) s =
      .next { s with ending := some (.ok (.int
        (Int.tdiv ((raw.toNat : Int) * ((maxPos.toNat : Int) - zeroPos.toNat) * 360) (4096 * 4096)))) }) ∧
    ∃ v, Represents s.config ((raw.toNat : Rat) * ((maxPos.toNat : Rat) - zeroPos.toNat) * 360 / (4096 * 4096)) v ∧
      exec (.asRaw2DegF raw zeroPos maxPos) s = .next { s with ending := some (.ok v) }

/-- AS_DEG2RAW_I (41_angle.md R117), in -4084..4084, and AS_DEG2RAW_F (R118): the remainder keeps the sign of the operand;
the floating result is rounded once where `FLOAT_FMT` is a binary format (00_scope.md R9; log entries 12 and 20), and an
infinity or a NaN is refused. -/
def Obligations.DegreesToRawReducesFirst : Prop :=
  (∀ (s : State) (deg : Int), ∃ z : Int,
    exec (.asDeg2RawI deg) s = .next { s with ending := some (.ok (.int z)) } ∧
    z = Int.tdiv (4096 * Int.tmod deg 360) 360 ∧ -4084 ≤ z ∧ z ≤ 4084) ∧
  (∀ (s : State) (deg rest : Rat) (k : Int), deg = 360 * k + rest →
    (0 ≤ deg → 0 ≤ rest ∧ rest < 360) → (deg < 0 → -360 < rest ∧ rest ≤ 0) →
    ∃ v, Represents s.config (4096 * rest / 360) v ∧
      exec (.asDeg2RawF deg) s = .next { s with ending := some (.ok v) }) ∧
  ∀ x : NonFinite, decode ⟨0x17, [.nonFinite x]⟩ = .error .badOperand

/-- AS_STATUS_SCALE (41_angle.md R119): the five rows of the table, other bits ignored, and a draw from the five values where
both magnet-high and magnet-low are set (the form of the draw is log entry 11). -/
def Obligations.StatusScaleFollowsTheTable : Prop :=
  ∀ (s : State) (x : Byte) (mh ml md : Bool), mh = x.getLsbD s.config.mhBit →
    ml = x.getLsbD s.config.mlBit → md = x.getLsbD s.config.mdBit →
    (mh = true → ml = false → exec (.asStatusScale x) s =
      .next { s with ending := some (.ok (.int (if md then 1 else 2))) }) ∧
    (mh = false → ml = true → exec (.asStatusScale x) s =
      .next { s with ending := some (.ok (.int (if md then -1 else -2))) }) ∧
    (mh = false → ml = false → exec (.asStatusScale x) s =
      .next { s with ending := some (.ok (.int 0)) }) ∧
    (mh = true → ml = true → ∃ d : Int, -2 ≤ d ∧ d ≤ 2 ∧ exec (.asStatusScale x) s =
      .next { s with draws := s.draws + 1, ending := some (.ok (.int d)) })

/-- The full circle (95_test_vectors.md S1): the floating forms invert each other on 0..4095, where `FLOAT_FMT` is exact; the
integer forms lose at most 12 counts, under either divisor. -/
def Obligations.FullCircleRoundTrip : Prop :=
  ∀ (s : State) (raw : Half), raw.toNat ≤ 4095 →
    (s.config.floatFmt = .exact →
      ∃ q : Rat, exec (.asRaw2DegF raw 0 4096) s = .next { s with ending := some (.ok (.rat q)) } ∧
        exec (.asDeg2RawF q) s = .next { s with ending := some (.ok (.rat (raw.toNat : Rat))) }) ∧
    ∃ d z : Int, exec (.asRaw2DegI raw 0 4096) s = .next { s with ending := some (.ok (.int d)) } ∧
      exec (.asDeg2RawI d) s = .next { s with ending := some (.ok (.int z)) } ∧
      z ≤ raw.toNat ∧ (raw.toNat : Int) ≤ z + 12

/-! ## Inertial sensor -/

/-- IMU_INIT (42_imu.md R141): by read-modify-write it clears the sleep bit and keeps the others; where the read does not succeed
it ends as READ_REG of PWR_MGMT does, with no write; after the read it ends as WRITE_REG of that register does. Or it writes
zero, as WRITE_REG does. -/
def Obligations.ImuInitClearsTheSleepBit : Prop :=
  ∀ (s : State) (h : HandleId) (r : HandleRec) (v w : Byte),
    (s.config.imuInitMode = .rmw →
      (∀ t, exec (.readReg h s.config.imuReg.pwrMgmt 1) s = .next t → (∀ x, t.ending ≠ some (.ok x)) →
        exec (.imuInit h) s = .next t) ∧
      (checkOpen s h = some r → (∀ k, w.getLsbD k = (v.getLsbD k && decide (k ≠ s.config.imuSleepBit.val))) →
        environmentPlays s (regRead h r s.config.imuReg.pwrMgmt [v]) = true →
        exec (.imuInit h) s = exec (.writeReg h s.config.imuReg.pwrMgmt (w.setWidth 16) 1)
          (s.played (regRead h r s.config.imuReg.pwrMgmt [v])) ∧
        (environmentPlays s (regRead h r s.config.imuReg.pwrMgmt [v] ++
            [wrote h r [s.config.imuReg.pwrMgmt, w] .ok]) = true → exec (.imuInit h) s =
          .next ((s.played (regRead h r s.config.imuReg.pwrMgmt [v] ++
            [wrote h r [s.config.imuReg.pwrMgmt, w] .ok])).ended (some (.ok .unit)))))) ∧
    (s.config.imuInitMode = .writeZero →
      exec (.imuInit h) s = exec (.writeReg h s.config.imuReg.pwrMgmt 0 1) s)

/-- IMU_READ (42_imu.md R142): the value unsigned as read, one byte for a configuration register, two for a data register, with
the address of the register's row (R140, 20_memory.md R51); in all else, errors and hangs among it, it is READ_REG of that
register's address. -/
def Obligations.ImuReadReturnsTheRegisterAsRead : Prop :=
  ∀ (s : State) (h : HandleId) (r : HandleRec) (g : ImuReg) (addr : Byte),
    addr = (match g with
      | .pwrMgmt => s.config.imuReg.pwrMgmt
      | .accelConfig => s.config.imuReg.accelConfig
      | .gyroConfig => s.config.imuReg.gyroConfig
      | .dlpfConfig => s.config.imuReg.dlpfConfig
      | .accelX => s.config.imuReg.accelX
      | .accelY => s.config.imuReg.accelY
      | .accelZ => s.config.imuReg.accelZ
      | .temp => s.config.imuReg.temp
      | .gyroX => s.config.imuReg.gyroX
      | .gyroY => s.config.imuReg.gyroY
      | .gyroZ => s.config.imuReg.gyroZ) →
    (exec (.imuRead h g) s =
      exec (.readReg h addr (if g ∈ [ImuReg.pwrMgmt, .accelConfig, .gyroConfig, .dlpfConfig] then 1 else 2)) s) ∧
    (checkOpen s h = some r → g ∈ [.pwrMgmt, .accelConfig, .gyroConfig, .dlpfConfig] → ∀ b0,
      environmentPlays s (regRead h r addr [b0]) = true →
      exec (.imuRead h g) s = .next ((s.played (regRead h r addr [b0])).ended (some (.ok (.u8 b0))))) ∧
    (checkOpen s h = some r → g ∈ [.accelX, .accelY, .accelZ, .temp, .gyroX, .gyroY, .gyroZ] → ∀ b0 b1,
      environmentPlays s (regRead h r addr [b0, b1]) = true →
      exec (.imuRead h g) s = .next ((s.played (regRead h r addr [b0, b1])).ended
        (some (.ok (.u16 (BitVec.ofNat 16 (256 * b0.toNat + b1.toNat)))))))

/-- IMU_WRITE (42_imu.md R143): one byte to the address of a configuration register's row (R140); a data register is refused. -/
def Obligations.ImuWriteSendsOneByte : Prop :=
  ∀ (s : State) (h : HandleId) (r : HandleRec) (g : ImuReg) (value addr : Byte),
    (g ∉ [ImuReg.pwrMgmt, .accelConfig, .gyroConfig, .dlpfConfig] → exec (.imuWrite h g value) s =
      .next { s with refused := true, ending := some (.refused .readOnlyRegister) }) ∧
    ((g, addr) ∈ [(ImuReg.pwrMgmt, s.config.imuReg.pwrMgmt), (.accelConfig, s.config.imuReg.accelConfig),
        (.gyroConfig, s.config.imuReg.gyroConfig), (.dlpfConfig, s.config.imuReg.dlpfConfig)] →
      (checkOpen s h = none → exec (.imuWrite h g value) s = .next { s with ending := some (.err .notOpen) }) ∧
      (checkOpen s h = some r →
        (environmentPlays s [wrote h r [addr, value] .ok] = true → exec (.imuWrite h g value) s =
          .next ((s.played [wrote h r [addr, value] .ok]).ended (some (.ok .unit)))) ∧
        (environmentPlays s [wrote h r [addr, value] .fail] = true → exec (.imuWrite h g value) s =
          .next ((s.played [wrote h r [addr, value] .fail]).ended (some (.err .writeFailed))))))

/-- IMU_S16 (42_imu.md R145) is the two's-complement reading, and IMU_TEMP_C (R146) applies it; the temperature is rounded once
where `FLOAT_FMT` is a binary format (00_scope.md R9; log entries 12 and 20). -/
def Obligations.SignedDecodeAndTemperature : Prop :=
  ∀ (s : State) (x : Half) (z : Int),
    ((x.toNat < 0x8000 → z = x.toNat) ∧ (0x8000 ≤ x.toNat → z = (x.toNat : Int) - 0x10000)) →
    exec (.imuS16 x) s = .next { s with ending := some (.ok (.int z)) } ∧
    ∃ v, Represents s.config ((z : Rat) / 340 + 3653 / 100) v ∧
      exec (.imuTempC x) s = .next { s with ending := some (.ok v) }

/-- The range selector picks the scale factors (42_imu.md R147, R148) by the two-bit field of R144; other bits are
ignored. The gyroscope's factor is rounded once where `FLOAT_FMT` is a binary format (00_scope.md R9; log entries 12 and 20). -/
def Obligations.ScaleFactorsFollowTheSelector : Prop :=
  ∀ (s : State) (cfg : Byte) (k : Nat), k = cfg.toNat / 2 ^ s.config.rangeLo.val % 4 →
    exec (.imuAccelScale cfg) s =
      .next { s with ending := some (.ok (.int (([16384, 8192, 4096, 2048] : List Int).getD k 0))) } ∧
    ∃ v, Represents s.config (([131, 131 / 2, 164 / 5, 82 / 5] : List Rat).getD k 0) v ∧
      exec (.imuGyroScale cfg) s = .next { s with ending := some (.ok v) }

/-- IMU_ACCEL_CONV (42_imu.md R149) and IMU_GYRO_CONV (R150): the signed raw value over the selected factor, and gravity
where asked; rounded once, from the exact quotient or product, where `FLOAT_FMT` is a binary format (00_scope.md R9; log
entries 12 and 20). -/
def Obligations.ConversionsDivideByTheSelectedScale : Prop :=
  ∀ (s : State) (raw : Half) (cfg : Byte) (k : Nat), k = cfg.toNat / 2 ^ s.config.rangeLo.val % 4 →
    (∃ v, Represents s.config ((raw.toInt : Rat) / ([16384, 8192, 4096, 2048] : List Rat).getD k 0) v ∧
      exec (.imuAccelConv raw cfg false) s = .next { s with ending := some (.ok v) }) ∧
    (∃ v, Represents s.config
        ((raw.toInt : Rat) / ([16384, 8192, 4096, 2048] : List Rat).getD k 0 * (980665 / 100000)) v ∧
      exec (.imuAccelConv raw cfg true) s = .next { s with ending := some (.ok v) }) ∧
    ∃ v, Represents s.config ((raw.toInt : Rat) / ([131, 131 / 2, 164 / 5, 82 / 5] : List Rat).getD k 0) v ∧
      exec (.imuGyroConv raw cfg) s = .next { s with ending := some (.ok v) }

/-- IMU_READ_TEMP (42_imu.md R151): the signed register value over 340 plus 36.53, rounded once where `FLOAT_FMT` is a binary
format (00_scope.md R9; log entries 12 and 20); where the read does not succeed it ends as READ_REG of TEMP does, and no
temperature is computed. -/
def Obligations.ReadTempConvertsTheRegister : Prop :=
  ∀ (s : State) (h : HandleId),
    (∀ t, exec (.readReg h s.config.imuReg.temp 2) s = .next t → (∀ x, t.ending ≠ some (.ok x)) →
      exec (.imuReadTemp h) s = .next t) ∧
    ∀ (r : HandleRec) (b0 b1 : Byte), checkOpen s h = some r →
      environmentPlays s (regRead h r s.config.imuReg.temp [b0, b1]) = true →
      ∃ v, Represents s.config
          (((BitVec.ofNat 16 (256 * b0.toNat + b1.toNat)).toInt : Rat) / 340 + 3653 / 100) v ∧
        exec (.imuReadTemp h) s =
          .next ((s.played (regRead h r s.config.imuReg.temp [b0, b1])).ended (some (.ok v)))

/-- IMU_READ_ACCEL (42_imu.md R152): the axis, then the live range, then the conversion by the range as read, rounded once
where `FLOAT_FMT` is a binary format (00_scope.md R9; log entries 12 and 20); where the axis read does not succeed it ends as
READ_REG of the axis does, with no range read, and where the range read does not, as READ_REG of ACCEL_CONFIG does. -/
def Obligations.ReadAccelUsesTheLiveRange : Prop :=
  ∀ (s : State) (h : HandleId) (axis : Axis) (ms2 : Bool) (addr : Byte),
    addr = (match axis with
      | .x => s.config.imuReg.accelX
      | .y => s.config.imuReg.accelY
      | .z => s.config.imuReg.accelZ) →
    (∀ t, exec (.readReg h addr 2) s = .next t → (∀ x, t.ending ≠ some (.ok x)) →
      exec (.imuReadAccel h axis ms2) s = .next t) ∧
    ∀ (r : HandleRec) (b0 b1 : Byte), checkOpen s h = some r →
      environmentPlays s (regRead h r addr [b0, b1]) = true →
      (∀ t, exec (.readReg h s.config.imuReg.accelConfig 1) (s.played (regRead h r addr [b0, b1])) = .next t →
        (∀ x, t.ending ≠ some (.ok x)) → exec (.imuReadAccel h axis ms2) s = .next t) ∧
      ∀ (cfg : Byte) (k : Nat), k = cfg.toNat / 2 ^ s.config.rangeLo.val % 4 →
        environmentPlays s (regRead h r addr [b0, b1] ++ regRead h r s.config.imuReg.accelConfig [cfg]) = true →
        ∃ v, Represents s.config (((BitVec.ofNat 16 (256 * b0.toNat + b1.toNat)).toInt : Rat) /
            ([16384, 8192, 4096, 2048] : List Rat).getD k 0 * (if ms2 then 980665 / 100000 else 1)) v ∧
          exec (.imuReadAccel h axis ms2) s =
          .next ((s.played (regRead h r addr [b0, b1] ++ regRead h r s.config.imuReg.accelConfig [cfg])).ended
            (some (.ok v)))

/-- IMU_READ_GYRO (42_imu.md R153): as IMU_READ_ACCEL, with the live gyroscope range (log entries 10, 12 and 20). -/
def Obligations.ReadGyroUsesTheLiveRange : Prop :=
  ∀ (s : State) (h : HandleId) (axis : Axis) (addr : Byte),
    addr = (match axis with
      | .x => s.config.imuReg.gyroX
      | .y => s.config.imuReg.gyroY
      | .z => s.config.imuReg.gyroZ) →
    (∀ t, exec (.readReg h addr 2) s = .next t → (∀ x, t.ending ≠ some (.ok x)) →
      exec (.imuReadGyro h axis) s = .next t) ∧
    ∀ (r : HandleRec) (b0 b1 : Byte), checkOpen s h = some r →
      environmentPlays s (regRead h r addr [b0, b1]) = true →
      (∀ t, exec (.readReg h s.config.imuReg.gyroConfig 1) (s.played (regRead h r addr [b0, b1])) = .next t →
        (∀ x, t.ending ≠ some (.ok x)) → exec (.imuReadGyro h axis) s = .next t) ∧
      ∀ (cfg : Byte) (k : Nat), k = cfg.toNat / 2 ^ s.config.rangeLo.val % 4 →
        environmentPlays s (regRead h r addr [b0, b1] ++ regRead h r s.config.imuReg.gyroConfig [cfg]) = true →
        ∃ v, Represents s.config (((BitVec.ofNat 16 (256 * b0.toNat + b1.toNat)).toInt : Rat) /
            ([131, 131 / 2, 164 / 5, 82 / 5] : List Rat).getD k 0) v ∧
          exec (.imuReadGyro h axis) s =
          .next ((s.played (regRead h r addr [b0, b1] ++ regRead h r s.config.imuReg.gyroConfig [cfg])).ended
            (some (.ok v)))

/-- No partial success: an operation that converts a register value ends in a value only if every one of its register reads
succeeded with all its bytes (60_exceptions.md R202): IMU_READ_TEMP that of TEMP, IMU_READ_ACCEL those of its axis and of
ACCEL_CONFIG, IMU_READ_GYRO those of its axis and of GYRO_CONFIG. -/
def Obligations.NoValueFromAFailedRead : Prop :=
  ∀ (i : Instr) (h : HandleId) (r : HandleRec) (s t : State) (v : Value),
    checkOpen s h = some r → exec i s = .next t → t.ending = some (.ok v) →
    (i = .imuReadTemp h → ∃ b0 b1, t.history = s.history ++ regRead h r s.config.imuReg.temp [b0, b1]) ∧
    (∀ axis ms2, i = .imuReadAccel h axis ms2 → ∃ b0 b1 cfg,
      t.history = s.history ++ (regRead h r (match axis with
          | .x => s.config.imuReg.accelX
          | .y => s.config.imuReg.accelY
          | .z => s.config.imuReg.accelZ) [b0, b1] ++
        regRead h r s.config.imuReg.accelConfig [cfg])) ∧
    ∀ axis, i = .imuReadGyro h axis → ∃ b0 b1 cfg,
      t.history = s.history ++ (regRead h r (match axis with
          | .x => s.config.imuReg.gyroX
          | .y => s.config.imuReg.gyroY
          | .z => s.config.imuReg.gyroZ) [b0, b1] ++
        regRead h r s.config.imuReg.gyroConfig [cfg])

/-! ## PWM controller -/

/-- PWM_PRESCALE (43_pwm.md R171): the formula rounded to nearest, halves away from zero, with no check of the result;
a frequency that is not positive is refused. -/
def Obligations.PrescaleIsTheRoundedQuotient : Prop :=
  ∀ (s : State) (freq : Rat),
    (0 < freq → ∃ p : Int, roundsTo (390625 / (64 * freq) - 1) p ∧
      exec (.pwmPrescale freq) s = .next { s with ending := some (.ok (.int p)) }) ∧
    (freq ≤ 0 → exec (.pwmPrescale freq) s =
      .next { s with refused := true, ending := some (.refused .badOperand) })

/-- PWM_SET_FREQ (43_pwm.md R172): the seven events in order, and the frequency register; or a refusal, or NotOpen. -/
def Obligations.SetFreqRunsTheSequence : Prop :=
  ∀ (s : State) (h : HandleId) (freq : Rat),
    (freq ≤ 0 → exec (.pwmSetFreq h freq) s =
      .next { s with refused := true, ending := some (.refused .badOperand) }) ∧
    ∀ p : Int, 0 < freq → roundsTo (390625 / (64 * freq) - 1) p →
      (p < 0 ∨ 255 < p → exec (.pwmSetFreq h freq) s =
        .next { s with refused := true, ending := some (.refused .prescaleOutOfRange) }) ∧
      (0 ≤ p → p ≤ 255 →
        (checkOpen s h = none →
          exec (.pwmSetFreq h freq) s = .next { s with ending := some (.err .notOpen) }) ∧
        ∀ (r : HandleRec) (old b : Byte), checkOpen s h = some r → (b.toNat : Int) = p →
          environmentPlays s (setFreqEvents s.config h r old b) = true →
          ∃ table, exec (.pwmSetFreq h freq) s =
            .next { s.played (setFreqEvents s.config h r old b) with
                    pwmFreq := table, ending := some (.ok .unit) } ∧
          lookup h table = some freq ∧ ∀ k, k ≠ h → lookup k table = lookup k s.pwmFreq)

/-- The first error ends the frequency change, with no later event and the frequency register as before: where the read of MODE1
does not succeed it ends as READ_REG of MODE1 does, and a write that fails is its last event (43_pwm.md R172,
70_reset_and_hazards.md R229). -/
def Obligations.SetFreqStopsAtTheFirstError : Prop :=
  ∀ (s : State) (h : HandleId) (freq : Rat) (p : Int) (b : Byte),
    0 < freq → roundsTo (390625 / (64 * freq) - 1) p → (b.toNat : Int) = p →
    (∀ t, exec (.readReg h s.config.pwmReg.mode1 1) s = .next t → (∀ x, t.ending ≠ some (.ok x)) →
      exec (.pwmSetFreq h freq) s = .next t) ∧
    ∀ (r : HandleRec) (old : Byte) (k : Nat) (e : Event), checkOpen s h = some r →
    (setFreqEvents s.config h r old b)[k]? = some e → isWrite e = true →
    environmentPlays s ((setFreqEvents s.config h r old b).take k ++ [refusedByBus e]) = true →
    exec (.pwmSetFreq h freq) s =
      .next ((s.played ((setFreqEvents s.config h r old b).take k ++ [refusedByBus e])).ended
        (some (.err .writeFailed)))

/-- PRESCALE is never written while awake: in whatever PWM_SET_FREQ sends, however it ends, a write of PRESCALE stands
directly after an acknowledged write of MODE1 with the sleep bits set (43_pwm.md R173, 70_reset_and_hazards.md R229). The
premise says the two registers have different addresses. -/
def Obligations.PrescaleWrittenOnlyAfterSleep : Prop :=
  ∀ (s t : State) (h : HandleId) (r : HandleRec) (freq : Rat) (es pre post : List Event) (v : Byte)
    (a : WriteAnswer),
    s.config.pwmReg.prescale ≠ s.config.pwmReg.mode1 → checkOpen s h = some r →
    exec (.pwmSetFreq h freq) s = .next t → t.history = s.history ++ es →
    es = pre ++ wrote h r [s.config.pwmReg.prescale, v] a :: post →
    ∃ before old, pre = before ++ [wrote h r [s.config.pwmReg.mode1, old ||| s.config.sleep] .ok]

/-- Under the default parameters (log entry 9), no operation but PWM_SET_FREQ and the raw register writes sends a write of
PRESCALE or one of MODE1 with the sleep bit (43_pwm.md R173). -/
def Obligations.NoOtherOperationWritesPrescale : Prop :=
  ∀ (i : Instr) (s t : State) (es : List Event), s.config = Config.default →
    (∀ h f, i ≠ .pwmSetFreq h f) → (∀ h reg v l, i ≠ .writeReg h reg v l) → (∀ h l, i ≠ .writeRaw h l) →
    exec i s = .next t → t.history = s.history ++ es →
    ∀ e ∈ es, ∀ h bus addr v rest a, e = .wrote h bus addr (v :: rest) a → rest ≠ [] →
      v ≠ 0xFE ∧ (v = 0x00 → ∃ b, rest = [b] ∧ b.getLsbD 4 = false)

/-- PWM_SET_CHANNEL (43_pwm.md R174): the four registers of the channel, low byte before high, on before off; the checks come
first, the channel before the ticks. A register's address is the base plus 4 times the channel (20_memory.md R57); where that
is no register address, the byte is a free value (log entry 13). -/
def Obligations.SetChannelWritesFourRegisters : Prop :=
  (∀ (base : Byte) (ch : Nat), base.toNat + 4 * ch ≤ 0xFF →
    (channelAddr base ch).toNat = base.toNat + 4 * ch) ∧
  ∀ (s : State) (h : HandleId) (ch : Nat) (on off : Int),
    (s.config.numChannels ≤ ch → exec (.pwmSetChannel h ch on off) s =
      .next { s with refused := true, ending := some (.refused .channelOutOfRange) }) ∧
    (ch < s.config.numChannels →
      (on < 0 ∨ 4095 < on ∨ off < 0 ∨ 4095 < off → exec (.pwmSetChannel h ch on off) s =
        .next { s with refused := true, ending := some (.refused .tickOutOfRange) }) ∧
      (0 ≤ on → on ≤ 4095 → 0 ≤ off → off ≤ 4095 →
        (checkOpen s h = none →
          exec (.pwmSetChannel h ch on off) s = .next { s with ending := some (.err .notOpen) }) ∧
        ∀ (r : HandleRec) (a0 a1 a2 a3 onL onH offL offH : Byte) (es : List Event),
          checkOpen s h = some r →
          a0 = channelAddr s.config.pwmReg.led0OnL ch → a1 = channelAddr s.config.pwmReg.led0OnH ch →
          a2 = channelAddr s.config.pwmReg.led0OffL ch → a3 = channelAddr s.config.pwmReg.led0OffH ch →
          on = 256 * onH.toNat + onL.toNat → off = 256 * offH.toNat + offL.toNat →
          es = wroteAll h r [(a0, onL), (a1, onH), (a2, offL), (a3, offH)] →
          environmentPlays s es = true →
          exec (.pwmSetChannel h ch on off) s = .next ((s.played es).ended (some (.ok .unit)))))

/-- PWM_SET_ALL (43_pwm.md R175): the broadcast block. -/
def Obligations.SetAllWritesTheBroadcastBlock : Prop :=
  ∀ (s : State) (h : HandleId) (on off : Int),
    (on < 0 ∨ 4095 < on ∨ off < 0 ∨ 4095 < off → exec (.pwmSetAll h on off) s =
      .next { s with refused := true, ending := some (.refused .tickOutOfRange) }) ∧
    (0 ≤ on → on ≤ 4095 → 0 ≤ off → off ≤ 4095 →
      (checkOpen s h = none → exec (.pwmSetAll h on off) s = .next { s with ending := some (.err .notOpen) }) ∧
      ∀ (r : HandleRec) (onL onH offL offH : Byte) (es : List Event), checkOpen s h = some r →
        on = 256 * onH.toNat + onL.toNat → off = 256 * offH.toNat + offL.toNat →
        es = wroteAll h r [(s.config.pwmReg.allOnL, onL), (s.config.pwmReg.allOnH, onH),
          (s.config.pwmReg.allOffL, offL), (s.config.pwmReg.allOffH, offH)] →
        environmentPlays s es = true →
        exec (.pwmSetAll h on off) s = .next ((s.played es).ended (some (.ok .unit))))

/-- PWM_SET_CHANNEL, PWM_SET_ALL and PWM_SET_PULSE_MS stop at the first of their four writes that fails, leaving the earlier
ones performed and nothing undone (70_reset_and_hazards.md R230). -/
def Obligations.PartlyWrittenChannelIsLeftAsItIs : Prop :=
  ∀ (s : State) (h : HandleId) (r : HandleRec) (ch k : Nat) (on off : Int) (ms freq : Rat) (e : Event),
    checkOpen s h = some r → ch < s.config.numChannels → 0 ≤ on → on ≤ 4095 → 0 ≤ off → off ≤ 4095 →
    ((wroteAll h r (channelBytes s.config.pwmReg ch on off))[k]? = some e →
      environmentPlays s ((wroteAll h r (channelBytes s.config.pwmReg ch on off)).take k ++
        [refusedByBus e]) = true →
      exec (.pwmSetChannel h ch on off) s =
        .next ((s.played ((wroteAll h r (channelBytes s.config.pwmReg ch on off)).take k ++
          [refusedByBus e])).ended (some (.err .writeFailed)))) ∧
    ((wroteAll h r (allChannelBytes s.config.pwmReg on off))[k]? = some e →
      environmentPlays s ((wroteAll h r (allChannelBytes s.config.pwmReg on off)).take k ++
        [refusedByBus e]) = true →
      exec (.pwmSetAll h on off) s =
        .next ((s.played ((wroteAll h r (allChannelBytes s.config.pwmReg on off)).take k ++
          [refusedByBus e])).ended (some (.err .writeFailed)))) ∧
    (lookup h s.pwmFreq = some freq → roundsTo (ms * 4096 * freq / 1000) off →
      (wroteAll h r (channelBytes s.config.pwmReg ch 0 off))[k]? = some e →
      environmentPlays s ((wroteAll h r (channelBytes s.config.pwmReg ch 0 off)).take k ++
        [refusedByBus e]) = true →
      exec (.pwmSetPulseMs h ch ms) s =
        .next ((s.played ((wroteAll h r (channelBytes s.config.pwmReg ch 0 off)).take k ++
          [refusedByBus e])).ended (some (.err .writeFailed))))

/-- PWM_TICKS_MS (43_pwm.md R176): `round(ms * bitsPerMs)` with `bitsPerMs = 4096 / (1000 / freq)`, not range-checked; a
frequency that is not positive is refused. -/
def Obligations.TicksAreTheRoundedProduct : Prop :=
  ∀ (s : State) (ms freq : Rat),
    (0 < freq → ∃ p : Int, roundsTo (ms * (4096 / (1000 / freq))) p ∧
      exec (.pwmTicksMs ms freq) s = .next { s with ending := some (.ok (.int p)) }) ∧
    (freq ≤ 0 → exec (.pwmTicksMs ms freq) s =
      .next { s with refused := true, ending := some (.refused .badOperand) })

/-- PWM_SET_PULSE_MS (43_pwm.md R177): the checks in the order channel, handle, frequency, ticks; then the four registers with
`on = 0` and the ticks of the stored frequency. -/
def Obligations.SetPulseWritesALeadingEdgePulse : Prop :=
  ∀ (s : State) (h : HandleId) (ch : Nat) (ms : Rat),
    (s.config.numChannels ≤ ch → exec (.pwmSetPulseMs h ch ms) s =
      .next { s with refused := true, ending := some (.refused .channelOutOfRange) }) ∧
    (ch < s.config.numChannels →
      (checkOpen s h = none → exec (.pwmSetPulseMs h ch ms) s = .next { s with ending := some (.err .notOpen) }) ∧
      ∀ r, checkOpen s h = some r →
        (lookup h s.pwmFreq = none → exec (.pwmSetPulseMs h ch ms) s =
          .next { s with faulted := true, ending := some (.faulted .frequencyUnset) }) ∧
        ∀ (f : Rat) (off : Int), lookup h s.pwmFreq = some f → roundsTo (ms * 4096 * f / 1000) off →
          (off < 0 ∨ 4095 < off → exec (.pwmSetPulseMs h ch ms) s =
            .next { s with refused := true, ending := some (.refused .tickOutOfRange) }) ∧
          (0 ≤ off → off ≤ 4095 → ∀ (a0 a1 a2 a3 offL offH : Byte) (es : List Event),
            a0 = channelAddr s.config.pwmReg.led0OnL ch → a1 = channelAddr s.config.pwmReg.led0OnH ch →
            a2 = channelAddr s.config.pwmReg.led0OffL ch → a3 = channelAddr s.config.pwmReg.led0OffH ch →
            off = 256 * offH.toNat + offL.toNat →
            es = wroteAll h r [(a0, 0), (a1, 0), (a2, offL), (a3, offH)] →
            environmentPlays s es = true →
            exec (.pwmSetPulseMs h ch ms) s = .next ((s.played es).ended (some (.ok .unit)))))

/-- PWM_BRINGUP (43_pwm.md R178): silence all channels, enable the drivers, all-call, wait, clear the sleep bits, wait. The first
error ends the sequence, so that the order (70_reset_and_hazards.md R224) holds however it ends: a write that fails is its
last event, and where the read of MODE1 does not succeed it ends, behind the seven events before that read, as READ_REG of
MODE1 does. -/
def Obligations.BringupSilencesBeforeEnabling : Prop :=
  ∀ (s : State) (h : HandleId),
    (checkOpen s h = none → exec (.pwmBringup h) s = .next { s with ending := some (.err .notOpen) }) ∧
    ∀ (r : HandleRec) (m : Byte) (silence rest : List Event), checkOpen s h = some r →
      silence = wroteAll h r [(s.config.pwmReg.allOnL, 0), (s.config.pwmReg.allOnH, 0),
          (s.config.pwmReg.allOffL, 0), (s.config.pwmReg.allOffH, 0),
          (s.config.pwmReg.mode2, s.config.outdrv), (s.config.pwmReg.mode1, s.config.allcall)] ++
        [.delayed h s.config.tPwmBringupSettle] →
      rest = regRead h r s.config.pwmReg.mode1 [m] ++
        [wrote h r [s.config.pwmReg.mode1, m &&& ~~~s.config.sleep] .ok,
         .delayed h s.config.tPwmBringupSettle] →
      (environmentPlays s (silence ++ rest) = true →
        exec (.pwmBringup h) s = .next ((s.played (silence ++ rest)).ended (some (.ok .unit)))) ∧
      (∀ (k : Nat) (e : Event), (silence ++ rest)[k]? = some e → isWrite e = true →
        environmentPlays s ((silence ++ rest).take k ++ [refusedByBus e]) = true →
        exec (.pwmBringup h) s =
          .next ((s.played ((silence ++ rest).take k ++ [refusedByBus e])).ended (some (.err .writeFailed)))) ∧
      (environmentPlays s silence = true →
        ∀ t, exec (.readReg h s.config.pwmReg.mode1 1) (s.played silence) = .next t →
          (∀ x, t.ending ≠ some (.ok x)) → exec (.pwmBringup h) s = .next t)

/-! ## Reset and invariants -/

/-- Reset (70_reset_and_hazards.md R220): no handle, the next id 0, no frequency, an empty history, no mark. -/
def Obligations.ResetLeavesAnEmptyBlock : Prop :=
  (∀ h, lookup h State.reset.handles = none) ∧ State.reset.nextHandle = 0 ∧
  (∀ h, lookup h State.reset.pwmFreq = none) ∧ State.reset.history = [] ∧
  State.reset.refused = false ∧ State.reset.faulted = false

/-- The state after reset meets the three invariants, under any parameters. -/
def Obligations.ResetMeetsTheInvariants : Prop :=
  ∀ c : Config, TablesInv (State.resetWith c) ∧ HistoryInv (State.resetWith c) ∧ CloseInv (State.resetWith c)

/-- Every step keeps the tables in canonical form, with exactly the issued ids in the handle table and only frequencies that
PWM_SET_FREQ accepts in the frequency table. -/
def Obligations.StepKeepsTheTables : Prop :=
  ∀ s t : State, TablesInv s → step s = .next t → TablesInv t

/-- Every step keeps the history in agreement with the handle table: each recorded transfer went to the pair its handle is
bound to, and no read got more bytes than it asked for. -/
def Obligations.StepKeepsTheHistoryBound : Prop :=
  ∀ s t : State, HistoryInv s → step s = .next t → HistoryInv t

/-- Every step keeps closed handles closed and silent: no event of a handle after its close, and a handle closed exactly when
its close is recorded (10_state.md R23, 70_reset_and_hazards.md R225); a closed entry stays as it is, and what stands in the
history stays there, so a handle once closed is closed for ever (10_state.md R22, R25). -/
def Obligations.StepKeepsClosedHandlesSilent : Prop :=
  ∀ s t : State, CloseInv s → step s = .next t →
    CloseInv t ∧
    (∀ h r, lookup h s.handles = some r → r.isOpen = false → lookup h t.handles = some r) ∧
    ∃ es, t.history = s.history ++ es

/-! ## Transfers of the PWM controller that are never answered -/

/-- Any transfer of a PWM operation may be the one that is never answered: the operation then has no end, the events before that
transfer stand in the history, and nothing is appended for it (60_exceptions.md R208, 70_reset_and_hazards.md R231). The
premise lists the events of each operation as its own statement gives them. -/
def Obligations.UnansweredPwmTransferBlocksTheBlock : Prop :=
  ∀ (s : State) (i : Instr) (h : HandleId) (r : HandleRec) (es : List Event) (k : Nat), checkOpen s h = some r →
    ((∃ ch on off, i = .pwmSetChannel h ch on off ∧ i.wellFormed s.config = true ∧
        es = wroteAll h r (channelBytes s.config.pwmReg ch on off)) ∨
      (∃ on off, i = .pwmSetAll h on off ∧ i.wellFormed s.config = true ∧
        es = wroteAll h r (allChannelBytes s.config.pwmReg on off)) ∨
      (∃ ch ms freq off, i = .pwmSetPulseMs h ch ms ∧ i.wellFormed s.config = true ∧
        lookup h s.pwmFreq = some freq ∧ roundsTo (ms * 4096 * freq / 1000) off ∧ 0 ≤ off ∧ off ≤ 4095 ∧
        es = wroteAll h r (channelBytes s.config.pwmReg ch 0 off)) ∨
      (∃ freq p old, i = .pwmSetFreq h freq ∧ i.wellFormed s.config = true ∧
        roundsTo (390625 / (64 * freq) - 1) ((p : Byte).toNat : Int) ∧
        es = setFreqEvents s.config h r old p) ∨
      ∃ m, i = .pwmBringup h ∧ es = bringupEvents s.config h r m) →
    environmentPlays s (es.take k) = true →
    (∀ bytes, es[k]? = some (wrote h r bytes .ok) →
      answerWrite (s.played (es.take k)) r.bus r.addr bytes = none → exec i s =
        .next { s.played (es.take k) with
                script := (s.played (es.take k)).script.tail, hung := some (.write h bytes), ending := none }) ∧
    ∀ n l, es[k]? = some (readBack h r n l) →
      answerRead (s.played (es.take k)) r.bus r.addr n = none → exec i s =
        .next { s.played (es.take k) with
                script := (s.played (es.take k)).script.tail, hung := some (.read h n), ending := none }
end

