-- ==== Sys2Proof/Laws/Decode.lean ====
section
/-! SUPPORT. What the operand readers of the decoder answer on an encoded operand, and which operand each answer came
from: the two halves of the encoding round trip. -/

namespace Sys2Proof

/-! ## Reading an encoded operand -/

@[simp] theorem asInt_int (z : Int) : (Operand.num (z : Rat)).asInt = some z := by simp [Operand.asInt]

@[simp] theorem asInt_intOp (z : Int) : (intOperand z).asInt = some z := by simp [intOperand]

@[simp] theorem asNat_natOp (n : Nat) : (natOperand n).asNat = some n := by
  simp [natOperand, Operand.asNat, Operand.asInt]

@[simp] theorem asBits_bitsOp {w} (b : BitVec w) : (bitsOperand b).asBits w = some b := by
  simp [bitsOperand, Operand.asBits, b.isLt]

@[simp] theorem asByte_byteElement (b : Byte) : (byteElement b).asByte = some b := asBits_bitsOp b

@[simp] theorem bytesOf_map (l : List Byte) : bytesOf (l.map byteElement) = some l := by
  induction l with
  | nil => rfl
  | cons b l ih => simp [bytesOf, ih]

/-! ## Where an answer came from -/

theorem asInt_inv {o : Operand} {z} (h : o.asInt = some z) : o = intOperand z := by
  cases o <;> simp [Operand.asInt] at h
  obtain ⟨h1, h2⟩ := h
  rename_i q
  simp only [intOperand]
  congr 1
  rw [← h2]
  exact (Rat.den_eq_one_iff q).1 h1 |>.symm

theorem asNat_inv {o : Operand} {n} (h : o.asNat = some n) : o = natOperand n := by
  unfold Operand.asNat at h
  cases hz : o.asInt with
  | none => simp [hz] at h
  | some z =>
    simp [hz] at h
    rw [asInt_inv hz]
    simp [natOperand, intOperand]
    rw [← h.2]
    exact_mod_cast congrArg (fun x : Int => (x : Rat)) (Int.toNat_of_nonneg h.1).symm

theorem asBits_inv {w} {o : Operand} {b : BitVec w} (h : o.asBits w = some b) : o = bitsOperand b := by
  unfold Operand.asBits at h
  cases hz : o.asNat with
  | none => simp [hz] at h
  | some z =>
    simp [hz] at h
    rw [asNat_inv hz, bitsOperand, ← h.2]
    simp [Nat.mod_eq_of_lt h.1]

theorem asStr_inv {o : Operand} {b} (h : o.asStr = some b) : o = .str b := by cases o <;> simp_all [Operand.asStr]

theorem asBool_inv {o : Operand} {b} (h : o.asBool = some b) : o = .bool b := by cases o <;> simp_all [Operand.asBool]

theorem asRat_inv {o : Operand} {b} (h : o.asRat = some b) : o = .num b := by cases o <;> simp_all [Operand.asRat]

theorem asAreg_inv {o : Operand} {b} (h : o.asAreg = some b) : o = .areg b := by cases o <;> simp_all [Operand.asAreg]

theorem asIreg_inv {o : Operand} {b} (h : o.asIreg = some b) : o = .ireg b := by cases o <;> simp_all [Operand.asIreg]

theorem asAxis_inv {o : Operand} {b} (h : o.asAxis = some b) : o = .axis b := by cases o <;> simp_all [Operand.asAxis]

theorem asCmd_inv {o : Operand} {b} (h : o.asCmd = some b) : o = .cmd b := by cases o <;> simp_all [Operand.asCmd]

theorem asByte_inv {x : Element} {b} (h : x.asByte = some b) : x = byteElement b := by
  cases x with
  | num q => simpa [bitsOperand, natOperand, byteElement] using asBits_inv h
  | other s => simp [Element.asByte] at h

theorem bytesOf_inv {l : List Element} {m} (h : bytesOf l = some m) : l = m.map byteElement := by
  induction l generalizing m with
  | nil => simp [bytesOf] at h; simp [← h]
  | cons x l ih =>
    simp only [bytesOf] at h
    split at h
    · rename_i b l' hb hl
      simp only [Option.some.injEq] at h
      subst h
      rw [asByte_inv hb, ih hl, List.map_cons]
    · simp at h

theorem asBytes_inv {o : Operand} {b} (h : o.asBytes = some b) : o = .bytes (b.map byteElement) := by
  cases o <;> simp [Operand.asBytes] at h
  rw [bytesOf_inv h]

/-- A byte list with one element that is no `u8` is outside its type. -/
theorem bytesOf_none {l : List Element} {x} (hx : x ∈ l) (h : x.asByte = none) : bytesOf l = none := by
  induction hx with
  | head => simp [bytesOf, h]
  | tail _ _ ih => simp [bytesOf, ih]

theorem one_inv {α} {f : Operand → Option α} {l x} (h : oneOperand f l = some x) : ∃ a, l = [a] ∧ f a = some x := by
  unfold oneOperand at h; split at h <;> simp_all

theorem two_inv {α β} {f : Operand → Option α} {g : Operand → Option β} {l x} (h : twoOperands f g l = some x) : ∃ a b, l = [a, b] ∧ f a = some x.1 ∧ g b = some x.2 := by
  unfold twoOperands at h; split at h
  · split at h <;> simp_all
    subst h; simp
  · simp at h

theorem three_inv {α β γ} {f : Operand → Option α} {g : Operand → Option β} {k : Operand → Option γ} {l x} (h : threeOperands f g k l = some x) : ∃ a b c, l = [a, b, c] ∧ f a = some x.1 ∧ g b = some x.2.1 ∧ k c = some x.2.2 := by
  unfold threeOperands at h; split at h
  · split at h <;> simp_all
    subst h; simp
  · simp at h

theorem four_inv {α β γ δ} {f : Operand → Option α} {g : Operand → Option β} {k : Operand → Option γ} {m : Operand → Option δ} {l x} (h : fourOperands f g k m l = some x) : ∃ a b c d, l = [a, b, c, d] ∧ f a = some x.1 ∧ g b = some x.2.1 ∧ k c = some x.2.2.1 ∧ m d = some x.2.2.2 := by
  unfold fourOperands at h; split at h
  · split at h <;> simp_all
    subst h; simp
  · simp at h

end Sys2Proof
end

