-- ==== Sys2Proof/Laws/State.lean ====
section
/-! SUPPORT. Each field of the state under each named update. -/

namespace Sys2Proof.Machine

variable (s : State)

@[simp] theorem record_config (e : Event) : (s.record e).config = s.config := rfl
@[simp] theorem record_handles (e : Event) : (s.record e).handles = s.handles := rfl
@[simp] theorem record_nextHandle (e : Event) : (s.record e).nextHandle = s.nextHandle := rfl
@[simp] theorem record_pwmFreq (e : Event) : (s.record e).pwmFreq = s.pwmFreq := rfl
@[simp] theorem record_history (e : Event) : (s.record e).history = s.history ++ [e] := rfl
@[simp] theorem record_refused (e : Event) : (s.record e).refused = s.refused := rfl
@[simp] theorem record_faulted (e : Event) : (s.record e).faulted = s.faulted := rfl
@[simp] theorem record_requests (e : Event) : (s.record e).requests = s.requests := rfl
@[simp] theorem record_script (e : Event) : (s.record e).script = s.script := rfl
@[simp] theorem record_ending (e : Event) : (s.record e).ending = s.ending := rfl
@[simp] theorem record_hung (e : Event) : (s.record e).hung = s.hung := rfl
@[simp] theorem record_draws (e : Event) : (s.record e).draws = s.draws := rfl

@[simp] theorem answered_config (e : Event) : (s.answered e).config = s.config := rfl
@[simp] theorem answered_handles (e : Event) : (s.answered e).handles = s.handles := rfl
@[simp] theorem answered_nextHandle (e : Event) : (s.answered e).nextHandle = s.nextHandle := rfl
@[simp] theorem answered_pwmFreq (e : Event) : (s.answered e).pwmFreq = s.pwmFreq := rfl
@[simp] theorem answered_history (e : Event) : (s.answered e).history = s.history ++ [e] := rfl
@[simp] theorem answered_refused (e : Event) : (s.answered e).refused = s.refused := rfl
@[simp] theorem answered_faulted (e : Event) : (s.answered e).faulted = s.faulted := rfl
@[simp] theorem answered_requests (e : Event) : (s.answered e).requests = s.requests := rfl
@[simp] theorem answered_script (e : Event) : (s.answered e).script = s.script.tail := rfl
@[simp] theorem answered_ending (e : Event) : (s.answered e).ending = s.ending := rfl
@[simp] theorem answered_hung (e : Event) : (s.answered e).hung = s.hung := rfl
@[simp] theorem answered_draws (e : Event) : (s.answered e).draws = s.draws := rfl

@[simp] theorem blockedOn_config (t : Transfer) : (s.blockedOn t).config = s.config := rfl
@[simp] theorem blockedOn_handles (t : Transfer) : (s.blockedOn t).handles = s.handles := rfl
@[simp] theorem blockedOn_nextHandle (t : Transfer) : (s.blockedOn t).nextHandle = s.nextHandle := rfl
@[simp] theorem blockedOn_pwmFreq (t : Transfer) : (s.blockedOn t).pwmFreq = s.pwmFreq := rfl
@[simp] theorem blockedOn_history (t : Transfer) : (s.blockedOn t).history = s.history := rfl
@[simp] theorem blockedOn_refused (t : Transfer) : (s.blockedOn t).refused = s.refused := rfl
@[simp] theorem blockedOn_faulted (t : Transfer) : (s.blockedOn t).faulted = s.faulted := rfl
@[simp] theorem blockedOn_requests (t : Transfer) : (s.blockedOn t).requests = s.requests := rfl
@[simp] theorem blockedOn_script (t : Transfer) : (s.blockedOn t).script = s.script.tail := rfl
@[simp] theorem blockedOn_ending (t : Transfer) : (s.blockedOn t).ending = s.ending := rfl
@[simp] theorem blockedOn_hung (t : Transfer) : (s.blockedOn t).hung = some t := rfl
@[simp] theorem blockedOn_draws (t : Transfer) : (s.blockedOn t).draws = s.draws := rfl

@[simp] theorem ended_config (e : Option Ending) : (s.ended e).config = s.config := rfl
@[simp] theorem ended_handles (e : Option Ending) : (s.ended e).handles = s.handles := rfl
@[simp] theorem ended_nextHandle (e : Option Ending) : (s.ended e).nextHandle = s.nextHandle := rfl
@[simp] theorem ended_pwmFreq (e : Option Ending) : (s.ended e).pwmFreq = s.pwmFreq := rfl
@[simp] theorem ended_history (e : Option Ending) : (s.ended e).history = s.history := rfl
@[simp] theorem ended_refused (e : Option Ending) : (s.ended e).refused = s.refused := rfl
@[simp] theorem ended_faulted (e : Option Ending) : (s.ended e).faulted = s.faulted := rfl
@[simp] theorem ended_requests (e : Option Ending) : (s.ended e).requests = s.requests := rfl
@[simp] theorem ended_script (e : Option Ending) : (s.ended e).script = s.script := rfl
@[simp] theorem ended_ending (e : Option Ending) : (s.ended e).ending = e := rfl
@[simp] theorem ended_hung (e : Option Ending) : (s.ended e).hung = s.hung := rfl
@[simp] theorem ended_draws (e : Option Ending) : (s.ended e).draws = s.draws := rfl

@[simp] theorem bindHandle_config (b : String) (a : BusAddr) : (s.bindHandle b a).config = s.config := rfl
@[simp] theorem bindHandle_handles (b : String) (a : BusAddr) : (s.bindHandle b a).handles = insert s.nextHandle { bus := b, addr := a, isOpen := true } s.handles := rfl
@[simp] theorem bindHandle_nextHandle (b : String) (a : BusAddr) : (s.bindHandle b a).nextHandle = s.nextHandle + 1 := rfl
@[simp] theorem bindHandle_pwmFreq (b : String) (a : BusAddr) : (s.bindHandle b a).pwmFreq = erase s.nextHandle s.pwmFreq := rfl
@[simp] theorem bindHandle_history (b : String) (a : BusAddr) : (s.bindHandle b a).history = s.history := rfl
@[simp] theorem bindHandle_refused (b : String) (a : BusAddr) : (s.bindHandle b a).refused = s.refused := rfl
@[simp] theorem bindHandle_faulted (b : String) (a : BusAddr) : (s.bindHandle b a).faulted = s.faulted := rfl
@[simp] theorem bindHandle_requests (b : String) (a : BusAddr) : (s.bindHandle b a).requests = s.requests := rfl
@[simp] theorem bindHandle_script (b : String) (a : BusAddr) : (s.bindHandle b a).script = s.script := rfl
@[simp] theorem bindHandle_ending (b : String) (a : BusAddr) : (s.bindHandle b a).ending = s.ending := rfl
@[simp] theorem bindHandle_hung (b : String) (a : BusAddr) : (s.bindHandle b a).hung = s.hung := rfl
@[simp] theorem bindHandle_draws (b : String) (a : BusAddr) : (s.bindHandle b a).draws = s.draws := rfl

@[simp] theorem closeEntry_config (h : HandleId) (r : HandleRec) : (s.closeEntry h r).config = s.config := rfl
@[simp] theorem closeEntry_handles (h : HandleId) (r : HandleRec) : (s.closeEntry h r).handles = insert h { r with isOpen := false } s.handles := rfl
@[simp] theorem closeEntry_nextHandle (h : HandleId) (r : HandleRec) : (s.closeEntry h r).nextHandle = s.nextHandle := rfl
@[simp] theorem closeEntry_pwmFreq (h : HandleId) (r : HandleRec) : (s.closeEntry h r).pwmFreq = s.pwmFreq := rfl
@[simp] theorem closeEntry_history (h : HandleId) (r : HandleRec) : (s.closeEntry h r).history = s.history := rfl
@[simp] theorem closeEntry_refused (h : HandleId) (r : HandleRec) : (s.closeEntry h r).refused = s.refused := rfl
@[simp] theorem closeEntry_faulted (h : HandleId) (r : HandleRec) : (s.closeEntry h r).faulted = s.faulted := rfl
@[simp] theorem closeEntry_requests (h : HandleId) (r : HandleRec) : (s.closeEntry h r).requests = s.requests := rfl
@[simp] theorem closeEntry_script (h : HandleId) (r : HandleRec) : (s.closeEntry h r).script = s.script := rfl
@[simp] theorem closeEntry_ending (h : HandleId) (r : HandleRec) : (s.closeEntry h r).ending = s.ending := rfl
@[simp] theorem closeEntry_hung (h : HandleId) (r : HandleRec) : (s.closeEntry h r).hung = s.hung := rfl
@[simp] theorem closeEntry_draws (h : HandleId) (r : HandleRec) : (s.closeEntry h r).draws = s.draws := rfl

@[simp] theorem setFreq_config (h : HandleId) (f : Rat) : (s.setFreq h f).config = s.config := rfl
@[simp] theorem setFreq_handles (h : HandleId) (f : Rat) : (s.setFreq h f).handles = s.handles := rfl
@[simp] theorem setFreq_nextHandle (h : HandleId) (f : Rat) : (s.setFreq h f).nextHandle = s.nextHandle := rfl
@[simp] theorem setFreq_pwmFreq (h : HandleId) (f : Rat) : (s.setFreq h f).pwmFreq = insert h f s.pwmFreq := rfl
@[simp] theorem setFreq_history (h : HandleId) (f : Rat) : (s.setFreq h f).history = s.history := rfl
@[simp] theorem setFreq_refused (h : HandleId) (f : Rat) : (s.setFreq h f).refused = s.refused := rfl
@[simp] theorem setFreq_faulted (h : HandleId) (f : Rat) : (s.setFreq h f).faulted = s.faulted := rfl
@[simp] theorem setFreq_requests (h : HandleId) (f : Rat) : (s.setFreq h f).requests = s.requests := rfl
@[simp] theorem setFreq_script (h : HandleId) (f : Rat) : (s.setFreq h f).script = s.script := rfl
@[simp] theorem setFreq_ending (h : HandleId) (f : Rat) : (s.setFreq h f).ending = s.ending := rfl
@[simp] theorem setFreq_hung (h : HandleId) (f : Rat) : (s.setFreq h f).hung = s.hung := rfl
@[simp] theorem setFreq_draws (h : HandleId) (f : Rat) : (s.setFreq h f).draws = s.draws := rfl

@[simp] theorem drawn_config : s.drawn.config = s.config := rfl
@[simp] theorem drawn_handles : s.drawn.handles = s.handles := rfl
@[simp] theorem drawn_nextHandle : s.drawn.nextHandle = s.nextHandle := rfl
@[simp] theorem drawn_pwmFreq : s.drawn.pwmFreq = s.pwmFreq := rfl
@[simp] theorem drawn_history : s.drawn.history = s.history := rfl
@[simp] theorem drawn_refused : s.drawn.refused = s.refused := rfl
@[simp] theorem drawn_faulted : s.drawn.faulted = s.faulted := rfl
@[simp] theorem drawn_requests : s.drawn.requests = s.requests := rfl
@[simp] theorem drawn_script : s.drawn.script = s.script := rfl
@[simp] theorem drawn_ending : s.drawn.ending = s.ending := rfl
@[simp] theorem drawn_hung : s.drawn.hung = s.hung := rfl
@[simp] theorem drawn_draws : s.drawn.draws = s.draws + 1 := rfl

@[simp] theorem markRefused_config (x : RefuseReason) : (s.markRefused x).config = s.config := rfl
@[simp] theorem markRefused_handles (x : RefuseReason) : (s.markRefused x).handles = s.handles := rfl
@[simp] theorem markRefused_nextHandle (x : RefuseReason) : (s.markRefused x).nextHandle = s.nextHandle := rfl
@[simp] theorem markRefused_pwmFreq (x : RefuseReason) : (s.markRefused x).pwmFreq = s.pwmFreq := rfl
@[simp] theorem markRefused_history (x : RefuseReason) : (s.markRefused x).history = s.history := rfl
@[simp] theorem markRefused_refused (x : RefuseReason) : (s.markRefused x).refused = true := rfl
@[simp] theorem markRefused_faulted (x : RefuseReason) : (s.markRefused x).faulted = s.faulted := rfl
@[simp] theorem markRefused_requests (x : RefuseReason) : (s.markRefused x).requests = s.requests := rfl
@[simp] theorem markRefused_script (x : RefuseReason) : (s.markRefused x).script = s.script := rfl
@[simp] theorem markRefused_ending (x : RefuseReason) : (s.markRefused x).ending = some (.refused x) := rfl
@[simp] theorem markRefused_hung (x : RefuseReason) : (s.markRefused x).hung = s.hung := rfl
@[simp] theorem markRefused_draws (x : RefuseReason) : (s.markRefused x).draws = s.draws := rfl

@[simp] theorem markFaulted_config (x : FaultReason) : (s.markFaulted x).config = s.config := rfl
@[simp] theorem markFaulted_handles (x : FaultReason) : (s.markFaulted x).handles = s.handles := rfl
@[simp] theorem markFaulted_nextHandle (x : FaultReason) : (s.markFaulted x).nextHandle = s.nextHandle := rfl
@[simp] theorem markFaulted_pwmFreq (x : FaultReason) : (s.markFaulted x).pwmFreq = s.pwmFreq := rfl
@[simp] theorem markFaulted_history (x : FaultReason) : (s.markFaulted x).history = s.history := rfl
@[simp] theorem markFaulted_refused (x : FaultReason) : (s.markFaulted x).refused = s.refused := rfl
@[simp] theorem markFaulted_faulted (x : FaultReason) : (s.markFaulted x).faulted = true := rfl
@[simp] theorem markFaulted_requests (x : FaultReason) : (s.markFaulted x).requests = s.requests := rfl
@[simp] theorem markFaulted_script (x : FaultReason) : (s.markFaulted x).script = s.script := rfl
@[simp] theorem markFaulted_ending (x : FaultReason) : (s.markFaulted x).ending = some (.faulted x) := rfl
@[simp] theorem markFaulted_hung (x : FaultReason) : (s.markFaulted x).hung = s.hung := rfl
@[simp] theorem markFaulted_draws (x : FaultReason) : (s.markFaulted x).draws = s.draws := rfl

@[simp] theorem took_config : s.took.config = s.config := rfl
@[simp] theorem took_handles : s.took.handles = s.handles := rfl
@[simp] theorem took_nextHandle : s.took.nextHandle = s.nextHandle := rfl
@[simp] theorem took_pwmFreq : s.took.pwmFreq = s.pwmFreq := rfl
@[simp] theorem took_history : s.took.history = s.history := rfl
@[simp] theorem took_refused : s.took.refused = s.refused := rfl
@[simp] theorem took_faulted : s.took.faulted = s.faulted := rfl
@[simp] theorem took_requests : s.took.requests = s.requests.tail := rfl
@[simp] theorem took_script : s.took.script = s.script := rfl
@[simp] theorem took_ending : s.took.ending = s.ending := rfl
@[simp] theorem took_hung : s.took.hung = s.hung := rfl
@[simp] theorem took_draws : s.took.draws = s.draws := rfl

@[simp] theorem played_config (es : List Event) : (s.played es).config = s.config := rfl
@[simp] theorem played_handles (es : List Event) : (s.played es).handles = s.handles := rfl
@[simp] theorem played_nextHandle (es : List Event) : (s.played es).nextHandle = s.nextHandle := rfl
@[simp] theorem played_pwmFreq (es : List Event) : (s.played es).pwmFreq = s.pwmFreq := rfl
@[simp] theorem played_history (es : List Event) : (s.played es).history = s.history ++ es := rfl
@[simp] theorem played_refused (es : List Event) : (s.played es).refused = s.refused := rfl
@[simp] theorem played_faulted (es : List Event) : (s.played es).faulted = s.faulted := rfl
@[simp] theorem played_requests (es : List Event) : (s.played es).requests = s.requests := rfl
@[simp] theorem played_script (es : List Event) : (s.played es).script = s.script.drop (es.countP isTransfer) := rfl
@[simp] theorem played_ending (es : List Event) : (s.played es).ending = s.ending := rfl
@[simp] theorem played_hung (es : List Event) : (s.played es).hung = s.hung := rfl
@[simp] theorem played_draws (es : List Event) : (s.played es).draws = s.draws := rfl

end Sys2Proof.Machine
end

