-- ==== Sys2Proof/Laws/Ops.lean ====
section
/-! SUPPORT. What the shared operations can do, each said once: the parts of an operation only send traffic through one
entry, and where the environment answers as a list of events says they come to the state with those events played. -/

namespace Sys2Proof.Machine

/-! ## Sequencing -/

section
variable {α β : Type}

@[simp] theorem andThen_done (a : α) (s : State) (f : α → State → Run β) :
    (Run.done a s).andThen f = f a s := rfl
@[simp] theorem andThen_raised (e : Error) (s : State) (f : α → State → Run β) :
    (Run.raised e s : Run α).andThen f = .raised e s := rfl
@[simp] theorem andThen_hung (s : State) (f : α → State → Run β) :
    (Run.hung s : Run α).andThen f = .hung s := rfl
@[simp] theorem state_done (a : α) (s : State) : (Run.done a s).state = s := rfl
@[simp] theorem state_raised (e : Error) (s : State) : (Run.raised e s : Run α).state = s := rfl
@[simp] theorem state_hung (s : State) : (Run.hung s : Run α).state = s := rfl

end

@[simp] theorem ending_done (v : Value) (s : State) : (Run.done v s).ending = some (.ok v) := rfl
@[simp] theorem ending_raised (e : Error) (s : State) : (Run.raised e s).ending = some (.err e) := rfl
@[simp] theorem ending_hung (s : State) : (Run.hung s).ending = none := rfl

@[simp] theorem finish_done (v : Value) (s : State) :
    finish (.done v s) = .next (s.ended (some (.ok v))) := rfl
@[simp] theorem finish_raised (e : Error) (s : State) :
    finish (.raised e s) = .next (s.ended (some (.err e))) := rfl
@[simp] theorem finish_hung (s : State) : finish (.hung s) = .next (s.ended none) := rfl

/-! ## The handle check -/

theorem checkOpen_eq_some {s : State} {h : HandleId} {r : HandleRec} :
    checkOpen s h = some r ↔ lookup h s.handles = some r ∧ r.isOpen = true := by
  unfold checkOpen
  cases hl : lookup h s.handles with
  | none => simp
  | some q =>
    by_cases hq : q.isOpen = true
    · simp only [hq, if_true, Option.some.injEq]
      constructor
      · rintro rfl; exact ⟨rfl, hq⟩
      · exact fun h => h.1
    · simp only [hq, Bool.false_eq_true, if_false, Option.some.injEq, reduceCtorEq, false_iff, not_and]
      rintro rfl; exact hq

theorem withHandle_of_open {s : State} {h : HandleId} {r : HandleRec} (hr : checkOpen s h = some r)
    (body : HandleRec → State → Run Value) : withHandle h s body = finish (body r s) := by
  simp [withHandle, hr]

theorem withHandle_of_not_open {s : State} {h : HandleId} (hr : checkOpen s h = none)
    (body : HandleRec → State → Run Value) :
    withHandle h s body = .next (s.ended (some (.err .notOpen))) := by
  simp [withHandle, hr]

/-! ## Traffic -/

/-- An event that a transfer or delay through the entry `r` of `h` can append. -/
def through (h : HandleId) (r : HandleRec) : Event → Prop
  | .wrote k bus addr _ _ => k = h ∧ bus = r.bus ∧ addr = r.addr
  | .read k bus addr n a => k = h ∧ bus = r.bus ∧ addr = r.addr ∧ a.fits n = true
  | .delayed k _ => k = h
  | .opened _ _ _ _ => False
  | .closed _ => False

@[simp] theorem played_nil (s : State) : s.played [] = s := by simp [State.played]

theorem played_played (s : State) (a b : List Event) : (s.played a).played b = s.played (a ++ b) := by
  simp [State.played, List.append_assoc, List.countP_append, List.drop_drop]

theorem answered_eq_played {s : State} {e : Event} (h : isTransfer e = true) :
    s.answered e = s.played [e] := by
  simp [State.answered, State.played, h]

theorem environmentPlays_append (s : State) (a b : List Event) :
    environmentPlays s (a ++ b) = (environmentPlays s a && environmentPlays (s.played a) b) := by
  induction a generalizing s with
  | nil => simp [environmentPlays]
  | cons e a ih =>
    simp only [List.cons_append, environmentPlays, ih, Bool.and_assoc, played_played, List.nil_append]

/-- A part of an operation that started in `s` and whose answered transfers and delays are `es` stands behind them: done, ended
by one of a transfer's errors, or blocked in a further transfer. -/
def Run.isAfter {α : Type} (s : State) (es : List Event) : Run α → Prop
  | .done _ t => t = s.played es
  | .raised e t => t = s.played es ∧ (e = .writeFailed ∨ e = .readFailed ∨ e = .shortRead)
  | .hung t => ∃ x, t = (s.played es).blockedOn x

/-- A part of an operation, started in `s`, does nothing but this: it sends transfers and delays through the entry `r` of `h`,
which the environment answers as recorded, and then is done, ended by one of their errors, or blocked. -/
def Traffic (h : HandleId) (r : HandleRec) (s : State) {α : Type} (x : Run α) : Prop :=
  ∃ es, (∀ e ∈ es, through h r e) ∧ environmentPlays s es = true ∧ x.isAfter s es

/-- What traffic can change of the state. -/
theorem Traffic.only {α : Type} {h : HandleId} {r : HandleRec} {s : State} {x : Run α} (hx : Traffic h r s x) :
    ∃ es script hung, x.state = { s with history := s.history ++ es, script := script, hung := hung } ∧
      ∀ e ∈ es, through h r e := by
  obtain ⟨es, hes, -, hr⟩ := hx
  cases x with
  | done a t => exact ⟨es, _, _, hr, hes⟩
  | raised e t => exact ⟨es, _, _, hr.1, hes⟩
  | hung t => obtain ⟨y, hy⟩ := hr; exact ⟨es, _, _, hy, hes⟩

theorem traffic_done {α : Type} (h : HandleId) (r : HandleRec) (s : State) (a : α) :
    Traffic h r s (.done a s) :=
  ⟨[], by simp, rfl, by simp [Run.isAfter]⟩

theorem traffic_raised {α : Type} (h : HandleId) (r : HandleRec) (s : State) {e : Error}
    (he : e = .writeFailed ∨ e = .readFailed ∨ e = .shortRead) :
    Traffic h r s (.raised e s : Run α) :=
  ⟨[], by simp, rfl, by simpa [Run.isAfter] using he⟩

/-- Traffic followed by traffic is traffic. -/
theorem traffic_andThen {α β : Type} {h : HandleId} {r : HandleRec} {s : State} {x : Run α}
    {f : α → State → Run β} (hx : Traffic h r s x) (hf : ∀ a t, Traffic h r t (f a t)) :
    Traffic h r s (x.andThen f) := by
  obtain ⟨es, hes, hp, hr⟩ := hx
  cases x with
  | done a t =>
    obtain rfl : t = s.played es := hr
    obtain ⟨es', hes', hp', hr'⟩ := hf a (s.played es)
    refine ⟨es ++ es', fun e he => (List.mem_append.1 he).elim (hes e) (hes' e), ?_, ?_⟩
    · rw [environmentPlays_append, hp, hp']; rfl
    · rw [andThen_done]
      revert hr'
      cases f a (s.played es) <;> simp only [Run.isAfter, played_played] <;> exact id
  | raised e t => exact ⟨es, hes, hp, hr⟩
  | hung t => exact ⟨es, hes, hp, hr⟩

theorem answerRead_fits {s : State} {bus : String} {addr : BusAddr} {n : Nat} {a : ReadAnswer}
    (h : answerRead s bus addr n = some a) : a.fits n = true := by
  have ho : ∀ b, oracleRead s bus addr n = some b → b.fits n = true := by
    intro b hb
    unfold oracleRead at hb
    cases hc : Config.readOracle s.history bus addr n with
    | none => simp [hc] at hb
    | some x => simp only [hc, Option.some.injEq] at hb; exact hb ▸ x.2
  unfold answerRead at h
  split at h
  · split at h
    · rename_i hf; simp only [Option.some.injEq] at h; exact h ▸ hf
    · exact ho a h
  · simp at h
  · exact ho a h

theorem busWrite_traffic (h : HandleId) (r : HandleRec) (bytes : List Byte) (s : State) :
    Traffic h r s (busWrite h r bytes s) := by
  unfold busWrite
  split
  · rename_i a ha
    exact ⟨[.wrote h r.bus r.addr bytes a], by simp [through], by simp [environmentPlays, answersAs, ha],
      answered_eq_played rfl⟩
  · exact ⟨[], by simp, rfl, .write h bytes, by simp⟩

theorem busRead_traffic (h : HandleId) (r : HandleRec) (n : Nat) (s : State) :
    Traffic h r s (busRead h r n s) := by
  unfold busRead
  split
  · rename_i a ha
    exact ⟨[.read h r.bus r.addr n a], by simp [through, answerRead_fits ha],
      by simp [environmentPlays, answersAs, ha], answered_eq_played rfl⟩
  · exact ⟨[], by simp, rfl, .read h n, by simp⟩

theorem delay_plays (s : State) (h : HandleId) (ms : Rat) :
    delay h ms s = .done () (s.played [.delayed h ms]) := by
  simp [delay, State.record, State.played, isTransfer]

theorem delay_traffic (h : HandleId) (r : HandleRec) (ms : Rat) (s : State) :
    Traffic h r s (delay h ms s) :=
  ⟨[.delayed h ms], by simp [through], rfl, by rw [delay_plays]; rfl⟩

theorem sendFrame_traffic (h : HandleId) (r : HandleRec) (bytes : List Byte) (s : State) :
    Traffic h r s (sendFrame h r bytes s) :=
  traffic_andThen (busWrite_traffic h r bytes s) fun a t => by
    cases a
    · exact traffic_done h r t ()
    · exact traffic_raised h r t (by simp)

theorem readBytes_traffic (h : HandleId) (r : HandleRec) (reg : Byte) (n : Nat) (s : State) :
    Traffic h r s (readBytes h r reg n s) :=
  traffic_andThen (sendFrame_traffic h r [reg] s) fun _ t =>
    traffic_andThen (busRead_traffic h r n t) fun a u => by
      cases a with
      | bytes l =>
        by_cases hl : l.length < n
        · simpa [hl] using traffic_raised h r u (e := .shortRead) (by simp)
        · simpa [hl] using traffic_done h r u l
      | fail => exact traffic_raised h r u (by simp)

theorem readByte_traffic (h : HandleId) (r : HandleRec) (reg : Byte) (s : State) :
    Traffic h r s (readByte h r reg s) :=
  traffic_andThen (readBytes_traffic h r reg 1 s) fun l t => by
    cases l
    · exact traffic_raised h r t (by simp)
    · exact traffic_done h r t _

theorem readHalf_traffic (h : HandleId) (r : HandleRec) (reg : Byte) (s : State) :
    Traffic h r s (readHalf h r reg s) :=
  traffic_andThen (readBytes_traffic h r reg 2 s) fun l t => by
    rcases l with _ | ⟨b0, _ | ⟨b1, l⟩⟩
    · exact traffic_raised h r t (by simp)
    · exact traffic_raised h r t (by simp)
    · exact traffic_done h r t _

theorem memRead_traffic (h : HandleId) (r : HandleRec) (reg : Byte) (len : RegLen) (s : State) :
    Traffic h r s (memRead h r reg len s) := by
  cases len
  · exact traffic_andThen (readByte_traffic h r reg s) fun b t => traffic_done h r t _
  · exact traffic_andThen (readHalf_traffic h r reg s) fun b t => traffic_done h r t _

theorem memWrite_traffic (h : HandleId) (r : HandleRec) (reg : Byte) (len : RegLen) (value : Half)
    (s : State) : Traffic h r s (memWrite h r reg len value s) :=
  sendFrame_traffic h r _ s

theorem writeByte_traffic (h : HandleId) (r : HandleRec) (reg value : Byte) (s : State) :
    Traffic h r s (writeByte h r reg value s) :=
  sendFrame_traffic h r _ s

theorem writeBytes_traffic (h : HandleId) (r : HandleRec) (l : List (Byte × Byte)) (s : State) :
    Traffic h r s (writeBytes h r l s) := by
  induction l generalizing s with
  | nil => exact traffic_done h r s ()
  | cons p l ih => exact traffic_andThen (writeByte_traffic h r p.1 p.2 s) fun _ t => ih t

theorem unitAfter_traffic {h : HandleId} {r : HandleRec} {s : State} {x : Run Unit}
    (hx : Traffic h r s x) : Traffic h r s (unitAfter x) :=
  traffic_andThen hx fun _ t => traffic_done h r t _

theorem setRegs_traffic (h : HandleId) (r : HandleRec) (ch : Nat) (on off : Int) (s : State) :
    Traffic h r s (setRegs h r ch on off s) :=
  writeBytes_traffic h r _ s

theorem setAllRegs_traffic (h : HandleId) (r : HandleRec) (on off : Int) (s : State) :
    Traffic h r s (setAllRegs h r on off s) :=
  writeBytes_traffic h r _ s

theorem changePrescale_traffic (h : HandleId) (r : HandleRec) (p : Byte) (s : State) :
    Traffic h r s (changePrescale h r p s) :=
  traffic_andThen (readByte_traffic h r _ s) fun _ t =>
    traffic_andThen (writeByte_traffic h r _ _ t) fun _ t =>
      traffic_andThen (writeByte_traffic h r _ _ t) fun _ t =>
        traffic_andThen (writeByte_traffic h r _ _ t) fun _ t =>
          traffic_andThen (delay_traffic h r _ t) fun _ t => writeByte_traffic h r _ _ t

theorem bringup_traffic (h : HandleId) (r : HandleRec) (s : State) :
    Traffic h r s (bringup h r s) :=
  traffic_andThen (setAllRegs_traffic h r 0 0 s) fun _ t =>
    traffic_andThen (writeByte_traffic h r _ _ t) fun _ t =>
      traffic_andThen (writeByte_traffic h r _ _ t) fun _ t =>
        traffic_andThen (delay_traffic h r _ t) fun _ t =>
          traffic_andThen (readByte_traffic h r _ t) fun _ t =>
            traffic_andThen (writeByte_traffic h r _ _ t) fun _ t => delay_traffic h r _ t

/-! ## Where the environment answers as a list of events says -/

theorem sendFrame_ok {s : State} {h : HandleId} {r : HandleRec} {bytes : List Byte}
    (hp : environmentPlays s [wrote h r bytes .ok] = true) :
    sendFrame h r bytes s = .done () (s.played [wrote h r bytes .ok]) := by
  simp only [environmentPlays, wrote, answersAs, Bool.and_true, beq_iff_eq] at hp
  simp only [sendFrame, busWrite, hp, andThen_done, wrote]
  rw [answered_eq_played (by rfl)]

theorem sendFrame_fail {s : State} {h : HandleId} {r : HandleRec} {bytes : List Byte}
    (hp : environmentPlays s [wrote h r bytes .fail] = true) :
    sendFrame h r bytes s = .raised .writeFailed (s.played [wrote h r bytes .fail]) := by
  simp only [environmentPlays, wrote, answersAs, Bool.and_true, beq_iff_eq] at hp
  simp only [sendFrame, busWrite, hp, andThen_done, wrote]
  rw [answered_eq_played (by rfl)]

theorem sendFrame_hung {s : State} {h : HandleId} {r : HandleRec} {bytes : List Byte}
    (hp : answerWrite s r.bus r.addr bytes = none) :
    sendFrame h r bytes s = .hung (s.blockedOn (.write h bytes)) := by
  simp [sendFrame, busWrite, hp]

theorem busRead_of_plays {s : State} {h : HandleId} {r : HandleRec} {n : Nat} {a : ReadAnswer}
    (hp : environmentPlays s [.read h r.bus r.addr n a] = true) :
    busRead h r n s = .done a (s.played [.read h r.bus r.addr n a]) := by
  simp only [environmentPlays, answersAs, Bool.and_true, beq_iff_eq] at hp
  simp only [busRead, hp]
  rw [answered_eq_played (by rfl)]

/-- A register read whose select and read are both answered with enough bytes. -/
theorem readBytes_ok {s : State} {h : HandleId} {r : HandleRec} {reg : Byte} {n : Nat} {l : List Byte}
    (hn : l.length = n) (hp : environmentPlays s (regRead h r reg l) = true) :
    readBytes h r reg n s = .done l (s.played (regRead h r reg l)) := by
  have hsplit : regRead h r reg l = [wrote h r [reg] .ok] ++ [readBack h r l.length l] := rfl
  rw [hsplit, environmentPlays_append, Bool.and_eq_true] at hp
  subst hn
  simp only [readBytes, sendFrame_ok hp.1, andThen_done, busRead_of_plays hp.2, Nat.lt_irrefl, if_false]
  rw [played_played]; rfl

theorem readByte_ok {s : State} {h : HandleId} {r : HandleRec} {reg b : Byte}
    (hp : environmentPlays s (regRead h r reg [b]) = true) :
    readByte h r reg s = .done b (s.played (regRead h r reg [b])) := by
  rw [readByte, readBytes_ok (n := 1) rfl hp, andThen_done]

theorem readHalf_ok {s : State} {h : HandleId} {r : HandleRec} {reg b0 b1 : Byte}
    (hp : environmentPlays s (regRead h r reg [b0, b1]) = true) :
    readHalf h r reg s = .done (bigEndian b0 b1) (s.played (regRead h r reg [b0, b1])) := by
  rw [readHalf, readBytes_ok (n := 2) rfl hp, andThen_done]

theorem writeBytes_ok {s : State} {h : HandleId} {r : HandleRec} {l : List (Byte × Byte)}
    (hp : environmentPlays s (wroteAll h r l) = true) :
    writeBytes h r l s = .done () (s.played (wroteAll h r l)) := by
  induction l generalizing s with
  | nil => simp [writeBytes, wroteAll]
  | cons p l ih =>
    have hsplit : wroteAll h r (p :: l) = [wrote h r [p.1, p.2] .ok] ++ wroteAll h r l := rfl
    rw [hsplit, environmentPlays_append, Bool.and_eq_true] at hp
    obtain ⟨reg, v⟩ := p
    simp only [writeBytes, writeByte, sendFrame_ok hp.1, andThen_done, ih hp.2, played_played]
    rw [hsplit]

/-! ## Free draws -/

theorem drawnScale_range (d : Fin 5) : -2 ≤ drawnScale d ∧ drawnScale d ≤ 2 := by
  unfold drawnScale; omega

end Sys2Proof.Machine
end

