-- ==== Sys2Proof/Laws/Exec.lean ====
section
/-! SUPPORT. What executing an instruction can do, said once: every meaning has one of the shapes of `Does`, and the
whole-machine claims follow by cases on the shape. -/

namespace Sys2Proof.Machine

/-- The shapes of an execution. -/
inductive Does (i : Instr) (s : State) : Host.Outcome State Fault Refusal → Prop
  /-- a static check failed -/
  | refuses (x : RefuseReason) (hw : i.wellFormed s.config = false) : Does i s (.next (s.markRefused x))
  /-- PWM_SET_PULSE_MS with a tick count out of range -/
  | refusesTick (h : HandleId) (ch : Nat) (ms : Rat) (r : HandleRec) (hi : i = .pwmSetPulseMs h ch ms)
      (hw : i.wellFormed s.config = true) (hc : checkOpen s h = some r) : Does i s (.next (s.markRefused .tickOutOfRange))
  /-- PWM_SET_PULSE_MS before any frequency -/
  | faults (h : HandleId) (ch : Nat) (ms : Rat) (r : HandleRec) (hi : i = .pwmSetPulseMs h ch ms)
      (hw : i.wellFormed s.config = true) (hc : checkOpen s h = some r) (hf : lookup h s.pwmFreq = none) : Does i s (.next (s.markFaulted .frequencyUnset))
  /-- an operation on a closed or invalid handle -/
  | notOpen (h : HandleId) (hi : handleOf i = some h) (hw : i.wellFormed s.config = true)
      (hc : checkOpen s h = none) : Does i s (.next (s.ended (some (.err .notOpen))))
  /-- OPEN -/
  | opens (bus : String) (addr : BusAddr) (hi : i = .openHandle bus addr) :
      Does i s (finish (openBus bus addr s))
  /-- CLOSE of an open handle -/
  | closes (h : HandleId) (r : HandleRec) (hi : i = .closeHandle h) (hc : checkOpen s h = some r) :
      Does i s (.next (((s.closeEntry h r).record (.closed h)).ended (some (.ok .unit))))
  /-- traffic through an open handle, and nothing else -/
  | sends (h : HandleId) (r : HandleRec) (x : Run Value) (hi : handleOf i = some h)
      (hw : i.wellFormed s.config = true) (hc : checkOpen s h = some r) (hx : Traffic h r s x)
      (hclose : ∀ k, i ≠ .closeHandle k) (hfreq : ∀ k f, i ≠ .pwmSetFreq k f) : Does i s (finish x)
  /-- PWM_SET_FREQ on an open handle: traffic, then the frequency register -/
  | setsFreq (h : HandleId) (f : Rat) (r : HandleRec) (x : Run Unit) (hi : i = .pwmSetFreq h f)
      (hw : i.wellFormed s.config = true) (hc : checkOpen s h = some r) (hx : Traffic h r s x) :
      Does i s (finish (x.andThen fun _ t => .done .unit (t.setFreq h f)))
  /-- a pure converter -/
  | converts (v : Value) (hi : isPure i = true) (hw : i.wellFormed s.config = true) :
      Does i s (.next (s.ended (some (.ok v))))
  /-- AS_STATUS_SCALE with a free draw -/
  | draws (x : Byte) (d : Fin 5) (hi : i = .asStatusScale x) :
      Does i s (.next (s.drawn.ended (some (.ok (.int (drawnScale d))))))

/-- An operation on a handle whose body only sends traffic. -/
theorem does_of_withHandle {i : Instr} {s : State} {h : HandleId} {body : HandleRec → State → Run Value}
    (he : exec i s = withHandle h s body) (hi : handleOf i = some h) (hw : i.wellFormed s.config = true)
    (hclose : ∀ k, i ≠ .closeHandle k) (hfreq : ∀ k f, i ≠ .pwmSetFreq k f)
    (hx : ∀ r, Traffic h r s (body r s)) : Does i s (exec i s) := by
  rw [he]
  cases hc : checkOpen s h with
  | none => rw [withHandle_of_not_open hc]; exact .notOpen h hi hw hc
  | some r => rw [withHandle_of_open hc]; exact .sends h r _ hi hw hc (hx r) hclose hfreq

/-- A refusal by a static check. -/
theorem does_of_refuse {i : Instr} {s : State} {x : RefuseReason} (he : exec i s = refuse x s)
    (hw : i.wellFormed s.config = false) : Does i s (exec i s) := by
  rw [he]; exact .refuses x hw

/-- A pure converter's value. -/
theorem does_of_returnValue {i : Instr} {s : State} {v : Value} (he : exec i s = returnValue v s)
    (hi : isPure i = true) (hw : i.wellFormed s.config = true) : Does i s (exec i s) := by
  rw [he]; exact .converts v hi hw

/-- Every execution has one of the shapes. -/
theorem exec_does (i : Instr) (s : State) : Does i s (exec i s) := by
  cases i with
  | openHandle bus addr => exact .opens bus addr rfl
  | closeHandle h =>
    show Does _ s (execClose h s)
    unfold execClose
    cases hc : checkOpen s h with
    | none => rw [withHandle_of_not_open hc]; exact .notOpen h rfl rfl hc
    | some r => rw [withHandle_of_open hc]; exact .closes h r rfl hc
  | readReg h reg len =>
    cases hl : regLen len with
    | none =>
      exact does_of_refuse (x := .badOperand) (by simp [exec, execReadReg, hl]) (by simp [Instr.wellFormed, hl])
    | some n =>
      exact does_of_withHandle (body := fun r s => memRead h r reg n s) (by simp [exec, execReadReg, hl]) rfl
        (by simp [Instr.wellFormed, hl]) (by simp) (by simp) fun r => memRead_traffic h r reg n s
  | writeReg h reg value len =>
    cases hl : regLen len with
    | none =>
      exact does_of_refuse (x := .badOperand) (by simp [exec, execWriteReg, hl]) (by simp [Instr.wellFormed, hl])
    | some n =>
      exact does_of_withHandle (body := fun r s => unitAfter (memWrite h r reg n value s))
        (by simp [exec, execWriteReg, hl]) rfl (by simp [Instr.wellFormed, hl]) (by simp) (by simp)
        fun r => unitAfter_traffic (memWrite_traffic h r reg n value s)
  | writeRaw h bytes =>
    cases hl : rawLenLegal s.config bytes with
    | false =>
      exact does_of_refuse (x := .badOperand) (by simp [exec, execWriteRaw, hl]) (by simp [Instr.wellFormed, hl])
    | true =>
      exact does_of_withHandle (body := fun r s => unitAfter (sendFrame h r bytes s))
        (by simp [exec, execWriteRaw, hl]) rfl (by simp [Instr.wellFormed, hl]) (by simp) (by simp)
        fun r => unitAfter_traffic (sendFrame_traffic h r bytes s)
  | asRead h areg =>
    cases hl : asReadable areg with
    | false =>
      exact does_of_refuse (x := .writeOnlyRegister) (by simp [exec, execAsRead, hl])
        (by simp [Instr.wellFormed, hl])
    | true =>
      exact does_of_withHandle
        (body := fun r s => memRead h r (asRegAddr s.config.asReg areg) (asRegLen areg) s)
        (by simp [exec, execAsRead, hl]) rfl (by simp [Instr.wellFormed, hl]) (by simp) (by simp)
        fun r => memRead_traffic h r _ _ s
  | asWrite h areg value =>
    cases hl : asWritable areg with
    | false =>
      exact does_of_refuse (x := .readOnlyRegister) (by simp [exec, execAsWrite, hl])
        (by simp [Instr.wellFormed, hl])
    | true =>
      exact does_of_withHandle
        (body := fun r s => unitAfter (memWrite h r (asRegAddr s.config.asReg areg) (asRegLen areg) value s))
        (by simp [exec, execAsWrite, hl]) rfl (by simp [Instr.wellFormed, hl]) (by simp) (by simp)
        fun r => unitAfter_traffic (memWrite_traffic h r _ _ _ s)
  | asBurn h cmd =>
    exact does_of_withHandle
      (body := fun r s => unitAfter (writeByte h r (asRegAddr s.config.asReg .burn) (burnCode s.config cmd) s))
      rfl rfl rfl (by simp) (by simp) fun r => unitAfter_traffic (writeByte_traffic h r _ _ s)
  | asMaxPos zeroPos range => exact does_of_returnValue rfl rfl rfl
  | asRaw2DegI raw zeroPos maxPos => exact does_of_returnValue rfl rfl rfl
  | asRaw2DegF raw zeroPos maxPos => exact does_of_returnValue rfl rfl rfl
  | asDeg2RawI deg => exact does_of_returnValue rfl rfl rfl
  | asDeg2RawF deg => exact does_of_returnValue rfl rfl rfl
  | asStatusScale x =>
    show Does _ s (execAsStatusScale x s)
    unfold execAsStatusScale
    cases statusScale s.config x with
    | some v => exact .converts (.int v) rfl rfl
    | none => exact .draws x _ rfl
  | imuInit h =>
    refine does_of_withHandle (he := by unfold exec execImuInit; rfl) rfl rfl (by simp) (by simp) fun r => ?_
    split
    · exact traffic_andThen (readByte_traffic h r _ s) fun v t => unitAfter_traffic (writeByte_traffic h r _ _ t)
    · exact unitAfter_traffic (writeByte_traffic h r _ _ s)
  | imuRead h ireg =>
    exact does_of_withHandle
      (body := fun r s => memRead h r (imuRegAddr s.config.imuReg ireg) (imuRegLen ireg) s)
      rfl rfl rfl (by simp) (by simp) fun r => memRead_traffic h r _ _ s
  | imuWrite h ireg value =>
    cases hl : imuWritable ireg with
    | false =>
      exact does_of_refuse (x := .readOnlyRegister) (by simp [exec, execImuWrite, hl])
        (by simp [Instr.wellFormed, hl])
    | true =>
      exact does_of_withHandle
        (body := fun r s => unitAfter (writeByte h r (imuRegAddr s.config.imuReg ireg) value s))
        (by simp [exec, execImuWrite, hl]) rfl (by simp [Instr.wellFormed, hl]) (by simp) (by simp)
        fun r => unitAfter_traffic (writeByte_traffic h r _ _ s)
  | imuS16 x => exact does_of_returnValue rfl rfl rfl
  | imuTempC raw => exact does_of_returnValue rfl rfl rfl
  | imuAccelScale cfg => exact does_of_returnValue rfl rfl rfl
  | imuGyroScale cfg => exact does_of_returnValue rfl rfl rfl
  | imuAccelConv raw cfg ms2 => exact does_of_returnValue rfl rfl rfl
  | imuGyroConv raw cfg => exact does_of_returnValue rfl rfl rfl
  | imuReadTemp h =>
    refine does_of_withHandle (he := by unfold exec execImuReadTemp; rfl) rfl rfl (by simp) (by simp) fun r => ?_
    exact traffic_andThen (readHalf_traffic h r _ s) fun _ t => traffic_done h r t _
  | imuReadAccel h axis ms2 =>
    refine does_of_withHandle (he := by unfold exec execImuReadAccel; rfl) rfl rfl (by simp) (by simp) fun r => ?_
    exact traffic_andThen (readHalf_traffic h r _ s) fun _ t =>
      traffic_andThen (readByte_traffic h r _ t) fun _ u => traffic_done h r u _
  | imuReadGyro h axis =>
    refine does_of_withHandle (he := by unfold exec execImuReadGyro; rfl) rfl rfl (by simp) (by simp) fun r => ?_
    exact traffic_andThen (readHalf_traffic h r _ s) fun _ t =>
      traffic_andThen (readByte_traffic h r _ t) fun _ u => traffic_done h r u _
  | pwmBringup h =>
    exact does_of_withHandle (body := fun r s => unitAfter (bringup h r s)) rfl rfl rfl (by simp) (by simp)
      fun r => unitAfter_traffic (bringup_traffic h r s)
  | pwmSetChannel h ch on off =>
    cases hc : channelLegal s.config ch with
    | false =>
      exact does_of_refuse (x := .channelOutOfRange) (by simp [exec, execPwmSetChannel, hc])
        (by simp [Instr.wellFormed, hc])
    | true =>
      cases ht : (tickLegal on && tickLegal off) with
      | false =>
        exact does_of_refuse (x := .tickOutOfRange) (by simp only [exec, execPwmSetChannel, hc, ht]; rfl)
          (by simp only [Instr.wellFormed, hc, Bool.true_and, ht])
      | true =>
        exact does_of_withHandle (body := fun r s => unitAfter (setRegs h r ch on off s))
          (by simp only [exec, execPwmSetChannel, hc, ht, if_true]) rfl
          (by simp only [Instr.wellFormed, hc, Bool.true_and, ht]) (by simp) (by simp)
          fun r => unitAfter_traffic (setRegs_traffic h r ch on off s)
  | pwmSetAll h on off =>
    cases ht : (tickLegal on && tickLegal off) with
    | false =>
      exact does_of_refuse (x := .tickOutOfRange) (by simp only [exec, execPwmSetAll, ht]; rfl)
        (by simp only [Instr.wellFormed, ht])
    | true =>
      exact does_of_withHandle (body := fun r s => unitAfter (setAllRegs h r on off s))
        (by simp only [exec, execPwmSetAll, ht, if_true]) rfl (by simp only [Instr.wellFormed, ht])
        (by simp) (by simp) fun r => unitAfter_traffic (setAllRegs_traffic h r on off s)
  | pwmPrescale freq =>
    cases hf : freqLegal freq with
    | false =>
      exact does_of_refuse (x := .badOperand) (by simp [exec, execPwmPrescale, hf]) (by simp [Instr.wellFormed, hf])
    | true =>
      exact does_of_returnValue (v := .int (prescaleOf freq)) (by simp [exec, execPwmPrescale, hf]) rfl
        (by simp [Instr.wellFormed, hf])
  | pwmSetFreq h freq =>
    cases hf : freqLegal freq with
    | false =>
      exact does_of_refuse (x := .badOperand) (by simp [exec, execPwmSetFreq, hf]) (by simp [Instr.wellFormed, hf])
    | true =>
      cases hp : prescaleLegal (prescaleOf freq) with
      | false =>
        exact does_of_refuse (x := .prescaleOutOfRange) (by simp [exec, execPwmSetFreq, hf, hp])
          (by simp [Instr.wellFormed, hf, hp])
      | true =>
        have hw : (Instr.pwmSetFreq h freq).wellFormed s.config = true := by simp [Instr.wellFormed, hf, hp]
        have he : exec (.pwmSetFreq h freq) s = withHandle h s fun r s =>
            (changePrescale h r (BitVec.ofInt 8 (prescaleOf freq)) s).andThen fun _ s =>
              .done .unit (s.setFreq h freq) := by simp [exec, execPwmSetFreq, hf, hp]
        rw [he]
        cases hc : checkOpen s h with
        | none => rw [withHandle_of_not_open hc]; exact .notOpen h rfl hw hc
        | some r =>
          rw [withHandle_of_open hc]
          exact .setsFreq h freq r _ rfl hw hc (changePrescale_traffic h r _ s)
  | pwmTicksMs ms freq =>
    cases hf : freqLegal freq with
    | false =>
      exact does_of_refuse (x := .badOperand) (by simp [exec, execPwmTicksMs, hf]) (by simp [Instr.wellFormed, hf])
    | true =>
      exact does_of_returnValue (v := .int (ticksMs ms freq)) (by simp [exec, execPwmTicksMs, hf]) rfl
        (by simp [Instr.wellFormed, hf])
  | pwmSetPulseMs h ch ms =>
    cases hc : channelLegal s.config ch with
    | false =>
      exact does_of_refuse (x := .channelOutOfRange) (by simp [exec, execPwmSetPulseMs, hc])
        (by simp [Instr.wellFormed, hc])
    | true =>
      have hw : (Instr.pwmSetPulseMs h ch ms).wellFormed s.config = true := by simp [Instr.wellFormed, hc]
      show Does _ s (execPwmSetPulseMs h ch ms s)
      simp only [execPwmSetPulseMs, hc, if_true]
      cases ho : checkOpen s h with
      | none => exact .notOpen h rfl hw ho
      | some r =>
        cases hl : lookup h s.pwmFreq with
        | none => exact .faults h ch ms r rfl hw ho hl
        | some f =>
          cases ht : tickLegal (ticksMs ms f) with
          | false => simp only [ht]; exact .refusesTick h ch ms r rfl hw ho
          | true =>
            simp only [ht, if_true]
            exact .sends h r _ rfl hw ho (unitAfter_traffic (setRegs_traffic h r ch 0 _ s)) (by simp) (by simp)

/-- How an operation that only sent traffic ends: with a value or a transfer's error, behind events that the environment plays,
or without an end, blocked in a further transfer. -/
theorem finish_plays {h : HandleId} {r : HandleRec} {s : State} {x : Run Value} (hx : Traffic h r s x) :
    ∃ es, (∀ ev ∈ es, through h r ev) ∧ environmentPlays s es = true ∧
      ((∃ v, finish x = .next ((s.played es).ended (some (.ok v)))) ∨
       (∃ e, (e = .writeFailed ∨ e = .readFailed ∨ e = .shortRead) ∧
          finish x = .next ((s.played es).ended (some (.err e)))) ∨
       ∃ t, finish x = .next (((s.played es).blockedOn t).ended none)) := by
  obtain ⟨es, hes, hp, hr⟩ := hx
  refine ⟨es, hes, hp, ?_⟩
  cases x with
  | done v t => exact .inl ⟨v, by rw [finish_done, hr]⟩
  | raised e t => exact .inr (.inl ⟨e, hr.2, by rw [finish_raised, hr.1]⟩)
  | hung t => obtain ⟨y, hy⟩ := hr; exact .inr (.inr ⟨y, by rw [finish_hung, hy]⟩)

/-- What an operation that only sent traffic can change: the history, the script, the blocked transfer and the ending. -/
theorem finish_traffic {h : HandleId} {r : HandleRec} {s : State} {x : Run Value} (hx : Traffic h r s x) :
    ∃ es sc hu e, finish x =
        .next { s with history := s.history ++ es, script := sc, hung := hu, ending := e } ∧
      (∀ ev ∈ es, through h r ev) ∧
      (e = none ∧ hu.isSome = true ∨ hu = s.hung ∧ ((∃ v, e = some (.ok v)) ∨
        e = some (.err .writeFailed) ∨ e = some (.err .readFailed) ∨ e = some (.err .shortRead))) := by
  obtain ⟨es, hes, -, ⟨v, hf⟩ | ⟨e, he, hf⟩ | ⟨t, hf⟩⟩ := finish_plays hx
  · exact ⟨es, _, s.hung, _, hf, hes, .inr ⟨rfl, .inl ⟨v, rfl⟩⟩⟩
  · exact ⟨es, _, s.hung, _, hf, hes, .inr ⟨rfl, .inr (by simpa using he)⟩⟩
  · exact ⟨es, _, some t, _, hf, hes, .inl ⟨rfl, rfl⟩⟩

/-- How PWM_SET_FREQ ends on an open handle: as `finish_plays`, and the frequency register is written exactly when the ending is
a value. -/
theorem finish_setFreq_plays {h : HandleId} {r : HandleRec} {s : State} {x : Run Unit} (f : Rat)
    (hx : Traffic h r s x) :
    ∃ es, (∀ ev ∈ es, through h r ev) ∧ environmentPlays s es = true ∧
      (finish (x.andThen fun _ t => .done .unit (t.setFreq h f)) =
          .next (((s.played es).setFreq h f).ended (some (.ok .unit))) ∨
       (∃ e, (e = .writeFailed ∨ e = .readFailed ∨ e = .shortRead) ∧
          finish (x.andThen fun _ t => .done .unit (t.setFreq h f)) =
            .next ((s.played es).ended (some (.err e)))) ∨
       ∃ t, finish (x.andThen fun _ t => .done .unit (t.setFreq h f)) =
          .next (((s.played es).blockedOn t).ended none)) := by
  obtain ⟨es, hes, hp, hr⟩ := hx
  refine ⟨es, hes, hp, ?_⟩
  cases x with
  | done v t => exact .inl (by rw [andThen_done, finish_done, hr])
  | raised e t => exact .inr (.inl ⟨e, hr.2, by rw [andThen_raised, finish_raised, hr.1]⟩)
  | hung t => obtain ⟨y, hy⟩ := hr; exact .inr (.inr ⟨y, by rw [andThen_hung, finish_hung, hy]⟩)

/-- What PWM_SET_FREQ can change on an open handle. -/
theorem finish_setFreq {h : HandleId} {r : HandleRec} {s : State} {x : Run Unit} (f : Rat)
    (hx : Traffic h r s x) :
    ∃ es sc hu e table, finish (x.andThen fun _ t => .done .unit (t.setFreq h f)) =
        .next { s with history := s.history ++ es, script := sc, hung := hu, ending := e, pwmFreq := table } ∧
      (∀ ev ∈ es, through h r ev) ∧
      (e = some (.ok .unit) ∧ hu = s.hung ∧ table = insert h f s.pwmFreq ∨
        table = s.pwmFreq ∧ (e = none ∧ hu.isSome = true ∨ hu = s.hung ∧
          (e = some (.err .writeFailed) ∨ e = some (.err .readFailed) ∨ e = some (.err .shortRead)))) := by
  obtain ⟨es, hes, -, hf | ⟨e, he, hf⟩ | ⟨t, hf⟩⟩ := finish_setFreq_plays f hx
  · exact ⟨es, _, s.hung, _, _, hf, hes, .inl ⟨rfl, rfl, rfl⟩⟩
  · exact ⟨es, _, s.hung, _, s.pwmFreq, hf, hes, .inr ⟨rfl, .inr ⟨rfl, by simpa using he⟩⟩⟩
  · exact ⟨es, _, some t, _, s.pwmFreq, hf, hes, .inr ⟨rfl, .inl ⟨rfl, rfl⟩⟩⟩

end Sys2Proof.Machine
end

