-- ==== Sys2Proof/Laws/Float.lean ====
section
/-! SUPPORT. What rounding to a binary format does: the result is a number of the format with none between it and the exact
value, and so every floating result represents its exact value. -/

namespace Sys2Proof.Machine

variable {f : BinaryFmt} {x y : Rat}

theorem two_zpow_pos (k : Int) : (0 : Rat) < 2 ^ k := zpow_pos (by norm_num) k

theorem two_zpow_mono {a b : Int} (h : a ≤ b) : (2 : Rat) ^ a ≤ 2 ^ b := zpow_le_zpow_right₀ (by norm_num) h

/-- A power of two is as many last places as the power of the difference. -/
theorem two_zpow_split (a b : Int) : (2 : Rat) ^ a = 2 ^ (a - b) * 2 ^ b := by
  rw [← zpow_add₀ (by norm_num)]; congr 1; ring

/-- A power of two no smaller than the last place is a whole number of them. -/
theorem two_zpow_whole {a b : Int} (h : b ≤ a) : ∃ n : Int, (2 : Rat) ^ a = n * 2 ^ b := by
  obtain ⟨k, hk⟩ := Int.eq_ofNat_of_zero_le (sub_nonneg.2 h)
  exact ⟨2 ^ k, by rw [two_zpow_split a b, hk]; simp⟩

/-- `next` is a whole number of last places, and the first such number on its side of `x`. -/
theorem next_eq (f : BinaryFmt) (up : Bool) (x : Rat) : ∃ n : Int, f.next up x = n * 2 ^ f.lastPlace x ∧
    (∀ m : Int, m * 2 ^ f.lastPlace x ≤ x → m ≤ n) ∧ (∀ m : Int, x ≤ m * 2 ^ f.lastPlace x → n ≤ m) := by
  have hp := two_zpow_pos (f.lastPlace x)
  simp only [← le_div_iff₀ hp, ← div_le_iff₀ hp]
  cases up
  · refine ⟨_, rfl, fun m hm => Rat.le_floor_iff.2 hm, fun m hm => ?_⟩
    exact_mod_cast (Rat.floor_le _).trans hm
  · refine ⟨_, rfl, fun m hm => ?_, fun m hm => Rat.ceil_le_iff.2 hm⟩
    exact_mod_cast hm.trans (Rat.ceil_le_iff.1 le_rfl)

/-- `x` is less than the power of two after the exponent of its last place. -/
theorem abs_lt_of_lastPlace (f : BinaryFmt) (x : Rat) : |x| < 2 ^ (f.fracBits + 1) * 2 ^ f.lastPlace x := by
  have h := Int.lt_zpow_succ_log_self (b := 2) (by norm_num) |x|
  rw [← zpow_natCast, ← zpow_add₀ (by norm_num)]
  refine h.trans_le ?_
  exact_mod_cast two_zpow_mono (by unfold BinaryFmt.lastPlace; push_cast; omega)

/-- A number of the format that the last place around `x` does not divide is smaller than a power of two that `x` reaches. -/
theorem abs_lt_of_finer {m e : Int} (h0 : x ≠ 0) (he : e - f.fracBits < f.lastPlace x) (hmin : f.minExp ≤ e)
    (hm : |m| < 2 ^ (f.fracBits + 1)) :
    ∃ k : Int, |(m : Rat) * 2 ^ (e - f.fracBits)| < k * 2 ^ f.lastPlace x ∧ (k : Rat) * 2 ^ f.lastPlace x ≤ |x| := by
  have hle : (2 : Rat) ^ Int.log 2 |x| ≤ |x| := by
    exact_mod_cast Int.zpow_log_le_self (b := 2) (by norm_num) (abs_pos.2 h0)
  obtain ⟨k, hk⟩ := two_zpow_whole (a := Int.log 2 |x|) (b := f.lastPlace x) (by unfold BinaryFmt.lastPlace at *; omega)
  refine ⟨k, ?_, hk ▸ hle⟩
  have hm' : |(m : Rat)| < 2 ^ (f.fracBits + 1) := by exact_mod_cast hm
  rw [← hk, abs_mul, abs_of_pos (two_zpow_pos _)]
  calc |(m : Rat)| * 2 ^ (e - f.fracBits) < 2 ^ (f.fracBits + 1) * 2 ^ (e - f.fracBits) :=
        mul_lt_mul_of_pos_right hm' (two_zpow_pos _)
    _ = 2 ^ (e + 1) := by rw [← zpow_natCast, ← zpow_add₀ (by norm_num)]; congr 1; push_cast; ring
    _ ≤ 2 ^ Int.log 2 |x| := two_zpow_mono (by unfold BinaryFmt.lastPlace at he; omega)

theorem next_zero (f : BinaryFmt) (up : Bool) : f.next up 0 = 0 := by
  obtain ⟨n, hn, h1, h2⟩ := next_eq f up 0
  have hn0 : n = 0 := le_antisymm (h2 0 (by simp)) (h1 0 (by simp))
  rw [hn, hn0]; simp

/-- No number of the format lies between `x` and `next`. -/
theorem next_neighbour {up : Bool} (hy : inFormat f y)
    (h : (x ≤ y ∧ y ≤ f.next up x) ∨ (f.next up x ≤ y ∧ y ≤ x)) : y = f.next up x := by
  by_cases h0 : x = 0
  · subst h0; rw [next_zero] at *; rcases h with h | h <;> linarith
  obtain ⟨m, e, hmin, -, hm, rfl⟩ := hy
  obtain ⟨n, hn, h1, h2⟩ := next_eq f up x
  rw [hn] at h ⊢
  have hu := two_zpow_pos (f.lastPlace x)
  by_cases he : f.lastPlace x ≤ e - f.fracBits
  · obtain ⟨k, hk⟩ := two_zpow_whole he
    have hmk : (m : Rat) * 2 ^ (e - f.fracBits) = ((m * k : Int) : Rat) * 2 ^ f.lastPlace x := by
      rw [hk]; push_cast; ring
    rw [hmk] at h ⊢
    rcases h with ⟨ha, hb⟩ | ⟨ha, hb⟩
    · exact le_antisymm hb (mul_le_mul_of_nonneg_right (by exact_mod_cast h2 _ ha) hu.le)
    · exact le_antisymm (mul_le_mul_of_nonneg_right (by exact_mod_cast h1 _ hb) hu.le) ha
  · exfalso
    obtain ⟨k, hyk, hkx⟩ := abs_lt_of_finer h0 (not_le.1 he) hmin hm
    obtain ⟨hy1, hy2⟩ := abs_lt.1 hyk
    rcases abs_cases x with ⟨hx, -⟩ | ⟨hx, -⟩ <;> rw [hx] at hkx
    · have hq : (k : Rat) * 2 ^ f.lastPlace x ≤ n * 2 ^ f.lastPlace x :=
        mul_le_mul_of_nonneg_right (by exact_mod_cast h1 _ hkx) hu.le
      rcases h with h | h <;> linarith
    · have hq : (n : Rat) * 2 ^ f.lastPlace x ≤ ((-k : Int) : Rat) * 2 ^ f.lastPlace x :=
        mul_le_mul_of_nonneg_right (by exact_mod_cast h2 (-k) (by push_cast; linarith)) hu.le
      push_cast at hq
      rcases h with h | h <;> linarith

/-- Within the range of the format, `next` is a number of the format. -/
theorem inFormat_next {up : Bool} (hx : |x| ≤ f.largest) : inFormat f (f.next up x) := by
  by_cases h0 : x = 0
  · subst h0; rw [next_zero]
    exact ⟨0, f.minExp, le_rfl, by unfold BinaryFmt.maxExp; omega, by simp, by simp⟩
  obtain ⟨n, hn, h1, h2⟩ := next_eq f up x
  have hu := two_zpow_pos (f.lastPlace x)
  obtain ⟨hlo, hhi⟩ := abs_lt.1 (abs_lt_of_lastPlace f x)
  have hn2 : n ≤ 2 ^ (f.fracBits + 1) := h2 _ (by push_cast; exact hhi.le)
  have hn1 : -2 ^ (f.fracBits + 1) ≤ n := h1 _ (by push_cast; linarith)
  have hlog : Int.log 2 |x| < f.maxExp + 1 := by
    rw [← zpow_lt_zpow_iff_right₀ (a := (2 : Rat)) (by norm_num)]
    have hle : (2 : Rat) ^ Int.log 2 |x| ≤ |x| := by
      exact_mod_cast Int.zpow_log_le_self (b := 2) (by norm_num) (abs_pos.2 h0)
    refine (hle.trans hx).trans_lt ?_
    have h3 := two_zpow_pos (f.maxExp - f.fracBits)
    rw [BinaryFmt.largest, two_zpow_split (f.maxExp + 1) (f.maxExp - f.fracBits),
      show f.maxExp + 1 - (f.maxExp - f.fracBits) = ((f.fracBits + 1 : Nat) : Int) by push_cast; ring, zpow_natCast]
    linarith
  have hspan : f.minExp ≤ f.maxExp := by unfold BinaryFmt.maxExp; omega
  have hplace : f.lastPlace x + f.fracBits = max (Int.log 2 |x|) f.minExp := by unfold BinaryFmt.lastPlace; omega
  have hdef : f.lastPlace x + f.fracBits - f.fracBits = f.lastPlace x := by ring
  by_cases hlt : |n| < 2 ^ (f.fracBits + 1)
  · exact ⟨n, f.lastPlace x + f.fracBits, by omega, by omega, hlt, by rw [hn, hdef]⟩
  · have hmax : f.lastPlace x + f.fracBits ≠ f.maxExp := fun he => hlt <| by
      have hl : f.largest = (2 ^ (f.fracBits + 1) - 1) * 2 ^ f.lastPlace x := by
        rw [BinaryFmt.largest, ← he, hdef]
      rw [hl, abs_le] at hx
      have h3 := h2 (2 ^ (f.fracBits + 1) - 1) (by push_cast; exact hx.2)
      have h4 := h1 (-(2 ^ (f.fracBits + 1) - 1)) (by push_cast; linarith [hx.1])
      rw [abs_lt]; constructor <;> linarith
    have hpow : (2 : Rat) ^ (f.fracBits + 1) * 2 ^ f.lastPlace x =
        2 ^ f.fracBits * 2 ^ (f.lastPlace x + f.fracBits + 1 - f.fracBits) := by
      rw [show f.lastPlace x + f.fracBits + 1 - f.fracBits = f.lastPlace x + 1 by ring, zpow_add_one₀ (by norm_num)]
      ring
    have hsmall : (2 : Int) ^ f.fracBits < 2 ^ (f.fracBits + 1) := by
      rw [pow_succ]; linarith [pow_pos (show (0 : Int) < 2 by norm_num) f.fracBits]
    have hpos : (0 : Int) < 2 ^ f.fracBits := by positivity
    have hn3 : n = 2 ^ (f.fracBits + 1) ∨ n = -2 ^ (f.fracBits + 1) := by
      rcases abs_cases n with ⟨ha, -⟩ | ⟨ha, -⟩ <;> rw [ha] at hlt
      · exact .inl (by linarith)
      · exact .inr (by linarith)
    rcases hn3 with hn3 | hn3 <;> subst hn3
    · exact ⟨2 ^ f.fracBits, f.lastPlace x + f.fracBits + 1, by omega, by omega, by rwa [abs_of_pos hpos],
        by rw [hn]; push_cast; exact hpow⟩
    · exact ⟨-2 ^ f.fracBits, f.lastPlace x + f.fracBits + 1, by omega, by omega, by rwa [abs_neg, abs_of_pos hpos],
        by rw [hn]; push_cast; rw [neg_mul, neg_mul, hpow]⟩

/-- The numbers of a format as the model decides them are those of its definition. -/
theorem inFormat_of_holds (h : f.holds y = true) : inFormat f y := by
  simp only [BinaryFmt.holds, decide_eq_true_eq] at h
  exact h.1 ▸ inFormat_next h.2

/-- The largest number is a number of the format. -/
theorem inFormat_largest (f : BinaryFmt) : inFormat f f.largest ∧ inFormat f (-f.largest) := by
  have hpos : (0 : Int) < 2 ^ (f.fracBits + 1) := by positivity
  have habs : |(2 : Int) ^ (f.fracBits + 1) - 1| < 2 ^ (f.fracBits + 1) := by rw [abs_of_nonneg (by omega)]; omega
  have hspan : f.minExp ≤ f.maxExp := by unfold BinaryFmt.maxExp; omega
  refine ⟨⟨2 ^ (f.fracBits + 1) - 1, f.maxExp, hspan, le_rfl, habs, ?_⟩,
    ⟨-(2 ^ (f.fracBits + 1) - 1), f.maxExp, hspan, le_rfl, by rwa [abs_neg], ?_⟩⟩
  · rw [BinaryFmt.largest]; push_cast; ring
  · rw [BinaryFmt.largest]; push_cast; ring

/-- Within the range of the format, `next` stays in it. -/
theorem abs_next_le {up : Bool} (hx : |x| ≤ f.largest) : |f.next up x| ≤ f.largest := by
  obtain ⟨h1, h2⟩ := abs_le.1 hx
  obtain ⟨hp, hm⟩ := inFormat_largest f
  by_contra h
  rw [abs_le, not_and_or, not_le, not_le] at h
  rcases h with h | h
  · exact absurd (next_neighbour hm (.inr ⟨h.le, h1⟩)) h.ne'
  · exact absurd (next_neighbour hp (.inl ⟨h2, h.le⟩)) h.ne

/-- `next` that stays in the range of the format is a number of the format, also where `x` is beyond that range. -/
theorem inFormat_of_next_le {up : Bool} (h : |f.next up x| ≤ f.largest) : inFormat f (f.next up x) := by
  by_cases hx : |x| ≤ f.largest
  · exact inFormat_next hx
  · obtain ⟨h1, h2⟩ := abs_le.1 h
    obtain ⟨hp, hm⟩ := inFormat_largest f
    rcases lt_abs.1 (not_le.1 hx) with hx | hx
    · exact next_neighbour hp (.inr ⟨h2, hx.le⟩) ▸ hp
    · exact next_neighbour hm (.inl ⟨by linarith, h1⟩) ▸ hm

/-- Every floating result represents its exact value. -/
theorem represents_floatValue (c : Config) (x : Rat) : Represents c x (floatValue c x) := by
  refine ⟨fun h => by simp [floatValue, h], fun f hf => ?_⟩
  simp only [floatValue, hf]
  split
  · rename_i hle
    exact .inl ⟨_, rfl, inFormat_of_next_le hle, fun _ y _ h => next_neighbour ‹_› h⟩
  · rename_i hgt
    have hx : f.largest < |x| := not_le.1 fun h => hgt (abs_next_le h)
    split
    · rename_i q _
      exact .inl ⟨_, rfl, inFormat_of_holds q.property, fun h => absurd hx h.not_gt⟩
    · exact .inr ⟨hx, _, rfl⟩

/-- Where `FLOAT_FMT` is exact the floating result is the exact value. -/
@[simp] theorem floatValue_exact {c : Config} (h : c.floatFmt = .exact) (x : Rat) : floatValue c x = .rat x := by
  simp [floatValue, h]

end Sys2Proof.Machine
end

