-- ==== Sys2Proof/Laws/Follows.lean ====
section
/-! SUPPORT. How a part of an operation that sends a fixed list of events comes out, said once for every list: done where the
environment answers them all, ended by the first write that fails, blocked by the first transfer that is not answered. -/

namespace Sys2Proof.Machine

/-- The transfer of an event, where the environment does not answer it in `s`. -/
def unanswered (s : State) : Event → Option Transfer
  | .wrote h bus addr bytes _ => if answerWrite s bus addr bytes = none then some (.write h bytes) else none
  | .read h bus addr n _ => if answerRead s bus addr n = none then some (.read h n) else none
  | .opened _ _ _ _ | .delayed _ _ | .closed _ => none

/-- Under the parameters `c`, the part `f` of an operation sends the events `es` in order and yields `a`. -/
structure Follows (c : Config) {α : Type} (f : State → Run α) (es : List Event) (a : α) : Prop where
  ok : ∀ s, s.config = c → environmentPlays s es = true → f s = .done a (s.played es)
  fails : ∀ s k e, s.config = c → es[k]? = some e → isWrite e = true →
    environmentPlays s (es.take k ++ [refusedByBus e]) = true →
    f s = .raised .writeFailed (s.played (es.take k ++ [refusedByBus e]))
  blocks : ∀ s k e x, s.config = c → es[k]? = some e → environmentPlays s (es.take k) = true →
    unanswered (s.played (es.take k)) e = some x → f s = .hung ((s.played (es.take k)).blockedOn x)

theorem follows_done (c : Config) {α : Type} (a : α) : Follows c (fun s => .done a s) [] a :=
  ⟨by simp, by simp, by simp⟩

/-- One part after another: the events of the one, then those of the other. -/
theorem follows_andThen {c : Config} {α β : Type} {f : State → Run α} {g : α → State → Run β} {es es' : List Event}
    {a : α} {b : β} (hf : Follows c f es a) (hg : Follows c (g a) es' b) :
    Follows c (fun s => (f s).andThen g) (es ++ es') b := by
  refine ⟨fun s hc hp => ?_, fun s k e hc hk hw hp => ?_, fun s k e x hc hk hp hx => ?_⟩
  · rw [environmentPlays_append, Bool.and_eq_true] at hp
    rw [hf.ok s hc hp.1, andThen_done, hg.ok _ (by simpa using hc) hp.2, played_played]
  · by_cases h : k < es.length
    · rw [List.getElem?_append_left h] at hk
      rw [List.take_append_of_le_length h.le] at hp ⊢
      rw [hf.fails s k e hc hk hw hp, andThen_raised]
    · have h := not_lt.1 h
      rw [List.getElem?_append_right h] at hk
      rw [List.take_append, List.take_of_length_le h, List.append_assoc] at hp ⊢
      rw [environmentPlays_append, Bool.and_eq_true] at hp
      rw [hf.ok s hc hp.1, andThen_done, hg.fails _ _ e (by simpa using hc) hk hw hp.2, played_played]
  · by_cases h : k < es.length
    · rw [List.getElem?_append_left h] at hk
      rw [List.take_append_of_le_length h.le] at hp hx ⊢
      rw [hf.blocks s k e x hc hk hp hx, andThen_hung]
    · have h := not_lt.1 h
      rw [List.getElem?_append_right h] at hk
      rw [List.take_append, List.take_of_length_le h] at hp hx ⊢
      rw [environmentPlays_append, Bool.and_eq_true] at hp
      rw [← played_played] at hx ⊢
      rw [hf.ok s hc hp.1, andThen_done, hg.blocks _ _ e x (by simpa using hc) hk hp.2 hx]

/-- One event. -/
theorem follows_one {c : Config} {α : Type} {f : State → Run α} {e : Event} {a : α}
    (ok : ∀ s, environmentPlays s [e] = true → f s = .done a (s.played [e]))
    (fails : ∀ s, isWrite e = true → environmentPlays s [refusedByBus e] = true →
      f s = .raised .writeFailed (s.played [refusedByBus e]))
    (blocks : ∀ s x, unanswered s e = some x → f s = .hung (s.blockedOn x)) : Follows c f [e] a := by
  refine ⟨fun s _ => ok s, fun s k d _ hk hw hp => ?_, fun s k d x _ hk _ hx => ?_⟩ <;>
    obtain ⟨rfl, rfl⟩ : k = 0 ∧ e = d := by cases k <;> simp_all
  · simpa using fails s hw (by simpa using hp)
  · simpa using blocks s x (by simpa using hx)

theorem follows_sendFrame (c : Config) (h : HandleId) (r : HandleRec) (bytes : List Byte) :
    Follows c (sendFrame h r bytes) [wrote h r bytes .ok] () := by
  refine follows_one (fun s => sendFrame_ok) (fun s _ => sendFrame_fail) fun s x hx => ?_
  simp only [unanswered, wrote, Option.ite_none_right_eq_some, Option.some.injEq] at hx
  rw [sendFrame_hung hx.1, hx.2]

theorem follows_writeByte (c : Config) (h : HandleId) (r : HandleRec) (reg value : Byte) :
    Follows c (writeByte h r reg value) [wrote h r [reg, value] .ok] () :=
  follows_sendFrame c h r _

theorem follows_delay (c : Config) (h : HandleId) (ms : Rat) : Follows c (delay h ms) [.delayed h ms] () :=
  follows_one (fun s _ => delay_plays s h ms) (by simp [isWrite]) (by simp [unanswered])

theorem follows_busRead (c : Config) (h : HandleId) (r : HandleRec) (n : Nat) (a : ReadAnswer) :
    Follows c (busRead h r n) [.read h r.bus r.addr n a] a := by
  refine follows_one (fun s => busRead_of_plays) (by simp [isWrite]) fun s x hx => ?_
  simp only [unanswered, Option.ite_none_right_eq_some, Option.some.injEq] at hx
  simp [busRead, hx.1, ← hx.2]

theorem follows_readBytes (c : Config) (h : HandleId) (r : HandleRec) (reg : Byte) (l : List Byte) :
    Follows c (readBytes h r reg l.length) (regRead h r reg l) l :=
  follows_andThen (follows_sendFrame c h r [reg])
    (follows_andThen (es' := []) (follows_busRead c h r l.length (.bytes l)) (by
      simpa using follows_done c l))

theorem follows_readByte (c : Config) (h : HandleId) (r : HandleRec) (reg b : Byte) :
    Follows c (readByte h r reg) (regRead h r reg [b]) b :=
  follows_andThen (es' := []) (follows_readBytes c h r reg [b]) (follows_done c b)

theorem follows_readHalf (c : Config) (h : HandleId) (r : HandleRec) (reg b0 b1 : Byte) :
    Follows c (readHalf h r reg) (regRead h r reg [b0, b1]) (bigEndian b0 b1) :=
  follows_andThen (es' := []) (follows_readBytes c h r reg [b0, b1]) (follows_done c _)

theorem follows_writeBytes (c : Config) (h : HandleId) (r : HandleRec) (l : List (Byte × Byte)) :
    Follows c (writeBytes h r l) (wroteAll h r l) () := by
  induction l with
  | nil => exact follows_done c ()
  | cons p l ih => exact follows_andThen (follows_writeByte c h r p.1 p.2) ih

/-- A part that depends on the parameters only through what they are at its start. -/
theorem follows_config {c : Config} {α : Type} {f : Config → State → Run α} {es : List Event} {a : α}
    (hf : Follows c (f c) es a) : Follows c (fun s => f s.config s) es a :=
  ⟨fun s hc => by rw [hc]; exact hf.ok s hc, fun s k e hc => by rw [hc]; exact hf.fails s k e hc,
    fun s k e x hc => by rw [hc]; exact hf.blocks s k e x hc⟩

theorem follows_unitAfter {c : Config} {f : State → Run Unit} {es : List Event} (hf : Follows c f es ()) :
    Follows c (fun s => unitAfter (f s)) es Value.unit := by
  have h := follows_andThen (g := fun _ s => .done Value.unit s) hf (follows_done c Value.unit)
  rwa [List.append_nil] at h

/-! ## The PWM operations -/

theorem follows_setRegs (c : Config) (h : HandleId) (r : HandleRec) (ch : Nat) (on off : Int) :
    Follows c (setRegs h r ch on off) (wroteAll h r (channelBytes c.pwmReg ch on off)) () :=
  follows_config (f := fun c => writeBytes h r (channelBytes c.pwmReg ch on off)) (follows_writeBytes c h r _)

theorem follows_setAllRegs (c : Config) (h : HandleId) (r : HandleRec) (on off : Int) :
    Follows c (setAllRegs h r on off) (wroteAll h r (allChannelBytes c.pwmReg on off)) () :=
  follows_config (f := fun c => writeBytes h r (allChannelBytes c.pwmReg on off)) (follows_writeBytes c h r _)

theorem follows_changePrescale (c : Config) (h : HandleId) (r : HandleRec) (p old : Byte) :
    Follows c (changePrescale h r p) (setFreqEvents c h r old p) () :=
  follows_andThen (follows_config (f := fun c => readByte h r c.pwmReg.mode1) (follows_readByte c h r _ old)) <|
  follows_andThen
    (follows_config (f := fun c => writeByte h r c.pwmReg.mode1 (old ||| c.sleep)) (follows_writeByte c h r _ _)) <|
  follows_andThen (follows_config (f := fun c => writeByte h r c.pwmReg.prescale p) (follows_writeByte c h r _ _)) <|
  follows_andThen (follows_config (f := fun c => writeByte h r c.pwmReg.mode1 old) (follows_writeByte c h r _ _)) <|
  follows_andThen (follows_config (f := fun c => delay h c.tPwmFreqSettle) (follows_delay c h _)) <|
  follows_config (f := fun c => writeByte h r c.pwmReg.mode1 (old ||| c.restart)) (follows_writeByte c h r _ _)

theorem follows_bringup (c : Config) (h : HandleId) (r : HandleRec) (m : Byte) :
    Follows c (bringup h r) (bringupEvents c h r m) () :=
  follows_andThen (es := wroteAll h r (allChannelBytes c.pwmReg 0 0)) (follows_setAllRegs c h r 0 0) <|
  follows_andThen (follows_config (f := fun c => writeByte h r c.pwmReg.mode2 c.outdrv) (follows_writeByte c h r _ _)) <|
  follows_andThen (follows_config (f := fun c => writeByte h r c.pwmReg.mode1 c.allcall) (follows_writeByte c h r _ _)) <|
  follows_andThen (follows_config (f := fun c => delay h c.tPwmBringupSettle) (follows_delay c h _)) <|
  follows_andThen (follows_config (f := fun c => readByte h r c.pwmReg.mode1) (follows_readByte c h r _ m)) <|
  follows_andThen
    (follows_config (f := fun c => writeByte h r c.pwmReg.mode1 (m &&& ~~~c.sleep)) (follows_writeByte c h r _ _)) <|
  follows_config (f := fun c => delay h c.tPwmBringupSettle) (follows_delay c h _)

end Sys2Proof.Machine
end

