-- ==== Sys2Proof/Laws/Numeric.lean ====
section
/-! SUPPORT. What each numeric operation computes, in terms of the library's arithmetic. -/

namespace Sys2Proof.Machine

/-- An integer that is farther from zero than something is at least 1 away from zero. -/
theorem one_le_abs_of_lt {x : Rat} {p : Int} (h : |x| < |(p : Rat)|) :
    (p : Rat) ≤ -1 ∧ |(p : Rat)| = -p ∨ 1 ≤ (p : Rat) ∧ |(p : Rat)| = p := by
  have hp : p ≠ 0 := by
    rintro rfl
    simp only [Int.cast_zero, abs_zero] at h
    exact absurd h (not_lt.2 (abs_nonneg x))
  rcases lt_or_gt_of_ne hp with hn | hn
  · have : (p : Rat) ≤ -1 := by exact_mod_cast (show p ≤ -1 by omega)
    exact .inl ⟨this, abs_of_nonpos (by linarith)⟩
  · have : (1 : Rat) ≤ p := by exact_mod_cast hn
    exact .inr ⟨this, abs_of_nonneg (by linarith)⟩

/-- Rounding to nearest, halves away from zero, has one result. -/
theorem roundsTo_unique {x : Rat} {p q : Int} (hp : roundsTo x p) (hq : roundsTo x q) : p = q := by
  by_contra hne
  have h1 : (1 : Rat) ≤ |(p : Rat) - (q : Rat)| := by
    have : (1 : Int) ≤ |p - q| := Int.one_le_abs (sub_ne_zero.2 hne)
    exact_mod_cast this
  have htri : |(p : Rat) - (q : Rat)| ≤ |x - (p : Rat)| + |x - (q : Rat)| := by
    have := abs_sub_le (p : Rat) x (q : Rat)
    rwa [abs_sub_comm (p : Rat) x] at this
  rcases hp with hp | ⟨hp, hpa⟩
  · rcases hq with hq | ⟨hq, -⟩ <;> linarith
  · rcases hq with hq | ⟨hq, hqa⟩
    · linarith
    · have hne' : (p : Rat) ≠ q := by exact_mod_cast hne
      rcases abs_cases (x - (p : Rat)) with ⟨e1, -⟩ | ⟨e1, -⟩ <;>
        rcases abs_cases (x - (q : Rat)) with ⟨e2, -⟩ | ⟨e2, -⟩ <;>
        rcases abs_cases x with ⟨e3, h3⟩ | ⟨e3, h3⟩ <;>
        rcases one_le_abs_of_lt hpa with ⟨h4, e4⟩ | ⟨h4, e4⟩ <;>
        rcases one_le_abs_of_lt hqa with ⟨h5, e5⟩ | ⟨h5, e5⟩ <;>
        first | linarith | exact hne' (by linarith)

/-- The floor is within one below. -/
theorem lt_floor_plus_one (x : Rat) : x < ((x.floor : Int) : Rat) + 1 := by
  have := Rat.lt_floor_add_one x
  push_cast at this
  exact this

/-- The model's `round` rounds to nearest, halves away from zero (R10). -/
theorem roundHalfAway_roundsTo (x : Rat) : roundsTo x (roundHalfAway x) := by
  unfold roundHalfAway roundsTo
  split
  · rename_i hx
    have h1 := Rat.floor_le (x + 1 / 2)
    have h2 := lt_floor_plus_one (x + 1 / 2)
    rcases lt_or_eq_of_le (show (((x + 1 / 2).floor : Int) : Rat) - x ≤ 1 / 2 by linarith) with h3 | h3
    · left; rw [abs_lt]; constructor <;> linarith
    · right
      constructor
      · rw [abs_of_nonpos (by linarith)]; linarith
      · rw [abs_of_nonneg hx, abs_of_nonneg (by linarith)]; linarith
  · rename_i hx
    have hx : x < 0 := not_le.1 hx
    have h1 := Rat.floor_le (-x + 1 / 2)
    have h2 := lt_floor_plus_one (-x + 1 / 2)
    push_cast
    rcases lt_or_eq_of_le (show (((-x + 1 / 2).floor : Int) : Rat) + x ≤ 1 / 2 by linarith) with h3 | h3
    · left; rw [abs_lt]; constructor <;> linarith
    · right
      constructor
      · rw [abs_of_nonneg (by linarith)]; linarith
      · rw [abs_of_neg hx, abs_neg, abs_of_nonneg (by linarith)]; linarith

theorem roundHalfAway_eq {x : Rat} {p : Int} (h : roundsTo x p) : roundHalfAway x = p :=
  roundsTo_unique (roundHalfAway_roundsTo x) h

theorem quot_eq_tdiv (a b : Int) : quot a b = Int.tdiv a b := rfl

theorem rem_eq_tmod (a b : Int) : rem a b = Int.tmod a b := by
  have := Int.mul_tdiv_add_tmod a b
  simp only [rem, quot]; omega

theorem emod_eq_emod (a b : Int) : emod a b = a % b := rfl

theorem trunc_le_abs (x : Rat) : |x - (trunc x : Rat)| < 1 := by
  unfold trunc
  split
  · have h1 := Rat.floor_le x
    have h2 := lt_floor_plus_one x
    rw [abs_lt]; constructor <;> linarith
  · have h1 := Rat.floor_le (-x)
    have h2 := lt_floor_plus_one (-x)
    push_cast
    rw [abs_lt]; constructor <;> linarith

theorem s16_eq_toInt (u : Half) : s16 u = u.toInt := by
  have := u.isLt
  simp only [s16, BitVec.toInt]
  split <;> split <;> omega

theorem prescale_argument {freq : Rat} (h : 0 < freq) :
    pwmOscHz / pwmTicks / freq - 1 = 390625 / (64 * freq) - 1 := by
  have : freq ≠ 0 := ne_of_gt h
  unfold pwmOscHz pwmTicks
  rw [div_div, show (4096 : Rat) * freq = 64 * (64 * freq) by ring,
    show (25000000 : Rat) = 64 * 390625 by norm_num, mul_div_mul_left _ _ (by norm_num)]

theorem prescaleOf_eq {freq : Rat} {p : Int} (h : 0 < freq) (hp : roundsTo (390625 / (64 * freq) - 1) p) :
    prescaleOf freq = p := by
  unfold prescaleOf
  rw [prescale_argument h]
  exact roundHalfAway_eq hp

theorem ticksMs_eq {ms freq : Rat} {p : Int} (hp : roundsTo (ms * 4096 * freq / 1000) p) :
    ticksMs ms freq = p := by
  unfold ticksMs
  rw [show ms * (4096 * freq / 1000) = ms * 4096 * freq / 1000 by ring]
  exact roundHalfAway_eq hp

theorem channelAddr_toNat {base : Byte} {ch : Nat} (h : base.toNat + 4 * ch ≤ 0xFF) :
    (channelAddr base ch).toNat = base.toNat + 4 * ch := by
  unfold channelAddr
  rw [if_pos (by omega), BitVec.toNat_ofNat, Nat.mod_eq_of_lt (by omega)]

theorem channelAddr_eq {base a : Byte} {ch : Nat} (h : a.toNat = base.toNat + 4 * ch) : channelAddr base ch = a := by
  have ha := a.isLt
  unfold channelAddr
  rw [if_pos (by omega), ← h]
  exact BitVec.eq_of_toNat_eq (by simp)

theorem bigEndian_eq (b0 b1 : Byte) : bigEndian b0 b1 = BitVec.ofNat 16 (256 * b0.toNat + b1.toNat) := by
  have h1 := b0.isLt
  have h2 := b1.isLt
  apply BitVec.eq_of_toNat_eq
  unfold bigEndian
  rw [BitVec.toNat_append, BitVec.toNat_ofNat, ← Nat.shiftLeft_add_eq_or_of_lt h2, Nat.shiftLeft_eq]
  omega

end Sys2Proof.Machine
end

