-- ==== Sys2Proof/Laws/PerInstr.lean ====
section
/-! SUPPORT. For every instruction as syntax: its encoding has a row in the opcode map (30_encoding.md R78), and that
row's format has as many operands as the encoding (R76). -/

namespace Sys2Proof.Laws.OpcodeRow

/-- The instruction's opcode is a row's, and its operand tuple has the length of that row's format. -/
def Statement (i : Instr) : Prop :=
  ∃ row ∈ opRows, row.op = (encode i).op ∧ (encode i).operands.length = row.format.arity

theorem openHandle (bus : String) (addr : BusAddr) : Statement (.openHandle bus addr) :=
  ⟨opRows[0]'(by decide), by decide, rfl, rfl⟩

theorem closeHandle (h : HandleId) : Statement (.closeHandle h) :=
  ⟨opRows[1]'(by decide), by decide, rfl, rfl⟩

theorem readReg (h : HandleId) (reg : Byte) (len : Byte) : Statement (.readReg h reg len) :=
  ⟨opRows[2]'(by decide), by decide, rfl, rfl⟩

theorem writeReg (h : HandleId) (reg : Byte) (value : Half) (len : Byte) : Statement (.writeReg h reg value len) :=
  ⟨opRows[3]'(by decide), by decide, rfl, rfl⟩

theorem writeRaw (h : HandleId) (bytes : List Byte) : Statement (.writeRaw h bytes) :=
  ⟨opRows[4]'(by decide), by decide, rfl, rfl⟩

theorem asRead (h : HandleId) (areg : AngleReg) : Statement (.asRead h areg) :=
  ⟨opRows[5]'(by decide), by decide, rfl, rfl⟩

theorem asWrite (h : HandleId) (areg : AngleReg) (value : Half) : Statement (.asWrite h areg value) :=
  ⟨opRows[6]'(by decide), by decide, rfl, rfl⟩

theorem asBurn (h : HandleId) (cmd : BurnCmd) : Statement (.asBurn h cmd) :=
  ⟨opRows[7]'(by decide), by decide, rfl, rfl⟩

theorem asMaxPos (zeroPos : Half) (range : Half) : Statement (.asMaxPos zeroPos range) :=
  ⟨opRows[8]'(by decide), by decide, rfl, rfl⟩

theorem asRaw2DegI (raw : Half) (zeroPos : Half) (maxPos : Half) : Statement (.asRaw2DegI raw zeroPos maxPos) :=
  ⟨opRows[9]'(by decide), by decide, rfl, rfl⟩

theorem asRaw2DegF (raw : Half) (zeroPos : Half) (maxPos : Half) : Statement (.asRaw2DegF raw zeroPos maxPos) :=
  ⟨opRows[10]'(by decide), by decide, rfl, rfl⟩

theorem asDeg2RawI (deg : Int) : Statement (.asDeg2RawI deg) :=
  ⟨opRows[11]'(by decide), by decide, rfl, rfl⟩

theorem asDeg2RawF (deg : Rat) : Statement (.asDeg2RawF deg) :=
  ⟨opRows[12]'(by decide), by decide, rfl, rfl⟩

theorem asStatusScale (x : Byte) : Statement (.asStatusScale x) :=
  ⟨opRows[13]'(by decide), by decide, rfl, rfl⟩

theorem imuInit (h : HandleId) : Statement (.imuInit h) :=
  ⟨opRows[14]'(by decide), by decide, rfl, rfl⟩

theorem imuRead (h : HandleId) (ireg : ImuReg) : Statement (.imuRead h ireg) :=
  ⟨opRows[15]'(by decide), by decide, rfl, rfl⟩

theorem imuWrite (h : HandleId) (ireg : ImuReg) (value : Byte) : Statement (.imuWrite h ireg value) :=
  ⟨opRows[16]'(by decide), by decide, rfl, rfl⟩

theorem imuS16 (x : Half) : Statement (.imuS16 x) :=
  ⟨opRows[17]'(by decide), by decide, rfl, rfl⟩

theorem imuTempC (raw : Half) : Statement (.imuTempC raw) :=
  ⟨opRows[18]'(by decide), by decide, rfl, rfl⟩

theorem imuAccelScale (cfg : Byte) : Statement (.imuAccelScale cfg) :=
  ⟨opRows[19]'(by decide), by decide, rfl, rfl⟩

theorem imuGyroScale (cfg : Byte) : Statement (.imuGyroScale cfg) :=
  ⟨opRows[20]'(by decide), by decide, rfl, rfl⟩

theorem imuAccelConv (raw : Half) (cfg : Byte) (ms2 : Bool) : Statement (.imuAccelConv raw cfg ms2) :=
  ⟨opRows[21]'(by decide), by decide, rfl, rfl⟩

theorem imuGyroConv (raw : Half) (cfg : Byte) : Statement (.imuGyroConv raw cfg) :=
  ⟨opRows[22]'(by decide), by decide, rfl, rfl⟩

theorem imuReadTemp (h : HandleId) : Statement (.imuReadTemp h) :=
  ⟨opRows[23]'(by decide), by decide, rfl, rfl⟩

theorem imuReadAccel (h : HandleId) (axis : Axis) (ms2 : Bool) : Statement (.imuReadAccel h axis ms2) :=
  ⟨opRows[24]'(by decide), by decide, rfl, rfl⟩

theorem imuReadGyro (h : HandleId) (axis : Axis) : Statement (.imuReadGyro h axis) :=
  ⟨opRows[25]'(by decide), by decide, rfl, rfl⟩

theorem pwmBringup (h : HandleId) : Statement (.pwmBringup h) :=
  ⟨opRows[26]'(by decide), by decide, rfl, rfl⟩

theorem pwmSetChannel (h : HandleId) (ch : Nat) (on : Int) (off : Int) : Statement (.pwmSetChannel h ch on off) :=
  ⟨opRows[27]'(by decide), by decide, rfl, rfl⟩

theorem pwmSetAll (h : HandleId) (on : Int) (off : Int) : Statement (.pwmSetAll h on off) :=
  ⟨opRows[28]'(by decide), by decide, rfl, rfl⟩

theorem pwmPrescale (freq : Rat) : Statement (.pwmPrescale freq) :=
  ⟨opRows[29]'(by decide), by decide, rfl, rfl⟩

theorem pwmSetFreq (h : HandleId) (freq : Rat) : Statement (.pwmSetFreq h freq) :=
  ⟨opRows[30]'(by decide), by decide, rfl, rfl⟩

theorem pwmTicksMs (ms : Rat) (freq : Rat) : Statement (.pwmTicksMs ms freq) :=
  ⟨opRows[31]'(by decide), by decide, rfl, rfl⟩

theorem pwmSetPulseMs (h : HandleId) (ch : Nat) (ms : Rat) : Statement (.pwmSetPulseMs h ch ms) :=
  ⟨opRows[32]'(by decide), by decide, rfl, rfl⟩

end Sys2Proof.Laws.OpcodeRow
end

