-- ==== Sys2Proof/Laws/Table.lean ====
section
/-! SUPPORT. What the table operations do to one id, and that they keep the canonical form. -/

namespace Sys2Proof.Machine

variable {α : Type}

@[simp] theorem lookup_nil (i : HandleId) : lookup i ([] : List (HandleId × α)) = none := rfl

@[simp] theorem lookup_insert_self (i : HandleId) (a : α) (t : List (HandleId × α)) :
    lookup i (insert i a t) = some a := by
  induction t with
  | nil => simp [insert, lookup]
  | cons p t ih =>
    obtain ⟨k, v⟩ := p
    simp only [insert]
    split
    · simp [lookup]
    · split
      · simp [lookup]
      · rename_i h; simp [lookup, h, ih]

theorem lookup_insert_of_ne {i j : HandleId} (h : j ≠ i) (a : α) (t : List (HandleId × α)) :
    lookup j (insert i a t) = lookup j t := by
  induction t with
  | nil => simp [insert, lookup, Ne.symm h]
  | cons p t ih =>
    obtain ⟨k, v⟩ := p
    simp only [insert]
    split
    · simp [lookup, Ne.symm h]
    · split
      · rename_i hk; subst hk; simp [lookup, Ne.symm h]
      · simp [lookup, ih]

@[simp] theorem lookup_erase_self (i : HandleId) (t : List (HandleId × α)) :
    lookup i (erase i t) = none := by
  induction t with
  | nil => rfl
  | cons p t ih =>
    obtain ⟨k, v⟩ := p
    simp only [erase]
    split
    · exact ih
    · rename_i h; simp [lookup, h, ih]

theorem lookup_erase_of_ne {i j : HandleId} (h : j ≠ i) (t : List (HandleId × α)) :
    lookup j (erase i t) = lookup j t := by
  induction t with
  | nil => rfl
  | cons p t ih =>
    obtain ⟨k, v⟩ := p
    simp only [erase]
    split
    · rename_i hk; subst hk; simp [lookup, Ne.symm h, ih]
    · simp [lookup, ih]

theorem mem_keys_insert {x i : HandleId} {a : α} {t : List (HandleId × α)}
    (h : x ∈ (insert i a t).map Prod.fst) : x = i ∨ x ∈ t.map Prod.fst := by
  induction t with
  | nil => simpa [insert] using h
  | cons p t ih =>
    obtain ⟨k, v⟩ := p
    simp only [insert] at h
    split at h
    · simpa using h
    · split at h
      · rename_i hk; subst hk; simp at h ⊢; tauto
      · simp only [List.map_cons, List.mem_cons] at h ⊢
        rcases h with h | h
        · exact .inr (.inl h)
        · rcases ih h with h | h
          · exact .inl h
          · exact .inr (.inr h)

/-- `insert` keeps the canonical form. -/
theorem insert_keeps_wf {t : List (HandleId × α)} (i : HandleId) (a : α) (h : TableWf t) :
    TableWf (insert i a t) := by
  induction t with
  | nil => simp [insert, TableWf]
  | cons p t ih =>
    obtain ⟨k, v⟩ := p
    simp only [TableWf, List.map_cons, List.pairwise_cons] at h
    simp only [insert]
    split
    · rename_i hik
      simp only [TableWf, List.map_cons, List.pairwise_cons, List.mem_cons]
      refine ⟨?_, h⟩
      rintro x (rfl | hx)
      · exact hik
      · exact Nat.lt_trans hik (h.1 x hx)
    · split
      · rename_i hk; subst hk
        simpa only [TableWf, List.map_cons, List.pairwise_cons] using h
      · rename_i hik hk
        simp only [TableWf, List.map_cons, List.pairwise_cons]
        refine ⟨fun x hx => ?_, ih h.2⟩
        rcases mem_keys_insert hx with hxi | hx
        · exact hxi ▸ Nat.lt_of_le_of_ne (Nat.le_of_not_lt hik) hk
        · exact h.1 x hx

theorem mem_keys_erase {x i : HandleId} {t : List (HandleId × α)}
    (h : x ∈ (erase i t).map Prod.fst) : x ∈ t.map Prod.fst := by
  induction t with
  | nil => exact h
  | cons p t ih =>
    obtain ⟨k, v⟩ := p
    simp only [erase] at h
    split at h
    · exact List.mem_cons_of_mem _ (ih h)
    · simp only [List.map_cons, List.mem_cons] at h ⊢
      exact h.imp_right ih

/-- `erase` keeps the canonical form. -/
theorem erase_keeps_wf {t : List (HandleId × α)} (i : HandleId) (h : TableWf t) :
    TableWf (erase i t) := by
  induction t with
  | nil => exact h
  | cons p t ih =>
    obtain ⟨k, v⟩ := p
    simp only [TableWf, List.map_cons, List.pairwise_cons] at h
    simp only [erase]
    split
    · exact ih h.2
    · simp only [TableWf, List.map_cons, List.pairwise_cons]
      exact ⟨fun x hx => h.1 x (mem_keys_erase hx), ih h.2⟩

end Sys2Proof.Machine
end

