-- ==== Sys2Proof/Tests/Slice0.lean ====
section
/-! SUPPORT. The model's own tests. Expected results are those of 95_test_vectors.md (numbers S, T and P below, and its
tables) or are worked out by hand from the rules; each runs one operation on a small state whose environment answers as
a script says. The last part shows, for the statements with hypotheses, that the hypotheses can be met. -/

namespace Sys2Proof.Tests

-- one theorem after another: each thread's stack is large
set_option Elab.async false

open Sys2Proof Sys2Proof.Machine

/-! ## Helpers -/

/-- The pair handle 0 is bound to. -/
def entry (addr : BusAddr) : HandleRec := { bus := "1", addr := addr, isOpen := true }

/-- Handle 0 open on bus "1", and the environment's coming answers. -/
def opened (addr : BusAddr) (script : List Answer) : State :=
  { State.reset with handles := [(0, entry addr)], nextHandle := 1, script := script }

/-- Handle 0 closed. -/
def shut (addr : BusAddr) : State :=
  { State.reset with handles := [(0, { entry addr with isOpen := false })], nextHandle := 1, history := [.closed 0] }

def wOk : Answer := .onWrite .ok
def wFail : Answer := .onWrite .fail
def rd (l : List Byte) : Answer := .onRead (.bytes l)
def rFail : Answer := .onRead .fail

/-- The operation ends so, and appends these events. -/
def ends (i : Instr) (s : State) (e : Ending) (es : List Event) : Bool :=
  match exec i s with
  | .next t => t.ending == some e && t.history == s.history ++ es
  | _ => false

/-- The operation comes to a next state with this property. -/
def after (i : Instr) (s : State) (p : State → Bool) : Bool :=
  match exec i s with
  | .next t => p t
  | _ => false

/-- The operation is refused, and performs nothing. -/
def refusedWith (i : Instr) (s : State) (x : RefuseReason) : Bool :=
  match exec i s with
  | .next t => t == { s with refused := true, ending := some (.refused x) }
  | _ => false

/-- The operation returns a value, and performs no transfer. -/
def returns (i : Instr) (v : Value) : Bool := ends i State.reset (.ok v) []

/-! ## Well-formedness: an ill-formed term for each check -/

theorem test_wf_read_len : (Instr.readReg 0 0 3).wellFormed Config.default = false := by decide
theorem test_wf_write_len : (Instr.writeReg 0 0 0 0).wellFormed Config.default = false := by decide
theorem test_wf_raw_empty : (Instr.writeRaw 0 []).wellFormed Config.default = false := by decide
theorem test_wf_raw_long :
    (Instr.writeRaw 0 [1, 2, 3]).wellFormed { Config.default with maxRawLen := some 2 } = false := by decide
theorem test_wf_burn_read : (Instr.asRead 0 .burn).wellFormed Config.default = false := by decide
theorem test_wf_angle_write : (Instr.asWrite 0 .rawAngle 5).wellFormed Config.default = false := by decide
theorem test_wf_imu_write : (Instr.imuWrite 0 .accelX 0).wellFormed Config.default = false := by decide
theorem test_wf_channel : (Instr.pwmSetChannel 0 16 0 0).wellFormed Config.default = false := by decide
theorem test_wf_tick_high : (Instr.pwmSetChannel 0 0 0 4096).wellFormed Config.default = false := by decide
theorem test_wf_tick_low : (Instr.pwmSetAll 0 (-1) 0).wellFormed Config.default = false := by decide
theorem test_wf_pulse_channel : (Instr.pwmSetPulseMs 0 16 1).wellFormed Config.default = false := by decide +kernel
theorem test_wf_prescale_freq : (Instr.pwmPrescale 0).wellFormed Config.default = false := by decide +kernel
theorem test_wf_ticks_freq : (Instr.pwmTicksMs 1 (-1)).wellFormed Config.default = false := by decide +kernel
theorem test_wf_set_freq : (Instr.pwmSetFreq 0 0).wellFormed Config.default = false := by decide +kernel
theorem test_wf_prescale_range : (Instr.pwmSetFreq 0 23).wellFormed Config.default = false := by decide +kernel
theorem test_wf_boundaries :
    (Instr.pwmSetChannel 0 15 0 4095).wellFormed Config.default = true ∧
    (Instr.pwmSetFreq 0 24).wellFormed Config.default = true ∧
    (Instr.readReg 0 0xFF 2).wellFormed Config.default = true := by decide +kernel

/-! ## Decoding: requests written out from 30_encoding.md R76 and R78 -/

theorem test_decode_transport :
    decode ⟨0x01, [.str "1", .num 0x36]⟩ = .ok (.openHandle "1" 0x36) ∧
    decode ⟨0x02, [.num 7]⟩ = .ok (.closeHandle 7) ∧
    decode ⟨0x03, [.num 7, .num 0x0C, .num 2]⟩ = .ok (.readReg 7 0x0C 2) ∧
    decode ⟨0x04, [.num 7, .num 0x01, .num 0x1234, .num 2]⟩ = .ok (.writeReg 7 0x01 0x1234 2) ∧
    decode ⟨0x05, [.num 7, .bytes [.num 0x6B, .num 0x00]]⟩ = .ok (.writeRaw 7 [0x6B, 0x00]) := by decide +kernel

theorem test_decode_angle_bus :
    decode ⟨0x10, [.num 7, .areg .zpos]⟩ = .ok (.asRead 7 .zpos) ∧
    decode ⟨0x11, [.num 7, .areg .zpos, .num 0x0123]⟩ = .ok (.asWrite 7 .zpos 0x0123) ∧
    decode ⟨0x12, [.num 7, .cmd .setting]⟩ = .ok (.asBurn 7 .setting) := by decide +kernel

theorem test_decode_angle_pure :
    decode ⟨0x13, [.num 100, .num 200]⟩ = .ok (.asMaxPos 100 200) ∧
    decode ⟨0x14, [.num 2048, .num 100, .num 300]⟩ = .ok (.asRaw2DegI 2048 100 300) ∧
    decode ⟨0x15, [.num 2048, .num 100, .num 300]⟩ = .ok (.asRaw2DegF 2048 100 300) ∧
    decode ⟨0x16, [.num (-370)]⟩ = .ok (.asDeg2RawI (-370)) ∧
    decode ⟨0x17, [.num (725 / 2)]⟩ = .ok (.asDeg2RawF (725 / 2)) ∧
    decode ⟨0x18, [.num 0x28]⟩ = .ok (.asStatusScale 0x28) := by decide +kernel

theorem test_decode_imu_bus :
    decode ⟨0x20, [.num 7]⟩ = .ok (.imuInit 7) ∧
    decode ⟨0x21, [.num 7, .ireg .accelConfig]⟩ = .ok (.imuRead 7 .accelConfig) ∧
    decode ⟨0x22, [.num 7, .ireg .gyroConfig, .num 0x18]⟩ = .ok (.imuWrite 7 .gyroConfig 0x18) ∧
    decode ⟨0x29, [.num 7]⟩ = .ok (.imuReadTemp 7) ∧
    decode ⟨0x2A, [.num 7, .axis .z, .bool true]⟩ = .ok (.imuReadAccel 7 .z true) ∧
    decode ⟨0x2B, [.num 7, .axis .y]⟩ = .ok (.imuReadGyro 7 .y) := by decide +kernel

theorem test_decode_imu_pure :
    decode ⟨0x23, [.num 0x8000]⟩ = .ok (.imuS16 0x8000) ∧
    decode ⟨0x24, [.num 0xFE0C]⟩ = .ok (.imuTempC 0xFE0C) ∧
    decode ⟨0x25, [.num 0x08]⟩ = .ok (.imuAccelScale 0x08) ∧
    decode ⟨0x26, [.num 0x10]⟩ = .ok (.imuGyroScale 0x10) ∧
    decode ⟨0x27, [.num 0xC000, .num 0x08, .bool false]⟩ = .ok (.imuAccelConv 0xC000 0x08 false) ∧
    decode ⟨0x28, [.num 1000, .num 0x10]⟩ = .ok (.imuGyroConv 1000 0x10) := by decide +kernel

theorem test_decode_pwm :
    decode ⟨0x30, [.num 7]⟩ = .ok (.pwmBringup 7) ∧
    decode ⟨0x31, [.num 7, .num 1, .num 4095, .num 0]⟩ = .ok (.pwmSetChannel 7 1 4095 0) ∧
    decode ⟨0x32, [.num 7, .num 1, .num 2]⟩ = .ok (.pwmSetAll 7 1 2) ∧
    decode ⟨0x33, [.num 50]⟩ = .ok (.pwmPrescale 50) ∧
    decode ⟨0x34, [.num 7, .num 50]⟩ = .ok (.pwmSetFreq 7 50) ∧
    decode ⟨0x35, [.num (3 / 2), .num 50]⟩ = .ok (.pwmTicksMs (3 / 2) 50) ∧
    decode ⟨0x36, [.num 7, .num 3, .num (3 / 2)]⟩ = .ok (.pwmSetPulseMs 7 3 (3 / 2)) := by decide +kernel

theorem test_decode_refuses :
    decode ⟨0x06, [.num 0]⟩ = .error .unknownOpcode ∧
    decode ⟨0x01, [.str "1", .num 0x80]⟩ = .error .badOperand ∧
    decode ⟨0x04, [.num 0, .num 1, .num 0x10000, .num 2]⟩ = .error .badOperand ∧
    decode ⟨0x02, []⟩ = .error .badOperand ∧
    decode ⟨0x02, [.num 0, .num 0]⟩ = .error .badOperand := by decide +kernel

/-- Each of the 256 opcode words decodes exactly where the opcode map has a row. -/
theorem test_table_words : ∀ n < 256, (decodeTableWord 8 n).isSome = (opRow (BitVec.ofNat 8 n)).isSome := by
  decide +kernel

/-- Every row's number of operands is that of its format, and no two rows share an opcode. -/
theorem test_rows : (∀ r ∈ opRows, r.format.zeroOperands.length = r.format.arity) ∧
    (opRows.map fun r => r.op.toNat).Pairwise (· < ·) ∧ opRows.length = 33 := by decide

/-! ## Transport -/

-- T1, T2, T3, T23
theorem test_open : after (.openHandle "1" 0x36) { State.reset with script := [.onOpen .ok] } (fun t =>
    t.ending == some (.ok (.handle 0)) && t.nextHandle == 1 && lookup 0 t.handles == some (entry 0x36) &&
    t.history == [.opened "1" 0x36 .ok (some 0)]) = true := by decide +kernel
theorem test_open_fails :
    ends (.openHandle "9" 0x36) { State.reset with script := [.onOpen .busFail] } (.err .busOpenFailed)
      [.opened "9" 0x36 .busFail none] = true ∧
    ends (.openHandle "1" 0x37) { State.reset with script := [.onOpen .selectFail] } (.err .addressSelectFailed)
      [.opened "1" 0x37 .selectFail none] = true := by decide +kernel
-- T19, T21
theorem test_close : after (.closeHandle 0) (opened 0x36 []) (fun t => t.ending == some (.ok .unit) &&
    lookup 0 t.handles == some { entry 0x36 with isOpen := false } && t.history == [.closed 0]) = true := by
  decide +kernel
theorem test_close_twice : ends (.closeHandle 0) (shut 0x36) (.err .notOpen) [] = true := by decide +kernel
-- T6, T5
theorem test_read_two : ends (.readReg 0 0x0C 2) (opened 0x36 [wOk, rd [0x12, 0x34]]) (.ok (.u16 0x1234))
    [wrote 0 (entry 0x36) [0x0C] .ok, readBack 0 (entry 0x36) 2 [0x12, 0x34]] = true := by decide +kernel
theorem test_read_errors :
    ends (.readReg 0 0x0C 2) (opened 0x36 [wOk, rd [0x12]]) (.err .shortRead)
      [wrote 0 (entry 0x36) [0x0C] .ok, readBack 0 (entry 0x36) 2 [0x12]] = true ∧
    ends (.readReg 0 0x0C 2) (opened 0x36 [wOk, rd []]) (.err .shortRead)
      [wrote 0 (entry 0x36) [0x0C] .ok, readBack 0 (entry 0x36) 2 []] = true ∧
    ends (.readReg 0 0x0C 2) (opened 0x36 [wOk, rFail]) (.err .readFailed)
      [wrote 0 (entry 0x36) [0x0C] .ok, readFails 0 (entry 0x36) 2] = true ∧
    ends (.readReg 0 0x0C 2) (opened 0x36 [wFail]) (.err .writeFailed)
      [wrote 0 (entry 0x36) [0x0C] .fail] = true := by decide +kernel
-- T14, T13
theorem test_write_two : ends (.writeReg 0 0x01 0x1234 2) (opened 0x36 [wOk]) (.ok .unit)
    [wrote 0 (entry 0x36) [0x01, 0x12, 0x34] .ok] = true := by decide +kernel
theorem test_write_one : ends (.writeReg 0 0x01 0x1234 1) (opened 0x36 [wOk]) (.ok .unit)
    [wrote 0 (entry 0x36) [0x01, 0x34] .ok] = true := by decide +kernel
-- T17, T18
theorem test_raw : ends (.writeRaw 0 [0x6B, 0x00]) (opened 0x36 [wOk]) (.ok .unit)
    [wrote 0 (entry 0x36) [0x6B, 0x00] .ok] = true := by decide +kernel
theorem test_raw_empty : refusedWith (.writeRaw 0 []) (opened 0x36 []) .badOperand = true := by decide +kernel
-- T24
theorem test_hang : after (.readReg 0 0x0C 2) (opened 0x36 [wOk, .never]) (fun t => t.ending == none &&
    t.hung == some (.read 0 2) && t.history == [wrote 0 (entry 0x36) [0x0C] .ok]) = true := by decide +kernel

/-! ## Angle sensor -/

theorem test_as_read_raw : ends (.asRead 0 .rawAngle) (opened 0x36 [wOk, rd [0xF0, 0x01]]) (.ok (.u16 0xF001))
    [wrote 0 (entry 0x36) [0x0C] .ok, readBack 0 (entry 0x36) 2 [0xF0, 0x01]] = true := by decide +kernel
theorem test_as_read_status : ends (.asRead 0 .status) (opened 0x36 [wOk, rd [0x28]]) (.ok (.u8 0x28))
    [wrote 0 (entry 0x36) [0x0B] .ok, readBack 0 (entry 0x36) 1 [0x28]] = true := by decide +kernel
theorem test_as_write : ends (.asWrite 0 .zpos 0x0123) (opened 0x36 [wOk]) (.ok .unit)
    [wrote 0 (entry 0x36) [0x01, 0x01, 0x23] .ok] = true := by decide +kernel
theorem test_as_write_refused : refusedWith (.asWrite 0 .rawAngle 5) (opened 0x36 []) .readOnlyRegister = true := by
  decide +kernel
theorem test_as_burn : ends (.asBurn 0 .angle) (opened 0x36 [wOk]) (.ok .unit)
    [wrote 0 (entry 0x36) [0xFF, 0x80] .ok] = true := by decide +kernel
theorem test_as_burn_fails : ends (.asBurn 0 .setting) (opened 0x36 [wFail]) (.err .writeFailed)
    [wrote 0 (entry 0x36) [0xFF, 0x40] .fail] = true := by decide +kernel
theorem test_maxpos : returns (.asMaxPos 4000 200) (.int 104) = true ∧
    returns (.asMaxPos 65535 65535) (.int 4094) = true := by decide +kernel
theorem test_raw2deg_i : returns (.asRaw2DegI 3163 0 4096) (.int 278) = true ∧
    returns (.asRaw2DegI 100 4000 104) (.int (-8)) = true ∧
    ends (.asRaw2DegI 3163 0 4096)
      { State.reset with config := { Config.default with angleIntDivisor := .exact } } (.ok (.int 277)) [] = true := by
  decide +kernel
theorem test_raw2deg_f : returns (.asRaw2DegF 4095 0 4096) (.rat (184275 / 512)) = true ∧
    returns (.asRaw2DegF 100 4000 104) (.rat (-547875 / 65536)) = true := by decide +kernel
theorem test_deg2raw_i : returns (.asDeg2RawI (-370)) (.int (-113)) = true ∧
    returns (.asDeg2RawI 1000) (.int 3185) = true := by decide +kernel
theorem test_deg2raw_f : returns (.asDeg2RawF (-10)) (.rat (-1024 / 9)) = true ∧
    returns (.asDeg2RawF (725 / 2)) (.rat (256 / 9)) = true := by decide +kernel
-- S4, and the row of 0x2F
theorem test_status_scale : returns (.asStatusScale 0x08) (.int 2) = true ∧
    returns (.asStatusScale 0x2F) (.int 1) = true ∧ returns (.asStatusScale 0x10) (.int (-2)) = true ∧
    returns (.asStatusScale 0x30) (.int (-1)) = true ∧ returns (.asStatusScale 0xC7) (.int 0) = true := by
  decide +kernel
theorem test_status_draw : after (.asStatusScale 0x38) State.reset (fun t => t.draws == 1) = true := by decide +kernel

/-! ## Floating results in a binary format (00_scope.md R9): neighbours worked out by hand -/

/-- 24 significand bits and exponents -126 to 127. -/
def short : BinaryFmt := { fracBits := 23, minExp := -126, expSpan := 253 }

/-- 11 significand bits and exponents -14 to 15: the largest number is 65504. -/
def tiny : BinaryFmt := { fracBits := 10, minExp := -14, expSpan := 29 }

/-- 32.8 lies between these two, 16.4 between their halves (42_imu.md R148), and 0.1 with 11 bits between 1638 and 1639 parts
in 16384. -/
theorem test_round_factors :
    short.next false (164 / 5) = 8598323 / 2 ^ 18 ∧ short.next true (164 / 5) = 8598324 / 2 ^ 18 ∧
    short.next false (82 / 5) = 8598323 / 2 ^ 19 ∧ tiny.next true (-1 / 10) = -1638 / 2 ^ 14 ∧
    tiny.next false (-1 / 10) = -1639 / 2 ^ 14 := by decide +kernel

/-- Numbers of the format stay; the last place stops getting finer at the smallest exponent; a significand that rounds up to a
power of two. -/
theorem test_round_edges :
    (∀ up, tiny.next up 65504 = 65504 ∧ tiny.next up 0 = 0 ∧ tiny.next up (131 / 2) = 131 / 2) ∧
    tiny.next true (1 / 2 ^ 30) = 1 / 2 ^ 24 ∧ tiny.next false (1 / 2 ^ 30) = 0 ∧
    tiny.next true (4095 / 2) = 2048 ∧ tiny.next true 65505 = 65536 ∧ tiny.largest = 65504 := by decide +kernel

/-- Under a binary format IMU_GYRO_SCALE 0x08 is 65.5, which the format has, and IMU_GYRO_SCALE 0x10 one of the two neighbours of
32.8. -/
theorem test_gyro_scale_binary :
    exec (.imuGyroScale 0x08) { State.reset with config := { Config.default with floatFmt := .binary short } } =
      .next { State.reset with
        config := { Config.default with floatFmt := .binary short }, ending := some (.ok (.rat (131 / 2))) } ∧
    (floatValue { Config.default with floatFmt := .binary short } (164 / 5) = .rat (8598323 / 2 ^ 18) ∨
     floatValue { Config.default with floatFmt := .binary short } (164 / 5) = .rat (8598324 / 2 ^ 18)) := by
  have exact : ∀ up, short.next up (131 / 2) = 131 / 2 := by decide +kernel
  have near : ∀ up, |short.next up (164 / 5)| ≤ short.largest := by decide +kernel
  refine ⟨?_, ?_⟩
  · show returnFloat (gfsTable (rangeSel Config.default 0x08)) _ = _
    have h : gfsTable (rangeSel Config.default 0x08) = 131 / 2 := by decide +kernel
    have le : |(131 / 2 : Rat)| ≤ short.largest := by decide +kernel
    simp only [h, returnFloat, returnValue, floatValue, exact, le, if_true, State.ended]
  · simp only [floatValue, near, if_true]
    cases Config.roundsUp short (164 / 5)
    · exact .inl (by rw [test_round_factors.1])
    · exact .inr (by rw [test_round_factors.2.1])

/-- An infinity and a NaN are refused (R118, 92_eei_decisions.md D19); so is a wrong number of operands (log entry 21). -/
theorem test_decode_non_finite :
    decode ⟨0x17, [.nonFinite .posInf]⟩ = .error .badOperand ∧ decode ⟨0x34, [.num 0, .nonFinite .nan]⟩ = .error .badOperand ∧
    decode ⟨0x17, [.num 90]⟩ = .ok (.asDeg2RawF 90) ∧ decode ⟨0x17, [.num 90, .num 90]⟩ = .error .badOperand := by
  decide +kernel

/-! ## Inertial sensor -/

theorem test_imu_init : ends (.imuInit 0) (opened 0x68 [wOk, rd [0x41], wOk]) (.ok .unit)
    [wrote 0 (entry 0x68) [0x6B] .ok, readBack 0 (entry 0x68) 1 [0x41],
     wrote 0 (entry 0x68) [0x6B, 0x01] .ok] = true := by decide +kernel
theorem test_imu_init_fails : ends (.imuInit 0) (opened 0x68 [wOk, rFail]) (.err .readFailed)
    [wrote 0 (entry 0x68) [0x6B] .ok, readFails 0 (entry 0x68) 1] = true := by decide +kernel
theorem test_imu_read : ends (.imuRead 0 .accelConfig) (opened 0x68 [wOk, rd [0x10]]) (.ok (.u8 0x10))
    [wrote 0 (entry 0x68) [0x1C] .ok, readBack 0 (entry 0x68) 1 [0x10]] = true := by decide +kernel
theorem test_imu_write : ends (.imuWrite 0 .gyroConfig 0x18) (opened 0x68 [wOk]) (.ok .unit)
    [wrote 0 (entry 0x68) [0x1B, 0x18] .ok] = true := by decide +kernel
theorem test_imu_write_refused : refusedWith (.imuWrite 0 .accelX 0) (opened 0x68 []) .readOnlyRegister = true := by
  decide +kernel
theorem test_imu_s16 : returns (.imuS16 0x8000) (.int (-32768)) = true ∧
    returns (.imuS16 0x7FFF) (.int 32767) = true := by decide +kernel
theorem test_imu_temp : returns (.imuTempC 0xFE0C) (.rat (59601 / 1700)) = true ∧
    returns (.imuTempC 0x8000) (.rat (-101739 / 1700)) = true := by decide +kernel
theorem test_imu_accel_scale : returns (.imuAccelScale 0x08) (.int 8192) = true ∧
    returns (.imuAccelScale 0xE7) (.int 16384) = true := by decide +kernel
theorem test_imu_gyro_scale : returns (.imuGyroScale 0x10) (.rat (164 / 5)) = true ∧
    returns (.imuGyroScale 0xFF) (.rat (82 / 5)) = true := by decide +kernel
theorem test_imu_accel_conv : returns (.imuAccelConv 0x8000 0x18 true) (.rat (-196133 / 1250)) = true ∧
    returns (.imuAccelConv 0xC000 0x08 false) (.rat (-2)) = true := by decide +kernel
theorem test_imu_gyro_conv : returns (.imuGyroConv 0xFF7D 0x00) (.rat (-1)) = true ∧
    returns (.imuGyroConv 1000 0x10) (.rat (1250 / 41)) = true := by decide +kernel
theorem test_imu_read_temp : ends (.imuReadTemp 0) (opened 0x68 [wOk, rd [0xFE, 0x0C]]) (.ok (.rat (59601 / 1700)))
    [wrote 0 (entry 0x68) [0x41] .ok, readBack 0 (entry 0x68) 2 [0xFE, 0x0C]] = true := by decide +kernel
theorem test_imu_read_accel :
    ends (.imuReadAccel 0 .y true) (opened 0x68 [wOk, rd [0x80, 0x00], wOk, rd [0x18]]) (.ok (.rat (-196133 / 1250)))
      [wrote 0 (entry 0x68) [0x3D] .ok, readBack 0 (entry 0x68) 2 [0x80, 0x00],
       wrote 0 (entry 0x68) [0x1C] .ok, readBack 0 (entry 0x68) 1 [0x18]] = true := by decide +kernel
theorem test_imu_read_accel_short :
    ends (.imuReadAccel 0 .x false) (opened 0x68 [wOk, rd [0x40]]) (.err .shortRead)
      [wrote 0 (entry 0x68) [0x3B] .ok, readBack 0 (entry 0x68) 2 [0x40]] = true := by decide +kernel
theorem test_imu_read_gyro :
    ends (.imuReadGyro 0 .z) (opened 0x68 [wOk, rd [0x03, 0xE8], wOk, rd [0x10]]) (.ok (.rat (1250 / 41)))
      [wrote 0 (entry 0x68) [0x47] .ok, readBack 0 (entry 0x68) 2 [0x03, 0xE8],
       wrote 0 (entry 0x68) [0x1B] .ok, readBack 0 (entry 0x68) 1 [0x10]] = true := by decide +kernel

/-! ## PWM controller -/

/-- The one-byte register writes of handle 0 at the common PWM address, each answered `ok`. -/
def sent (l : List (Byte × Byte)) : List Event := wroteAll 0 (entry 0x40) l

theorem test_bringup : ends (.pwmBringup 0) (opened 0x40 ([wOk, wOk, wOk, wOk, wOk, wOk, wOk, rd [0x11], wOk]))
    (.ok .unit) (sent [(0xFA, 0), (0xFB, 0), (0xFC, 0), (0xFD, 0), (0x01, 0x04), (0x00, 0x01)] ++
      [.delayed 0 5, wrote 0 (entry 0x40) [0x00] .ok, readBack 0 (entry 0x40) 1 [0x11],
       wrote 0 (entry 0x40) [0x00, 0x01] .ok, .delayed 0 5]) = true := by decide +kernel
theorem test_set_channel : ends (.pwmSetChannel 0 15 0 4095) (opened 0x40 [wOk, wOk, wOk, wOk]) (.ok .unit)
    (sent [(0x42, 0x00), (0x43, 0x00), (0x44, 0xFF), (0x45, 0x0F)]) = true := by decide +kernel
theorem test_set_channel_fails : ends (.pwmSetChannel 0 0 0 307) (opened 0x40 [wOk, wOk, wFail]) (.err .writeFailed)
    (sent [(0x06, 0x00), (0x07, 0x00)] ++ [wrote 0 (entry 0x40) [0x08, 0x33] .fail]) = true := by decide +kernel
theorem test_set_all : ends (.pwmSetAll 0 4095 307) (opened 0x40 [wOk, wOk, wOk, wOk]) (.ok .unit)
    (sent [(0xFA, 0xFF), (0xFB, 0x0F), (0xFC, 0x33), (0xFD, 0x01)]) = true := by decide +kernel
theorem test_prescale : returns (.pwmPrescale 50) (.int 121) = true ∧
    returns (.pwmPrescale (390625 / 7840)) (.int 122) = true ∧
    returns (.pwmPrescale (390625 / 32)) (.int (-1)) = true ∧ returns (.pwmPrescale 1) (.int 6103) = true := by
  decide +kernel
theorem test_set_freq : after (.pwmSetFreq 0 50) (opened 0x40 [wOk, rd [0x21], wOk, wOk, wOk, wOk]) (fun t =>
    t.ending == some (.ok .unit) && lookup 0 t.pwmFreq == some 50 && t.history ==
      [wrote 0 (entry 0x40) [0x00] .ok, readBack 0 (entry 0x40) 1 [0x21]] ++
        sent [(0x00, 0x31), (0xFE, 0x79), (0x00, 0x21)] ++ [.delayed 0 5] ++ sent [(0x00, 0xA1)]) = true := by
  decide +kernel
theorem test_set_freq_fails : after (.pwmSetFreq 0 50) (opened 0x40 [wOk, rd [0x00], wOk, wFail]) (fun t =>
    t.ending == some (.err .writeFailed) && t.pwmFreq == [] && t.history ==
      [wrote 0 (entry 0x40) [0x00] .ok, readBack 0 (entry 0x40) 1 [0x00]] ++ sent [(0x00, 0x10)] ++
        [wrote 0 (entry 0x40) [0xFE, 0x79] .fail]) = true := by decide +kernel
theorem test_ticks : returns (.pwmTicksMs (3 / 2) 50) (.int 307) = true ∧
    returns (.pwmTicksMs (-1) 50) (.int (-205)) = true ∧
    returns (.pwmTicksMs (25 / 10240) 50) (.int 1) = true := by decide +kernel
theorem test_set_pulse :
    ends (.pwmSetPulseMs 0 3 (3 / 2)) { opened 0x40 [wOk, wOk, wOk, wOk] with pwmFreq := [(0, 50)] } (.ok .unit)
      (sent [(0x12, 0x00), (0x13, 0x00), (0x14, 0x33), (0x15, 0x01)]) = true := by decide +kernel
/-- The fault, and the order of the checks (60_exceptions.md R203). -/
theorem test_set_pulse_order :
    ends (.pwmSetPulseMs 0 0 (3 / 2)) (opened 0x40 []) (.faulted .frequencyUnset) [] = true ∧
    ends (.pwmSetPulseMs 0 0 (3 / 2)) (shut 0x40) (.err .notOpen) [] = true ∧
    refusedWith (.pwmSetPulseMs 0 20 (3 / 2)) (shut 0x40) .channelOutOfRange = true ∧
    refusedWith (.pwmSetPulseMs 0 0 20) { opened 0x40 [] with pwmFreq := [(0, 50)] } .tickOutOfRange = true := by
  decide +kernel
theorem test_refusal_first :
    refusedWith (.pwmSetChannel 5 16 0 0) State.reset .channelOutOfRange = true ∧
    refusedWith (.asRead 0 .burn) (shut 0x36) .writeOnlyRegister = true ∧
    refusedWith (.pwmSetFreq 9 23) State.reset .prescaleOutOfRange = true ∧
    ends (.pwmSetFreq 9 50) State.reset (.err .notOpen) [] = true := by decide +kernel

/-! ## The step, and the text of programs -/

/-- A step takes the request, decodes it and runs it. -/
theorem test_step : (match step { State.reset with requests := [⟨0x13, [.num 4000, .num 200]⟩] } with
    | .next t => t.ending == some (.ok (.int 104)) && t.requests == []
    | _ => false) = true := by decide +kernel

/-- The first error ends the sequence of IMU_SAMPLE_GYRO (30_encoding.md R81): the second sample's is never asked for. -/
theorem test_sample_gyro :
    (match expandPseudo "IMU_SAMPLE_GYRO" [.num 0] with
      | some l => (match performSequence l (opened 0x68 [wOk, rd [0, 131], wOk, rd [0], wOk, rFail]) with
        | .next t => t.ending == some (.err .readFailed) && t.history ==
            regRead 0 (entry 0x68) 0x43 [0, 131] ++ regRead 0 (entry 0x68) 0x1B [0] ++
              [wrote 0 (entry 0x68) [0x45] .ok, readFails 0 (entry 0x68) 2]
        | _ => false)
      | none => false) = true := by decide +kernel

/-- Lines of the programs of 95_test_vectors.md and pseudo-operations of 30_encoding.md R81. -/
theorem test_assemble :
    assemble ["OPEN \"1\", 0x36  ; first", "", "AS_READ h0, ZPOS", "PWM_SET_PULSE_MS h0, 0, 1.5"] =
      some [⟨0x01, [.str "1", .num 0x36]⟩, ⟨0x10, [.num 0, .areg .zpos]⟩, ⟨0x36, [.num 0, .num 0, .num (3 / 2)]⟩] ∧
    assemble ["WRITE_RAW h0, [0x6B, 0x00]", "IMU_READ_ACCEL h0, Z, true"] =
      some [⟨0x05, [.num 0, .bytes [.num 0x6B, .num 0]]⟩, ⟨0x2A, [.num 0, .axis .z, .bool true]⟩] ∧
    assemble ["READ16 h1, 0x0C"] = some [⟨0x03, [.num 1, .num 0x0C, .num 2]⟩] := by decide +kernel

/-- Numerals that R80 does not write, read as log entry 17 says. -/
theorem test_assemble_numerals :
    assemble ["AS_DEG2RAW_F +5", "AS_DEG2RAW_F .5", "AS_DEG2RAW_F -0x10"] =
      some [⟨0x17, [.badName "+5"]⟩, ⟨0x17, [.badName ".5"]⟩, ⟨0x17, [.num (-16)]⟩] ∧
    assemble ["READ_REG h0, 12.0, 4/2", "AS_DEG2RAW_F 0x10"] =
      some [⟨0x03, [.num 0, .num 12, .num 2]⟩, ⟨0x17, [.num 16]⟩] ∧
    assemble ["AS_DEG2RAW_F -.5"] = none ∧ assemble ["AS_DEG2RAW_F 5."] = none ∧
    decode ⟨0x17, [.badName "+5"]⟩ = .error .badOperand := by decide +kernel

/-- Byte lists with elements that are no `u8` are requests (00_scope.md R8), and a quote inside a string is part of it. -/
theorem test_assemble_lists_and_strings :
    assemble ["WRITE_RAW h0, [1/2, 0x100, -1]"] = some [⟨0x05, [.num 0, .bytes [.num (1 / 2), .num 256, .num (-1)]]⟩] ∧
    assemble ["WRITE_RAW h0, [+5, \"a,b\", true]"] =
      some [⟨0x05, [.num 0, .bytes [.other "+5", .other "\"a,b\"", .other "true"]]⟩] ∧
    assemble ["WRITE_RAW h0, [5.]"] = none ∧ assemble ["WRITE_RAW h0, [1,,2]"] = none ∧
    assemble ["OPEN \"a\" \"b\", 0x36"] = some [⟨0x01, [.str "a\" \"b", .num 0x36]⟩] := by decide +kernel

/-! ## Witnesses: the hypotheses of each statement of Certificates/Slice0/Obligations.lean can be met, clause by clause -/

/-- The state has handle 0 open, bound to `addr`, and its environment answers as the events say. -/
def plays (s : State) (addr : BusAddr) (es : List Event) : Bool :=
  checkOpen s 0 == some (entry addr) && environmentPlays s es

/-- Two operations that are not open on handle 0: closed, and never issued. -/
theorem test_witness_not_open : checkOpen (shut 0x36) 0 = none ∧ checkOpen State.reset 0 = none ∧
    lookup 0 State.reset.handles = none ∧ lookup 0 (shut 0x36).handles = some { entry 0x36 with isOpen := false } ∧
    (shut 0x36).hung = none ∧ State.reset.requests = [] := by decide +kernel

theorem test_witness_DecodedRequestIsItsEncoding :
    decode ⟨0x05, [.num 0, .bytes [.num 0, .num 255]]⟩ = .ok (.writeRaw 0 [0, 255]) := by decide +kernel

theorem test_witness_ReservedOpcodesAreRefused :
    (∀ n ∈ [0x00, 0x06, 0x0F, 0x19, 0x1F, 0x2C, 0x2F, 0x37, 0xFF],
      decode ⟨BitVec.ofNat 8 n, []⟩ = .error .unknownOpcode) ∧
    (∀ n ∈ [0x01, 0x05, 0x10, 0x18, 0x20, 0x2B, 0x30, 0x36],
      decode ⟨BitVec.ofNat 8 n, []⟩ = .error .badOperand) := by decide +kernel

/-- The last value of each type is accepted, the next refused. -/
theorem test_witness_OperandsOutsideTheirTypeAreRefused :
    decode ⟨0x01, [.str "1", .num 0x7F]⟩ = .ok (.openHandle "1" 0x7F) ∧
    decode ⟨0x01, [.str "1", .num 0x80]⟩ = .error .badOperand ∧
    decode ⟨0x03, [.num 0, .num 0x100, .num 1]⟩ = .error .badOperand ∧
    decode ⟨0x04, [.num 0, .num 0xFF, .num 0xFFFF, .num 2]⟩ = .ok (.writeReg 0 0xFF 0xFFFF 2) ∧
    decode ⟨0x22, [.num 0, .ireg .accelConfig, .num 0x100]⟩ = .error .badOperand ∧
    decode ⟨0x05, [.num 0, .bytes [.num 0, .num 256]]⟩ = .error .badOperand ∧
    decode ⟨0x05, [.num 0, .bytes [.num (1 / 2), .num 0]]⟩ = .error .badOperand ∧
    decode ⟨0x05, [.num 0, .bytes [.num (-1)]]⟩ = .error .badOperand ∧
    decode ⟨0x05, [.num 0, .bytes [.num 0, .other "X"]]⟩ = .error .badOperand ∧
    decode ⟨0x02, [.num (-1)]⟩ = .error .badOperand ∧ decode ⟨0x02, [.num (1 / 2)]⟩ = .error .badOperand ∧
    decode ⟨0x16, [.num (1 / 2)]⟩ = .error .badOperand ∧ opRow 0x36 ≠ none ∧
    decode ⟨0x36, [.num 0, .num 0, .nonFinite .negInf]⟩ = .error .badOperand := by decide +kernel

/-- A request that is no instruction's encoding: no instruction has an infinity as an operand. -/
theorem test_witness_no_encoding : ∀ i, encode i ≠ ⟨0x17, [.nonFinite .posInf]⟩ := by
  intro i h
  have := congrArg Request.operands h
  cases i <;> simp [encode, Instr.operands, bitsOperand, natOperand, intOperand] at this

theorem test_witness_half_is_no_integer : ¬ ∃ z : Int, (1 / 2 : Rat) = z := by
  rintro ⟨z, hz⟩
  have h : (1 : Int) = 2 * z := by exact_mod_cast (show (1 : Rat) = 2 * (z : Rat) by linarith)
  omega

/-- A request that decodes and one that does not, first of two. -/
def asked (q : Request) : State := { State.reset with requests := [q, ⟨0x06, []⟩] }

theorem test_witness_StepRunsTheDecodedInstruction :
    (asked ⟨0x23, [.num 0x8000]⟩).hung = none ∧
    decode ⟨0x23, [.num 0x8000]⟩ = .ok (.imuS16 0x8000) ∧ decode ⟨0x23, []⟩ = .error .badOperand := by
  decide +kernel

theorem test_witness_UnansweredTransferBlocksTheBlock :
    answerOpen { State.reset with script := [.never] } "1" 0x36 = none ∧
    checkOpen (opened 0x36 [.never]) 0 = some (entry 0x36) ∧
    (∀ bytes ∈ [[0, 0], [0, 0, 0], [0], [0x07, 1, 2], [0xFF, 0x40], [0x1A, 2]],
      answerWrite (opened 0x36 [.never]) "1" 0x36 bytes = none) ∧
    (0x0140 : Half).toNat = 256 * (0x01 : Byte).toNat + (0x40 : Byte).toNat ∧ rawLenLegal Config.default [0] = true ∧
    (AngleReg.conf, (0x07 : Byte)) ∈ [(AngleReg.mang, Config.default.asReg.mang), (.conf, Config.default.asReg.conf)] ∧
    (BurnCmd.setting, (0x40 : Byte)) ∈ [(BurnCmd.setting, Config.default.burnSettingCmd)] ∧
    (ImuReg.dlpfConfig, (0x1A : Byte)) ∈ [(ImuReg.dlpfConfig, Config.default.imuReg.dlpfConfig)] ∧
    plays (opened 0x36 [wOk, .never]) 0x36 [wrote 0 (entry 0x36) [0] .ok] = true ∧
    answerRead ((opened 0x36 [wOk, .never]).played [wrote 0 (entry 0x36) [0] .ok]) "1" 0x36 2 = none ∧
    answerRead ((opened 0x36 [wOk, .never]).played [wrote 0 (entry 0x36) [0] .ok]) "1" 0x36 1 = none ∧
    { State.reset with hung := some (.read 0 2) }.hung = some (.read 0 2) := by decide +kernel

/-- A step that is refused, one that faults and one that ends in an error. -/
theorem test_witness_MarksFollowTheEndings :
    (match step (asked ⟨0x03, [.num 0, .num 0, .num 3]⟩) with
      | .next t => t.ending == some (.refused .badOperand) && t.refused && !t.faulted
      | _ => false) = true ∧
    (match step { opened 0x40 [] with requests := [⟨0x36, [.num 0, .num 0, .num 1]⟩] } with
      | .next t => t.ending == some (.faulted .frequencyUnset) && t.faulted && !t.refused
      | _ => false) = true ∧
    (match step (asked ⟨0x02, [.num 0]⟩) with
      | .next t => t.ending == some (.err .notOpen) && !t.refused && !t.faulted
      | _ => false) = true := by decide +kernel

/-- A refused request, the premise of RefusedRequestPerformsNothing. -/
theorem test_witness_RefusedRequestPerformsNothing :
    (asked ⟨0x06, []⟩).hung = none ∧ (asked ⟨0x06, []⟩).requests = ⟨0x06, []⟩ :: [⟨0x06, []⟩] ∧
    (match step (asked ⟨0x06, []⟩) with
      | .next t => t.ending == some (.refused .unknownOpcode)
      | _ => false) = true := by decide +kernel

/-- Errors of an OPEN and of a transfer, the premises of ErrorsRollNothingBack; a handle's entry and its traffic, those of
TransfersTargetTheBoundPair; a sample that converts, those of NoValueFromAFailedRead. -/
theorem test_witness_traffic :
    after (.openHandle "9" 0x36) { State.reset with script := [.onOpen .busFail] }
      (fun t => t.ending == some (.err .busOpenFailed)) = true ∧
    after (.imuReadTemp 0) (opened 0x68 [wOk, rFail]) (fun t => t.ending == some (.err .readFailed)) = true ∧
    handleOf (.imuReadTemp 0) = some 0 ∧ lookup 0 (opened 0x68 []).handles = some (entry 0x68) ∧
    checkOpen (opened 0x68 []) 0 = some (entry 0x68) ∧
    after (.imuReadTemp 0) (opened 0x68 [wOk, rd [0x80, 0]])
      (fun t => match t.ending with | some (.ok _) => true | _ => false) = true ∧
    after (.imuReadAccel 0 .x true) (opened 0x68 [wOk, rd [0x80, 0], wOk, rd [0x18]])
      (fun t => match t.ending with | some (.ok _) => true | _ => false) = true ∧
    after (.imuReadGyro 0 .z) (opened 0x68 [wOk, rd [0x80, 0], wOk, rd [0x18]])
      (fun t => match t.ending with | some (.ok _) => true | _ => false) = true := by decide +kernel

/-- The premise of RefusedExactlyWhenIllFormed, on either side of its equivalence. -/
theorem test_witness_RefusedExactlyWhenIllFormed :
    (∀ h ch ms, Instr.pwmSetFreq 0 23 ≠ .pwmSetPulseMs h ch ms) ∧
    (Instr.pwmSetFreq 0 23).wellFormed Config.default = false ∧
    (Instr.pwmSetFreq 0 50).wellFormed Config.default = true :=
  ⟨fun _ _ _ => Instr.noConfusion, by decide +kernel, by decide +kernel⟩

theorem test_witness_PureConvertersWriteNothing :
    isPure (.asStatusScale 0x18) = true ∧ isPure (.pwmPrescale 0) = true ∧
    after (.asStatusScale 0x18) State.reset (fun _ => true) = true := by decide +kernel

theorem test_witness_ClosedOrInvalidHandleIsNotOpen :
    handleOf (.imuInit 0) = some 0 ∧ (Instr.imuInit 0).wellFormed Config.default = true ∧
    (entry 0x68).isOpen = true ∧ lookup 0 (opened 0x68 [wFail]).handles = some (entry 0x68) ∧
    ends (.imuInit 0) (opened 0x68 [wFail]) (.err .writeFailed) [wrote 0 (entry 0x68) [0x6B] .fail] = true := by
  decide +kernel

/-- The premise of FrequencyWrittenOnlyBySetFreq in a state whose PWM_SET_FREQ completes (`test_set_freq`). -/
theorem test_witness_FrequencyWrittenOnlyBySetFreq :
    lookup (opened 0x40 []).nextHandle (opened 0x40 []).pwmFreq = none ∧
    after (.pwmSetFreq 0 50) (opened 0x40 [wOk, rd [0x21], wOk, wOk, wOk, wOk])
      (fun t => t.ending == some (.ok .unit)) = true ∧
    (∀ h ch ms, Instr.closeHandle 0 ≠ .pwmSetPulseMs h ch ms) ∧ ∀ h f, Instr.closeHandle 0 ≠ .pwmSetFreq h f :=
  ⟨by decide +kernel, by decide +kernel, fun _ _ _ => Instr.noConfusion, fun _ _ => Instr.noConfusion⟩

theorem test_witness_OpenBindsANewHandle :
    answerOpen { State.reset with script := [.onOpen .busFail] } "1" 0x7F = some .busFail ∧
    answerOpen { State.reset with script := [.onOpen .selectFail] } "1" 0x7F = some .selectFail ∧
    answerOpen { State.reset with script := [.onOpen .ok] } "1" 0x7F = some .ok := by decide +kernel

theorem test_witness_ReadRegReturnsTheBytesRead :
    plays (opened 0x36 [wOk, rd [0xFF]]) 0x36 (regRead 0 (entry 0x36) 0xFF [0xFF]) = true ∧
    plays (opened 0x36 [wOk, rd [0xFF, 0]]) 0x36 (regRead 0 (entry 0x36) 0 [0xFF, 0]) = true ∧
    plays (opened 0x36 [wFail]) 0x36 [wrote 0 (entry 0x36) [0] .fail] = true ∧
    plays (opened 0x36 [wOk, rFail]) 0x36 [wrote 0 (entry 0x36) [0] .ok, readFails 0 (entry 0x36) 2] = true ∧
    plays (opened 0x36 [wOk, rFail]) 0x36 [wrote 0 (entry 0x36) [0] .ok, readFails 0 (entry 0x36) 1] = true ∧
    plays (opened 0x36 [wOk, rd [1]]) 0x36
      [wrote 0 (entry 0x36) [0] .ok, readBack 0 (entry 0x36) 2 [1]] = true ∧
    plays (opened 0x36 [wOk, rd []]) 0x36
      [wrote 0 (entry 0x36) [0] .ok, readBack 0 (entry 0x36) 1 []] = true := by decide +kernel

/-- For ReadNeverReturnsAPartialValue see `test_read_two` and `test_read_errors`; the premises on the state. -/
theorem test_witness_ReadNeverReturnsAPartialValue :
    checkOpen (opened 0x36 [wOk, rd [1]]) 0 = some (entry 0x36) ∧
    after (.readReg 0 0 2) (opened 0x36 [wOk, rd [1]]) (fun t => t.history ==
      [wrote 0 (entry 0x36) [0] .ok] ++ [readBack 0 (entry 0x36) 2 [1]]) = true := by decide +kernel

theorem test_witness_WriteRegSendsOneFrame :
    (0xFFFF : Half).toNat = 256 * (0xFF : Byte).toNat + (0xFF : Byte).toNat ∧
    (0 : Half).toNat = 256 * (0 : Byte).toNat + (0 : Byte).toNat ∧
    plays (opened 0x36 [wOk]) 0x36 [wrote 0 (entry 0x36) [1, 0xFF] .ok] = true ∧
    plays (opened 0x36 [wOk]) 0x36 [wrote 0 (entry 0x36) [1, 0xFF, 0xFF] .ok] = true ∧
    plays (opened 0x36 [wFail]) 0x36 [wrote 0 (entry 0x36) [1, 0xFF] .fail] = true ∧
    plays (opened 0x36 [wFail]) 0x36 [wrote 0 (entry 0x36) [1, 0xFF, 0xFF] .fail] = true := by decide +kernel

/-- A bound on the list that it meets exactly, and one it exceeds by one; no bound at all (the default). -/
theorem test_witness_WriteRawSendsTheListUnchanged :
    rawLenLegal { Config.default with maxRawLen := some 2 } [1, 2] = true ∧
    rawLenLegal { Config.default with maxRawLen := some 2 } [1, 2, 3] = false ∧
    Config.default.maxRawLen = none ∧
    plays (opened 0x36 [wOk]) 0x36 [wrote 0 (entry 0x36) [1, 2] .ok] = true ∧
    plays (opened 0x36 [wFail]) 0x36 [wrote 0 (entry 0x36) [1, 2] .fail] = true := by decide +kernel

theorem test_witness_angle_registers :
    plays (opened 0x36 [wOk, rd [2]]) 0x36 (regRead 0 (entry 0x36) 0x00 [2]) = true ∧
    plays (opened 0x36 [wOk, rd [1, 2]]) 0x36 (regRead 0 (entry 0x36) 0x1B [1, 2]) = true ∧
    asRegAddr AngleMap.default .zmco = 0x00 ∧ asRegAddr AngleMap.default .magnitude = 0x1B ∧
    plays (opened 0x36 [wOk]) 0x36 [wrote 0 (entry 0x36) [0x07, 0x01, 0x23] .ok] = true ∧
    plays (opened 0x36 [wFail]) 0x36 [wrote 0 (entry 0x36) [0x07, 0x01, 0x23] .fail] = true ∧
    plays (opened 0x36 [wOk]) 0x36 [wrote 0 (entry 0x36) [0xFF, 0x40] .ok] = true ∧
    plays (opened 0x36 [wFail]) 0x36 [wrote 0 (entry 0x36) [0xFF, 0x80] .fail] = true := by decide +kernel

/-- Either divisor, and an operand of either sign with its remainder. -/
theorem test_witness_angle_arithmetic :
    State.reset.config.angleIntDivisor = .literal ∧ State.reset.config.floatFmt = .exact ∧
    (∀ f, { Config.default with floatFmt := .binary f }.floatFmt = .binary f) ∧
    { Config.default with angleIntDivisor := .exact }.angleIntDivisor = .exact ∧
    (725 / 2 : Rat) = 360 * (1 : Int) + 5 / 2 ∧ (-370 : Rat) = 360 * (-1 : Int) + -10 ∧
    (0 : Rat) ≤ 5 / 2 ∧ (-360 : Rat) < -10 ∧ (4095 : Half).toNat ≤ 4095 :=
  ⟨rfl, rfl, fun _ => rfl, by decide +kernel⟩

/-- Either arm of `Represents` under a binary format: a value within its range, and one beyond. -/
theorem test_witness_represents :
    { Config.default with floatFmt := .binary tiny }.floatFmt = .binary tiny ∧ |(131 / 2 : Rat)| ≤ tiny.largest ∧
    tiny.holds (131 / 2) = true ∧ tiny.largest < |(65505 : Rat)| := by decide +kernel

/-- Each row of the magnet-status table. -/
theorem test_witness_StatusScaleFollowsTheTable : ∀ p ∈ [((0x08 : Byte), true, false), (0x10, false, true),
    (0x20, false, false), (0x38, true, true)],
    p.1.getLsbD Config.default.mhBit = p.2.1 ∧ p.1.getLsbD Config.default.mlBit = p.2.2 := by decide +kernel

theorem test_witness_ImuInitClearsTheSleepBit :
    (∀ k, (0x01 : Byte).getLsbD k =
      ((0x41 : Byte).getLsbD k && decide (k ≠ State.reset.config.imuSleepBit.val))) ∧
    plays (opened 0x68 [wOk, rd [0x41], wOk]) 0x68
      (regRead 0 (entry 0x68) 0x6B [0x41] ++ [wrote 0 (entry 0x68) [0x6B, 0x01] .ok]) = true ∧
    State.reset.config.imuInitMode = .rmw ∧
    after (.readReg 0 0x6B 1) (opened 0x68 [wOk, rFail]) (fun t => t.ending == some (.err .readFailed)) = true ∧
    { Config.default with imuInitMode := .writeZero }.imuInitMode = .writeZero := by
  refine ⟨fun k => ?_, by decide +kernel, by decide +kernel, by decide +kernel, by decide +kernel⟩
  by_cases hk : k < 8
  · have h : ∀ j : Fin 8, (0x01 : Byte).getLsbD j.val =
        ((0x41 : Byte).getLsbD j.val && decide (j.val ≠ State.reset.config.imuSleepBit.val)) := by decide
    exact h ⟨k, hk⟩
  · rw [BitVec.getLsbD_of_ge _ _ (Nat.le_of_not_lt hk), BitVec.getLsbD_of_ge _ _ (Nat.le_of_not_lt hk)]; rfl

theorem test_witness_imu_registers :
    plays (opened 0x68 [wOk, rd [2]]) 0x68 (regRead 0 (entry 0x68) 0x1A [2]) = true ∧
    plays (opened 0x68 [wOk, rd [1, 2]]) 0x68 (regRead 0 (entry 0x68) 0x47 [1, 2]) = true ∧
    imuRegAddr ImuMap.default .dlpfConfig = 0x1A ∧ imuRegAddr ImuMap.default .gyroZ = 0x47 ∧
    plays (opened 0x68 [wOk]) 0x68 [wrote 0 (entry 0x68) [0x1A, 2] .ok] = true ∧
    plays (opened 0x68 [wFail]) 0x68 [wrote 0 (entry 0x68) [0x1A, 2] .fail] = true := by decide +kernel

/-- The two halves of the signed reading meet at 0x8000; each selector. -/
theorem test_witness_imu_arithmetic :
    (0x7FFF : Half).toNat < 0x8000 ∧ 0x8000 ≤ (0x8000 : Half).toNat ∧
    (∀ p ∈ [((0x00 : Byte), 0), (0x08, 1), (0x10, 2), (0x18, 3)],
      p.1.toNat / 2 ^ Config.default.rangeLo.val % 4 = p.2) := by decide +kernel

theorem test_witness_imu_samples :
    plays (opened 0x68 [wOk, rd [0x80, 0]]) 0x68 (regRead 0 (entry 0x68) 0x41 [0x80, 0]) = true ∧
    plays (opened 0x68 [wOk, rd [0x80, 0], wOk, rd [0x18]]) 0x68
      (regRead 0 (entry 0x68) 0x3F [0x80, 0] ++ regRead 0 (entry 0x68) 0x1C [0x18]) = true ∧
    plays (opened 0x68 [wOk, rd [0x80, 0], wOk, rd [0x18]]) 0x68
      (regRead 0 (entry 0x68) 0x47 [0x80, 0] ++ regRead 0 (entry 0x68) 0x1B [0x18]) = true := by decide +kernel

/-- Reads that do not succeed: of the sample (short), of the range after the sample (failed), of MODE1 (never answered). -/
theorem test_witness_reads_that_fail :
    after (.readReg 0 0x41 2) (opened 0x68 [wOk, rd [0x80]]) (fun t => t.ending == some (.err .shortRead)) = true ∧
    plays (opened 0x68 [wOk, rd [0x80, 0], wOk, rFail]) 0x68 (regRead 0 (entry 0x68) 0x3F [0x80, 0]) = true ∧
    after (.readReg 0 0x1C 1) ((opened 0x68 [wOk, rd [0x80, 0], wOk, rFail]).played
      (regRead 0 (entry 0x68) 0x3F [0x80, 0])) (fun t => t.ending == some (.err .readFailed)) = true ∧
    plays (opened 0x68 [wOk, rd [0x80, 0], wOk, rFail]) 0x68 (regRead 0 (entry 0x68) 0x47 [0x80, 0]) = true ∧
    after (.readReg 0 0x1B 1) ((opened 0x68 [wOk, rd [0x80, 0], wOk, rFail]).played
      (regRead 0 (entry 0x68) 0x47 [0x80, 0])) (fun t => t.ending == some (.err .readFailed)) = true ∧
    after (.readReg 0 0x00 1) (opened 0x40 [wOk, .never]) (fun t => t.ending == none) = true := by decide +kernel

/-- Prescales at the ends of the legal range and just outside it, a tie, and a tick count. -/
theorem test_witness_roundings :
    roundsTo (390625 / (64 * (390625 / 64)) - 1) 0 ∧ roundsTo (390625 / (64 * (390625 / 16384)) - 1) 255 ∧
    roundsTo (390625 / (64 * (390625 / 16448)) - 1) 256 ∧ roundsTo (390625 / (64 * (390625 / 32)) - 1) (-1) ∧
    roundsTo (390625 / (64 * 50) - 1) 121 ∧ roundsTo ((3 / 2) * 4096 * 50 / 1000) 307 ∧
    roundsTo (20 * 4096 * 50 / 1000) 4096 ∧ roundsTo (-1 * 4096 * 50 / 1000) (-205) := by
  unfold roundsTo
  decide +kernel

theorem test_witness_SetFreqRunsTheSequence :
    plays (opened 0x40 [wOk, rd [0x21], wOk, wOk, wOk, wOk]) 0x40
      (setFreqEvents Config.default 0 (entry 0x40) 0x21 121) = true ∧ ((121 : Byte).toNat : Int) = 121 := by
  decide +kernel

/-- Each of the five writes of the sequence can be the one that fails. -/
theorem test_witness_SetFreqStopsAtTheFirstError :
    ∀ p ∈ [(0, [wFail]), (2, [wOk, rd [0x21], wFail]), (3, [wOk, rd [0x21], wOk, wFail]),
        (4, [wOk, rd [0x21], wOk, wOk, wFail]), (6, [wOk, rd [0x21], wOk, wOk, wOk, wFail])],
      (match (setFreqEvents Config.default 0 (entry 0x40) 0x21 121)[p.1]? with
        | some e => isWrite e && plays (opened 0x40 p.2) 0x40
            ((setFreqEvents Config.default 0 (entry 0x40) 0x21 121).take p.1 ++ [refusedByBus e])
        | none => false) = true := by decide +kernel

/-- The events of `test_set_freq_fails`, cut at the write of PRESCALE. -/
theorem test_witness_PrescaleWrittenOnlyAfterSleep :
    PwmMap.default.prescale ≠ PwmMap.default.mode1 ∧
    after (.pwmSetFreq 0 50) (opened 0x40 [wOk, rd [0x00], wOk, wFail]) (fun t => t.history ==
      [wrote 0 (entry 0x40) [0x00] .ok, readBack 0 (entry 0x40) 1 [0x00],
       wrote 0 (entry 0x40) [0x00, 0x10] .ok] ++ wrote 0 (entry 0x40) [0xFE, 0x79] .fail :: []) = true := by
  decide +kernel

/-- PWM_BRINGUP, which `test_bringup` runs, is an operation of NoOtherOperationWritesPrescale. -/
theorem test_witness_NoOtherOperationWritesPrescale :
    (∀ h f, Instr.pwmBringup 0 ≠ .pwmSetFreq h f) ∧ (∀ h reg v l, Instr.pwmBringup 0 ≠ .writeReg h reg v l) ∧
    (∀ h l, Instr.pwmBringup 0 ≠ .writeRaw h l) ∧ (opened 0x40 []).config = Config.default :=
  ⟨fun _ _ => Instr.noConfusion, fun _ _ _ _ => Instr.noConfusion, fun _ _ => Instr.noConfusion, rfl⟩

/-- The last channel with the highest and the lowest tick, and its pulse. -/
theorem test_witness_channel_writes :
    channelAddr Config.default.pwmReg.led0OnL 15 = 0x42 ∧ channelAddr Config.default.pwmReg.led0OnH 15 = 0x43 ∧
    channelAddr Config.default.pwmReg.led0OffL 15 = 0x44 ∧ channelAddr Config.default.pwmReg.led0OffH 15 = 0x45 ∧
    channelAddr 0xFB 1 = 0xFF ∧
    (4095 : Int) = 256 * (0x0F : Byte).toNat + (0xFF : Byte).toNat ∧
    (0 : Int) = 256 * (0 : Byte).toNat + (0 : Byte).toNat ∧
    plays (opened 0x40 [wOk, wOk, wOk, wOk]) 0x40 (sent [(0x42, 0xFF), (0x43, 0x0F), (0x44, 0), (0x45, 0)]) = true ∧
    plays (opened 0x40 [wOk, wOk, wOk, wOk]) 0x40 (sent [(0xFA, 0xFF), (0xFB, 0x0F), (0xFC, 0), (0xFD, 0)]) = true ∧
    plays { opened 0x40 [wOk, wOk, wOk, wOk] with pwmFreq := [(0, 50)] } 0x40
      (sent [(0x42, 0), (0x43, 0), (0x44, 0x33), (0x45, 0x01)]) = true := by decide +kernel

/-- Each of the four writes of a channel, of the broadcast block and of a pulse can be the one that fails. -/
theorem test_witness_PartlyWrittenChannelIsLeftAsItIs :
    ∀ k < 4, ∀ l ∈ [channelBytes PwmMap.default 15 0 4095, allChannelBytes PwmMap.default 4095 0,
        channelBytes PwmMap.default 0 0 307],
      (match (wroteAll 0 (entry 0x40) l)[k]? with
        | some e => plays { opened 0x40 (List.replicate k wOk ++ [wFail]) with pwmFreq := [(0, 50)] } 0x40
            ((wroteAll 0 (entry 0x40) l).take k ++ [refusedByBus e])
        | none => false) = true := by decide +kernel

/-- The bring-up that completes; each of its eight writes can be the one that fails; and so can the read of MODE1. -/
theorem test_witness_BringupSilencesBeforeEnabling :
    plays (opened 0x40 [wOk, wOk, wOk, wOk, wOk, wOk, wOk, rd [0x11], wOk]) 0x40
      (sent [(0xFA, 0), (0xFB, 0), (0xFC, 0), (0xFD, 0), (0x01, 0x04), (0x00, 0x01)] ++
        [.delayed 0 5] ++ (regRead 0 (entry 0x40) 0x00 [0x11] ++
        [wrote 0 (entry 0x40) [0x00, (0x11 : Byte) &&& ~~~(0x10 : Byte)] .ok, .delayed 0 5])) = true ∧
    (∀ p ∈ [(0, [wFail]), (1, [wOk, wFail]), (5, [wOk, wOk, wOk, wOk, wOk, wFail]),
        (7, [wOk, wOk, wOk, wOk, wOk, wOk, wFail]),
        (9, [wOk, wOk, wOk, wOk, wOk, wOk, wOk, rd [0x11], wFail])],
      (match (bringupEvents Config.default 0 (entry 0x40) 0x11)[p.1]? with
        | some e => isWrite e && plays (opened 0x40 p.2) 0x40
            ((bringupEvents Config.default 0 (entry 0x40) 0x11).take p.1 ++ [refusedByBus e])
        | none => false) = true) ∧
    (let s := opened 0x40 [wOk, wOk, wOk, wOk, wOk, wOk, wOk, rFail]
     let silence := sent [(0xFA, 0), (0xFB, 0), (0xFC, 0), (0xFD, 0), (0x01, 0x04), (0x00, 0x01)] ++ [.delayed 0 5]
     plays s 0x40 silence = true ∧
     after (.readReg 0 0x00 1) (s.played silence) (fun t => t.ending == some (.err .readFailed)) = true ∧
     after (.pwmBringup 0) s (fun t => t.ending == some (.err .readFailed)) = true) := by decide +kernel

/-- An unanswered write of a channel, of the broadcast block, of a pulse, of the last write of a frequency change and of a
bring-up, and an unanswered read of MODE1. -/
theorem test_witness_UnansweredPwmTransferBlocksTheBlock :
    (∀ p ∈ [(3, channelBytes PwmMap.default 15 0 4095), (0, allChannelBytes PwmMap.default 4095 0),
        (2, channelBytes PwmMap.default 0 0 307)],
      (match (wroteAll 0 (entry 0x40) p.2)[p.1]? with
        | some (Event.wrote _ _ _ bytes _) =>
          let s := { opened 0x40 (List.replicate p.1 wOk ++ [.never]) with pwmFreq := [(0, 50)] }
          plays s 0x40 ((wroteAll 0 (entry 0x40) p.2).take p.1) &&
            answerWrite (s.played ((wroteAll 0 (entry 0x40) p.2).take p.1)) "1" 0x40 bytes == none
        | _ => false) = true) ∧
    (let s := opened 0x40 [wOk, rd [0x21], wOk, wOk, wOk, .never]
     let es := setFreqEvents Config.default 0 (entry 0x40) 0x21 121
     es[6]? = some (wrote 0 (entry 0x40) [0x00, 0xA1] .ok) ∧ plays s 0x40 (es.take 6) = true ∧
     answerWrite (s.played (es.take 6)) "1" 0x40 [0x00, 0xA1] = none ∧
     (Instr.pwmSetFreq 0 50).wellFormed Config.default = true) ∧
    (let s := opened 0x40 [wOk, wOk, wOk, wOk, wOk, wOk, wOk, .never]
     let es := bringupEvents Config.default 0 (entry 0x40) 0x11
     es[8]? = some (readBack 0 (entry 0x40) 1 [0x11]) ∧ plays s 0x40 (es.take 8) = true ∧
     answerRead (s.played (es.take 8)) "1" 0x40 1 = none ∧
     after (.pwmBringup 0) s (fun t => t.ending == none && t.hung == some (.read 0 1) &&
       t.history == es.take 8) = true) := by decide +kernel

/-- A state that meets the three invariants and whose step opens a handle. -/
def opening : State :=
  { State.reset with requests := [⟨0x01, [.str "1", .num 0x36]⟩], script := [.onOpen .ok] }

theorem test_witness_tables_inv : TablesInv opening := by
  constructor <;> simp [opening, State.reset, State.resetWith, TableWf]

theorem test_witness_history_inv : HistoryInv opening :=
  ⟨test_witness_tables_inv, by simp [opening, State.reset, State.resetWith]⟩

theorem test_witness_close_inv : CloseInv opening := by
  refine ⟨test_witness_tables_inv, ?_, ?_, ?_⟩ <;> simp [opening, State.reset, State.resetWith]

/-- A state that meets the invariant with a closed handle, whose next step is an operation on that handle. -/
theorem test_witness_closed_entry :
    CloseInv { shut 0x36 with requests := [⟨0x02, [.num 0]⟩] } ∧
    lookup 0 (shut 0x36).handles = some { entry 0x36 with isOpen := false } ∧
    (match step { shut 0x36 with requests := [⟨0x02, [.num 0]⟩] } with
      | .next t => t.ending == some (.err .notOpen) && t.handles == (shut 0x36).handles &&
          t.history == (shut 0x36).history
      | _ => false) = true := by
  refine ⟨⟨⟨?_, ?_, ?_, ?_, ?_⟩, ?_, ?_, ?_⟩, by decide +kernel, by decide +kernel⟩
  · simp [shut, TableWf]
  · simp [shut, State.reset, State.resetWith, TableWf]
  · intro h; simpa [shut, lookup] using eq_comm
  · simp [shut, State.reset, State.resetWith]
  · simp [shut, State.reset, State.resetWith]
  · intro h r hl; simp [shut, lookup] at hl ⊢; simp [← hl.2, hl.1]
  · simp [shut, eventHandle]
  · intro pre post h heq
    simp [shut, List.singleton_eq_append_iff] at heq
    simp [heq]

theorem test_witness_invariant_step : (match step opening with
    | .next t => t.ending == some (.ok (.handle 0)) && t.nextHandle == 1
    | _ => false) = true := by decide +kernel

end Sys2Proof.Tests
end

/-! PROOFS. How operations end (00_scope.md R14): each shape of `Does` leaves one ending in a block that is not blocked, or
no ending and an unanswered transfer. -/

namespace Sys2Proof.Machine

/-- An outcome that is a next state with exactly one of an ending and an unanswered transfer (00_scope.md R14). -/
def EndsOneWay (o : Host.Outcome State Fault Refusal) : Prop :=
  ∃ t, o = .next t ∧
    ((t.hung = none ∧ ∃ e, t.ending = some e) ∨ (t.ending = none ∧ ∃ x, t.hung = some x))

theorem endsOneWay_of_ending {t : State} {e : Ending} (hh : t.hung = none) (he : t.ending = some e) :
    EndsOneWay (.next t) :=
  ⟨t, rfl, .inl ⟨hh, e, he⟩⟩

theorem endsOneWay_blockedOn (s : State) (x : Transfer) : EndsOneWay (.next ((s.blockedOn x).ended none)) :=
  ⟨_, rfl, .inr ⟨ended_ending _ _, x, blockedOn_hung s x⟩⟩

theorem openBus_endsOneWay {s : State} (hs : s.hung = none) (bus : String) (addr : BusAddr) :
    EndsOneWay (finish (openBus bus addr s)) := by
  unfold openBus
  split
  · exact endsOneWay_blockedOn s (.open_ bus addr)
  all_goals exact endsOneWay_of_ending hs rfl

theorem traffic_endsOneWay {h : HandleId} {r : HandleRec} {s : State} {x : Run Value} (hs : s.hung = none)
    (hx : Traffic h r s x) : EndsOneWay (finish x) := by
  obtain ⟨es, -, -, ⟨v, hf⟩ | ⟨e, -, hf⟩ | ⟨y, hf⟩⟩ := finish_plays hx <;> rw [hf]
  · exact endsOneWay_of_ending hs rfl
  · exact endsOneWay_of_ending hs rfl
  · exact endsOneWay_blockedOn _ y

theorem setFreq_endsOneWay {h : HandleId} {r : HandleRec} {s : State} {x : Run Unit} (hs : s.hung = none)
    (f : Rat) (hx : Traffic h r s x) :
    EndsOneWay (finish (x.andThen fun _ t => .done .unit (t.setFreq h f))) := by
  obtain ⟨es, -, -, hf | ⟨e, -, hf⟩ | ⟨y, hf⟩⟩ := finish_setFreq_plays f hx <;> rw [hf]
  · exact endsOneWay_of_ending hs rfl
  · exact endsOneWay_of_ending hs rfl
  · exact endsOneWay_blockedOn _ y

theorem Does.endsOneWay {i : Instr} {s : State} {o : Host.Outcome State Fault Refusal} (hs : s.hung = none)
    (hd : Does i s o) : EndsOneWay o := by
  cases hd with
  | opens bus addr => exact openBus_endsOneWay hs bus addr
  | sends h r x _ _ _ hx => exact traffic_endsOneWay hs hx
  | setsFreq h f r x _ _ _ hx => exact setFreq_endsOneWay hs f hx
  | refuses | refusesTick | faults | notOpen | closes | converts | draws => exact endsOneWay_of_ending hs rfl

/-- Settles O9, by cases on the shape of the execution. -/
theorem operationsEndInExactlyOneWay : Obligations.OperationsEndInExactlyOneWay :=
  fun i s hs => (exec_does i s).endsOneWay hs

end Sys2Proof.Machine

/-! PROOFS. The two sticky marks (10_state.md R26): a request either leaves both as they were and ends in neither a refusal nor
a fault, or sets exactly the mark of its ending. -/

namespace Sys2Proof.Machine

/-- Both marks stand as they did. -/
def KeepsMarks (s t : State) : Prop := t.refused = s.refused ∧ t.faulted = s.faulted

/-- What performing a request can do to the marks of `s`. -/
inductive MarksStep (s : State) : State → Prop
  | keeps {t : State} (hm : KeepsMarks s t) (hr : ∀ x, t.ending ≠ some (.refused x))
      (hf : ∀ x, t.ending ≠ some (.faulted x)) : MarksStep s t
  | refuses (x : RefuseReason) : MarksStep s (s.markRefused x)
  | faults (x : FaultReason) : MarksStep s (s.markFaulted x)

theorem Run.ending_ne_refused (x : Run Value) (r : RefuseReason) : x.ending ≠ some (.refused r) := by
  cases x <;> simp

theorem Run.ending_ne_faulted (x : Run Value) (r : FaultReason) : x.ending ≠ some (.faulted r) := by
  cases x <;> simp

/-- An operation that is finished can set no mark that its run has not set. -/
theorem KeepsMarks.marksStep_finish {s t : State} {x : Run Value} (hx : KeepsMarks s x.state)
    (h : finish x = .next t) : MarksStep s t := by
  obtain rfl : x.state.ended x.ending = t := by simpa [finish] using h
  exact .keeps hx x.ending_ne_refused x.ending_ne_faulted

theorem openBus_keepsMarks (bus : String) (addr : BusAddr) (s : State) :
    KeepsMarks s (openBus bus addr s).state := by
  unfold openBus
  split <;> exact ⟨rfl, rfl⟩

theorem Traffic.keepsMarks {α : Type} {h : HandleId} {r : HandleRec} {s : State} {x : Run α}
    (hx : Traffic h r s x) : KeepsMarks s x.state := by
  obtain ⟨es, script, hung, hs, -⟩ := hx.only
  rw [hs]
  exact ⟨rfl, rfl⟩

theorem Traffic.setFreq_keepsMarks {h : HandleId} {r : HandleRec} {s : State} {x : Run Unit} (f : Rat)
    (hx : Traffic h r s x) :
    KeepsMarks s (x.andThen fun _ t => .done Value.unit (t.setFreq h f)).state := by
  have hm := hx.keepsMarks
  cases x with
  | done _ t | raised _ t | hung t => exact hm

theorem Does.marksStep {i : Instr} {s t : State} {o : Host.Outcome State Fault Refusal} (hd : Does i s o)
    (ho : o = .next t) : MarksStep s t := by
  cases hd with
  | refuses x | refusesTick => cases ho; exact .refuses _
  | faults => cases ho; exact .faults _
  | opens bus addr => exact (openBus_keepsMarks bus addr s).marksStep_finish ho
  | sends h r x _ _ _ hx => exact hx.keepsMarks.marksStep_finish ho
  | setsFreq h f r x _ _ _ hx => exact (hx.setFreq_keepsMarks f).marksStep_finish ho
  | notOpen | closes | converts | draws => cases ho; exact .keeps ⟨rfl, rfl⟩ (by simp) (by simp)

theorem perform_marksStep {q : Request} {s t : State} (h : perform q s = .next t) : MarksStep s t := by
  unfold perform at h
  split at h
  · exact (exec_does _ s).marksStep h
  · cases h; exact .refuses _

theorem step_of_request {s : State} {q : Request} {rest : List Request} (hs : s.hung = none)
    (hq : s.requests = q :: rest) : step s = perform q s.took := by
  simp [step, hs, hq]

theorem MarksStep.refused_iff {s t : State} (h : MarksStep s t) :
    t.refused = true ↔ s.refused = true ∨ ∃ x, t.ending = some (.refused x) := by
  cases h with
  | keeps hm hr => simp [hm.1, hr]
  | refuses x => exact iff_of_true rfl (.inr ⟨x, rfl⟩)
  | faults => simp

theorem MarksStep.faulted_iff {s t : State} (h : MarksStep s t) :
    t.faulted = true ↔ s.faulted = true ∨ ∃ x, t.ending = some (.faulted x) := by
  cases h with
  | keeps hm _ hf => simp [hm.2, hf]
  | refuses => simp
  | faults x => exact iff_of_true rfl (.inr ⟨x, rfl⟩)

theorem MarksStep.keepsMarks_of_err {s t : State} (h : MarksStep s t) {e : Error}
    (he : t.ending = some (.err e)) : KeepsMarks s t := by
  cases h with
  | keeps hm => exact hm
  | refuses | faults => simp at he

theorem good_iff_no_mark (t : State) : t.good ↔ t.refused ≠ true ∧ t.faulted ≠ true := by
  simp [State.good]

/-- Settles O10, by what performing the taken request can do to the marks. -/
theorem marksFollowTheEndings : Obligations.MarksFollowTheEndings := by
  refine ⟨fun s t q rest hs hq hstep => ?_, good_iff_no_mark⟩
  rw [step_of_request hs hq] at hstep
  have hm : MarksStep s.took t := perform_marksStep hstep
  exact ⟨hm.refused_iff, hm.faulted_iff, fun e he => hm.keepsMarks_of_err he⟩

end Sys2Proof.Machine

/-! PROOFS. Where the events of an operation on a handle go (20_memory.md R41): each shape of `Does` on a handle appends only
events that name it and the pair of its entry. -/

namespace Sys2Proof.Machine

/-- The history of `t` is that of `s` with events behind it that are bound to the entry `r` of `h`. -/
def AppendsBound (h : HandleId) (r : HandleRec) (s t : State) : Prop :=
  ∃ es, t.history = s.history ++ es ∧ ∀ e ∈ es, boundTo h r e

section
variable {h : HandleId} {r : HandleRec} {s t : State}

theorem boundTo_of_through {e : Event} (he : through h r e) : boundTo h r e := by
  cases e with
  | wrote | read | delayed => exact he
  | opened | closed => exact he.elim

theorem appendsBound_of_history_eq (ht : t.history = s.history) : AppendsBound h r s t :=
  ⟨[], by simp [ht], by simp⟩

/-- CLOSE appends its own event, and no transfer (40_transport.md R96). -/
theorem closed_appendsBound (q : HandleRec) (e : Option Ending) :
    AppendsBound h r s (((s.closeEntry h q).record (.closed h)).ended e) :=
  ⟨[.closed h], rfl, by simp [boundTo]⟩

theorem Traffic.appendsBound {α : Type} {x : Run α} (hx : Traffic h r s x) : AppendsBound h r s x.state := by
  obtain ⟨es, script, hung, hs, hes⟩ := hx.only
  rw [hs]
  exact ⟨es, rfl, fun e he => boundTo_of_through (hes e he)⟩

/-- Writing the frequency register behind traffic appends nothing. -/
theorem Traffic.setFreq_appendsBound {x : Run Unit} (f : Rat) (hx : Traffic h r s x) :
    AppendsBound h r s (x.andThen fun _ t => .done Value.unit (t.setFreq h f)).state := by
  have hb := hx.appendsBound
  cases x with
  | done _ t | raised _ t | hung t => exact hb

theorem AppendsBound.of_finish {x : Run Value} (hx : AppendsBound h r s x.state) (hf : finish x = .next t) :
    AppendsBound h r s t := by
  obtain rfl : x.state.ended x.ending = t := by simpa [finish] using hf
  exact hx

/-- A handle that passes the check does so with the one entry that the table has for it. -/
theorem entry_eq_of_checkOpen {q : HandleRec} (hc : checkOpen s h = some q) (hr : lookup h s.handles = some r) :
    q = r :=
  Option.some.inj ((checkOpen_eq_some.1 hc).1.symm.trans hr)

theorem Does.appendsBound {i : Instr} {o : Host.Outcome State Fault Refusal} (hd : Does i s o)
    (hi : handleOf i = some h) (hr : lookup h s.handles = some r) (ho : o = .next t) : AppendsBound h r s t := by
  cases hd with
  | refuses | refusesTick | faults | notOpen | converts | draws =>
    cases ho; exact appendsBound_of_history_eq rfl
  | opens bus addr hop => subst hop; cases hi
  | closes k q hcl => subst hcl; cases hi; cases ho; exact closed_appendsBound q _
  | sends k q x hk _ hc hx =>
    obtain rfl : k = h := Option.some.inj (hk.symm.trans hi)
    obtain rfl := entry_eq_of_checkOpen hc hr
    exact hx.appendsBound.of_finish ho
  | setsFreq k f q x hset _ hc hx =>
    subst hset; cases hi
    obtain rfl := entry_eq_of_checkOpen hc hr
    exact (hx.setFreq_appendsBound f).of_finish ho

end

/-- Settles O18, by cases on the shape of the execution. -/
theorem transfersTargetTheBoundPair : Obligations.TransfersTargetTheBoundPair :=
  fun i _ _ s _ hi hr he => (exec_does i s).appendsBound hi hr he

end Sys2Proof.Machine

/-! PROOFS. The reserved opcodes (30_encoding.md R79): the decoder knows no operation for exactly these, and a request that
does not decode is refused and performs nothing. -/

namespace Sys2Proof.Machine

theorem decode_eq_unknownOpcode_iff (q : Request) :
    decode q = .error .unknownOpcode ↔ decodeOp q.op q.operands = none := by
  unfold decode
  split <;> simp [*]

/-- The opcodes of no operation are the gaps of the opcode map (30_encoding.md R78, R79), whatever the operands. -/
theorem decodeOp_eq_none_iff (op : Byte) (ops : List Operand) :
    decodeOp op ops = none ↔
      (op.toNat = 0x00 ∨ (0x06 ≤ op.toNat ∧ op.toNat ≤ 0x0F) ∨ (0x19 ≤ op.toNat ∧ op.toNat ≤ 0x1F) ∨
        (0x2C ≤ op.toNat ∧ op.toNat ≤ 0x2F) ∨ 0x37 ≤ op.toNat) := by
  unfold decodeOp
  split
  case h_34 => -- no row of the map matches: the opcode avoids its 33 values
    simp only [imp_false, true_iff] at *
    omega
  all_goals -- a row matches: its opcode lies in no gap
    exact iff_of_false (Option.some_ne_none _) (by omega)

theorem perform_eq_refuse_of_decode_error {q : Request} {x : RefuseReason} (h : decode q = .error x) (s : State) :
    perform q s = refuse x s := by
  simp [perform, h]

/-- Settles O3, by the decoder's table for the opcodes and by the decoder's refusal for the step. -/
theorem reservedOpcodesAreRefused : Obligations.ReservedOpcodesAreRefused := by
  refine ⟨fun q => (decode_eq_unknownOpcode_iff q).trans (decodeOp_eq_none_iff q.op q.operands),
    fun q rest s hs hq hd => ?_⟩
  calc step s = perform q s.took := step_of_request hs hq
    _ = refuse .unknownOpcode s.took := perform_eq_refuse_of_decode_error hd s.took
    _ = .next { s with requests := rest, refused := true, ending := some (.refused .unknownOpcode) } := by
      simp [refuse, State.took, State.markRefused, hq]

end Sys2Proof.Machine

/-! PROOFS. Errors roll nothing back (40_transport.md R98, 60_exceptions.md R204): an execution that ends in an error has played
events that the environment answered, and changed nothing else; and only the handle check raises NotOpen (R90). -/

namespace Sys2Proof.Machine

/-- `t` is `s` with events played that the environment answers as they say, and the error `e` as ending. -/
def PlayedThenRaised (s : State) (e : Error) (t : State) : Prop :=
  ∃ es, environmentPlays s es = true ∧ t = (s.played es).ended (some (.err e))

section
variable {i : Instr} {s t : State} {e : Error}

theorem environmentPlays_opened {bus : String} {addr : BusAddr} {a : OpenAnswer} {k : Option HandleId} :
    environmentPlays s [.opened bus addr a k] = true ↔ answerOpen s bus addr = some a := by
  simp [environmentPlays, answersAs]

/-- OPEN raises an error behind its one event. -/
theorem openBus_raises {bus : String} {addr : BusAddr} (ht : finish (openBus bus addr s) = .next t)
    (he : t.ending = some (.err e)) : PlayedThenRaised s e t ∧ e ≠ .notOpen := by
  unfold openBus at ht
  split at ht <;> cases ht <;> cases he
  case h_2 ha | h_3 ha =>
    exact ⟨⟨[_], environmentPlays_opened.2 ha, congrArg (State.ended · _) (answered_eq_played rfl)⟩, by simp⟩

theorem transferError_ne_notOpen (he : e = .writeFailed ∨ e = .readFailed ∨ e = .shortRead) : e ≠ .notOpen := by
  rcases he with rfl | rfl | rfl <;> simp

theorem Traffic.raises {h : HandleId} {r : HandleRec} {x : Run Value} (hx : Traffic h r s x)
    (ht : finish x = .next t) (he : t.ending = some (.err e)) : PlayedThenRaised s e t ∧ e ≠ .notOpen := by
  obtain ⟨es, -, hp, ⟨v, hf⟩ | ⟨d, hd, hf⟩ | ⟨y, hf⟩⟩ := finish_plays hx <;> rw [hf] at ht <;> cases ht <;> cases he
  exact ⟨⟨es, hp, rfl⟩, transferError_ne_notOpen hd⟩

/-- PWM_SET_FREQ raises a transfer's error before it writes the frequency register. -/
theorem Traffic.setFreq_raises {h : HandleId} {r : HandleRec} {x : Run Unit} (f : Rat) (hx : Traffic h r s x)
    (ht : finish (x.andThen fun _ t => .done .unit (t.setFreq h f)) = .next t)
    (he : t.ending = some (.err e)) : PlayedThenRaised s e t ∧ e ≠ .notOpen := by
  obtain ⟨es, -, hp, hf | ⟨d, hd, hf⟩ | ⟨y, hf⟩⟩ := finish_setFreq_plays f hx <;> rw [hf] at ht <;> cases ht <;> cases he
  exact ⟨⟨es, hp, rfl⟩, transferError_ne_notOpen hd⟩

/-- What an execution that ends in an error has done, and where NotOpen comes from. -/
theorem Does.raises {o : Host.Outcome State Fault Refusal} (hd : Does i s o) (ho : o = .next t)
    (he : t.ending = some (.err e)) :
    PlayedThenRaised s e t ∧ (e = .notOpen → ∃ h, handleOf i = some h ∧ checkOpen s h = none) := by
  cases hd with
  | notOpen h hi _ hc =>
    cases ho; cases he
    exact ⟨⟨[], rfl, by rw [played_nil]⟩, fun _ => ⟨h, hi, hc⟩⟩
  | opens => exact (openBus_raises ho he).imp_right fun hne hn => (hne hn).elim
  | sends h r x _ _ _ hx => exact (hx.raises ho he).imp_right fun hne hn => (hne hn).elim
  | setsFreq h f r x _ _ _ hx => exact (hx.setFreq_raises f ho he).imp_right fun hne hn => (hne hn).elim
  | refuses | refusesTick | faults | closes | converts | draws => cases ho; cases he

theorem PlayedThenRaised.checkOpen_eq (hp : PlayedThenRaised s e t) (h : HandleId) : checkOpen t h = checkOpen s h := by
  obtain ⟨es, -, rfl⟩ := hp
  rfl

end

/-- Settles O17, by what an execution that ends in an error has done. -/
theorem errorsRollNothingBack : Obligations.ErrorsRollNothingBack := by
  intro i s t e hexec he
  obtain ⟨hp, -⟩ := (exec_does i s).raises hexec he
  exact ⟨hp, hp.checkOpen_eq⟩

end Sys2Proof.Machine

/-! PROOFS. The handle check (40_transport.md R90): an operation on a handle that passes its static checks ends in NotOpen
exactly where the check fails, and then changes nothing else. -/

namespace Sys2Proof.Machine

theorem handleOf_eq_none_of_isPure {i : Instr} (hp : isPure i = true) : handleOf i = none := by
  unfold isPure at hp
  split at hp
  · cases hp
  · exact Option.isNone_iff_eq_none.1 hp

section
variable {i : Instr} {h : HandleId} {s t : State} {o : Host.Outcome State Fault Refusal}

theorem checkOpen_eq_none_of_closed
    (hc : lookup h s.handles = none ∨ ∃ r, lookup h s.handles = some r ∧ r.isOpen = false) : checkOpen s h = none := by
  obtain hn | ⟨r, hr, hcl⟩ := hc
  · simp [checkOpen, hn]
  · simp [checkOpen, hr, hcl]

/-- Where the check fails, no shape but the one that ends in NotOpen is left. -/
theorem Does.eq_notOpen (hd : Does i s o) (hi : handleOf i = some h) (hw : i.wellFormed s.config = true)
    (hc : checkOpen s h = none) : o = .next (s.ended (some (.err .notOpen))) := by
  cases hd with
  | notOpen => rfl
  | refuses _ hill => rw [hw] at hill; cases hill
  | refusesTick k _ _ r hop _ hk | faults k _ _ r hop _ hk | closes k r hop hk | setsFreq k _ r _ hop _ hk =>
    subst hop; cases hi; rw [hc] at hk; cases hk
  | sends k r _ hop _ hk =>
    obtain rfl : k = h := Option.some.inj (hop.symm.trans hi)
    rw [hc] at hk; cases hk
  | opens _ _ hop | draws _ _ hop => subst hop; cases hi
  | converts _ hpure => rw [handleOf_eq_none_of_isPure hpure] at hi; cases hi

theorem Does.ending_ne_notOpen {r : HandleRec} (hd : Does i s o) (hi : handleOf i = some h)
    (hc : checkOpen s h = some r) (ho : o = .next t) : t.ending ≠ some (.err .notOpen) := by
  intro he
  obtain ⟨k, hk, hnone⟩ := (hd.raises ho he).2 rfl
  obtain rfl : k = h := Option.some.inj (hk.symm.trans hi)
  rw [hc] at hnone; cases hnone

/-- `checkOpen` is the first step of every operation on a handle that passes its static checks (40_transport.md R90). -/
theorem exec_of_not_open (hi : handleOf i = some h) (hw : i.wellFormed s.config = true)
    (hc : checkOpen s h = none) : exec i s = .next (s.ended (some (.err .notOpen))) :=
  (exec_does i s).eq_notOpen hi hw hc

end

/-- Settles O14, by cases on the shape of the execution, and by where an ending NotOpen comes from. -/
theorem closedOrInvalidHandleIsNotOpen : Obligations.ClosedOrInvalidHandleIsNotOpen :=
  fun i _ s hi hw =>
    ⟨fun hc => exec_of_not_open hi hw (checkOpen_eq_none_of_closed hc),
     fun _ _ hr hopen ht => (exec_does i s).ending_ne_notOpen hi (checkOpen_eq_some.2 ⟨hr, hopen⟩) ht⟩

end Sys2Proof.Machine

/-! PROOFS. READ_REG (40_transport.md R92, R93): what each answer of the environment makes of it, and that these are all the
ways a register read can come out. -/

namespace Sys2Proof.Machine

/-! ## Lengths (30_encoding.md R77) -/

theorem regLen_eq_none {len : Byte} (h1 : len ≠ 1) (h2 : len ≠ 2) : regLen len = none := by
  rw [regLen, if_neg h1, if_neg h2]

theorem exists_regLen {len : Byte} (hl : len = 1 ∨ len = 2) : ∃ n, regLen len = some n ∧ n.count = len.toNat := by
  obtain rfl | rfl := hl
  · exact ⟨.one, rfl, rfl⟩
  · exact ⟨.two, rfl, rfl⟩

section
variable {s : State} {h : HandleId} {r : HandleRec} {reg len : Byte} {n : RegLen}

theorem exec_readReg_of_badLen (hl : regLen len = none) :
    exec (.readReg h reg len) s = .next (s.markRefused .badOperand) := by
  simp [exec, execReadReg, hl, refuse]

theorem exec_readReg_of_not_open (hl : len = 1 ∨ len = 2) (hc : checkOpen s h = none) :
    exec (.readReg h reg len) s = .next (s.ended (some (.err .notOpen))) := by
  obtain ⟨n, hn, -⟩ := exists_regLen hl
  exact exec_of_not_open rfl (by simp [Instr.wellFormed, hn]) hc

theorem exec_readReg_of_open (hl : regLen len = some n) (hr : checkOpen s h = some r) :
    exec (.readReg h reg len) s = finish (memRead h r reg n s) := by
  simp [exec, execReadReg, hl, withHandle_of_open hr]

/-! ## The answers of the environment -/

theorem environmentPlays_wrote {bytes : List Byte} {a : WriteAnswer} :
    environmentPlays s [wrote h r bytes a] = true ↔ answerWrite s r.bus r.addr bytes = some a := by
  simp [environmentPlays, answersAs, wrote]

theorem environmentPlays_read {k : Nat} {a : ReadAnswer} :
    environmentPlays s [.read h r.bus r.addr k a] = true ↔ answerRead s r.bus r.addr k = some a := by
  simp [environmentPlays, answersAs]

theorem environmentPlays_pair {e e' : Event} :
    environmentPlays s [e, e'] = true ↔
      environmentPlays s [e] = true ∧ environmentPlays (s.played [e]) [e'] = true := by
  simp [environmentPlays]

theorem readBytes_of_select_fails (k : Nat) (hp : environmentPlays s [wrote h r [reg] .fail] = true) :
    readBytes h r reg k s = .raised .writeFailed (s.played [wrote h r [reg] .fail]) := by
  rw [readBytes, sendFrame_fail hp, andThen_raised]

theorem readBytes_of_select_hangs (k : Nat) (ha : answerWrite s r.bus r.addr [reg] = none) :
    readBytes h r reg k s = .hung (s.blockedOn (.write h [reg])) := by
  rw [readBytes, sendFrame_hung ha, andThen_hung]

theorem readBytes_of_read_fails {k : Nat}
    (hp : environmentPlays s [wrote h r [reg] .ok, readFails h r k] = true) :
    readBytes h r reg k s = .raised .readFailed (s.played [wrote h r [reg] .ok, readFails h r k]) := by
  obtain ⟨hw, hr⟩ := environmentPlays_pair.1 hp
  rw [readBytes, sendFrame_ok hw, andThen_done, busRead_of_plays hr, andThen_done, played_played]
  rfl

theorem readBytes_of_short {k : Nat} {l : List Byte} (hl : l.length < k)
    (hp : environmentPlays s [wrote h r [reg] .ok, readBack h r k l] = true) :
    readBytes h r reg k s = .raised .shortRead (s.played [wrote h r [reg] .ok, readBack h r k l]) := by
  obtain ⟨hw, hr⟩ := environmentPlays_pair.1 hp
  rw [readBytes, sendFrame_ok hw, andThen_done, busRead_of_plays hr, andThen_done, played_played]
  exact if_pos hl

theorem readBytes_of_read_hangs {k : Nat} (hw : environmentPlays s [wrote h r [reg] .ok] = true)
    (ha : answerRead (s.played [wrote h r [reg] .ok]) r.bus r.addr k = none) :
    readBytes h r reg k s = .hung ((s.played [wrote h r [reg] .ok]).blockedOn (.read h k)) := by
  rw [readBytes, sendFrame_ok hw, andThen_done, busRead, ha]
  rfl

/-! ## The body of READ_REG -/

theorem memRead_of_raised {e : Error} {t : State} (hb : readBytes h r reg n.count s = .raised e t) :
    memRead h r reg n s = .raised e t := by
  cases n with
  | one => rw [RegLen.count] at hb; simp [memRead, readByte, hb]
  | two => rw [RegLen.count] at hb; simp [memRead, readHalf, hb]

theorem memRead_of_hung {t : State} (hb : readBytes h r reg n.count s = .hung t) :
    memRead h r reg n s = .hung t := by
  cases n with
  | one => rw [RegLen.count] at hb; simp [memRead, readByte, hb]
  | two => rw [RegLen.count] at hb; simp [memRead, readHalf, hb]

/-- An error of the register read is the one that READ_REG ends in. -/
theorem exec_readReg_of_raised {e : Error} {t : State} (hr : checkOpen s h = some r) (hl : len = 1 ∨ len = 2)
    (hb : readBytes h r reg len.toNat s = .raised e t) :
    exec (.readReg h reg len) s = .next (t.ended (some (.err e))) := by
  obtain ⟨n, hn, hcount⟩ := exists_regLen hl
  rw [exec_readReg_of_open hn hr, memRead_of_raised (hcount ▸ hb), finish_raised]

theorem memRead_one {b : Byte} (hp : environmentPlays s (regRead h r reg [b]) = true) :
    memRead h r reg .one s = .done (.u8 b) (s.played (regRead h r reg [b])) := by
  simp [memRead, readByte_ok hp]

theorem memRead_two {b0 b1 : Byte} (hp : environmentPlays s (regRead h r reg [b0, b1]) = true) :
    memRead h r reg .two s = .done (.u16 (bigEndian b0 b1)) (s.played (regRead h r reg [b0, b1])) := by
  simp [memRead, readHalf_ok hp]

/-- Both transfers answered with enough bytes: the read is done with some value. -/
theorem memRead_of_full {l : List Byte} (hl : l.length = n.count)
    (hp : environmentPlays s (regRead h r reg l) = true) :
    ∃ v, memRead h r reg n s = .done v (s.played (regRead h r reg l)) := by
  cases n with
  | one => obtain ⟨b, rfl⟩ := List.length_eq_one_iff.1 hl; exact ⟨_, memRead_one hp⟩
  | two => obtain ⟨b0, b1, rfl⟩ := List.length_eq_two.1 hl; exact ⟨_, memRead_two hp⟩

/-- The ways a read of `k` bytes of the register `reg`, started in `s`, can come out (40_transport.md R92). -/
inductive ReadsRegister (h : HandleId) (r : HandleRec) (reg : Byte) (k : Nat) (s : State) : Run Value → Prop
  | full (v : Value) (l : List Byte) (hl : l.length = k) :
      ReadsRegister h r reg k s (.done v (s.played (regRead h r reg l)))
  | selectFailed : ReadsRegister h r reg k s (.raised .writeFailed (s.played [wrote h r [reg] .fail]))
  | readFailed : ReadsRegister h r reg k s (.raised .readFailed (s.played [wrote h r [reg] .ok, readFails h r k]))
  | short (l : List Byte) (hl : l.length < k) :
      ReadsRegister h r reg k s (.raised .shortRead (s.played [wrote h r [reg] .ok, readBack h r k l]))
  | selectHung : ReadsRegister h r reg k s (.hung (s.blockedOn (.write h [reg])))
  | readHung : ReadsRegister h r reg k s (.hung ((s.played [wrote h r [reg] .ok]).blockedOn (.read h k)))

/-- Whatever the environment answers to the select and to the read, or does not answer. -/
theorem memRead_readsRegister (h : HandleId) (r : HandleRec) (reg : Byte) (n : RegLen) (s : State) :
    ReadsRegister h r reg n.count s (memRead h r reg n s) := by
  match hw : answerWrite s r.bus r.addr [reg] with
  | none => rw [memRead_of_hung (readBytes_of_select_hangs _ hw)]; exact .selectHung
  | some .fail =>
    rw [memRead_of_raised (readBytes_of_select_fails _ (environmentPlays_wrote.2 hw))]; exact .selectFailed
  | some .ok =>
    have hs := environmentPlays_wrote (h := h).2 hw
    match ha : answerRead (s.played [wrote h r [reg] .ok]) r.bus r.addr n.count with
    | none => rw [memRead_of_hung (readBytes_of_read_hangs hs ha)]; exact .readHung
    | some .fail =>
      have hp := environmentPlays_pair.2 ⟨hs, environmentPlays_read (h := h).2 ha⟩
      rw [memRead_of_raised (readBytes_of_read_fails hp)]; exact .readFailed
    | some (.bytes l) =>
      have hfits : l.length ≤ n.count := by simpa [ReadAnswer.fits] using answerRead_fits ha
      have hp := environmentPlays_pair.2 ⟨hs, environmentPlays_read (h := h).2 ha⟩
      obtain hl | hl := hfits.lt_or_eq
      · rw [memRead_of_raised (readBytes_of_short hl hp)]; exact .short l hl
      · obtain ⟨v, hv⟩ := memRead_of_full (l := l) hl (by rw [← hl] at hp; exact hp)
        rw [hv]; exact .full v l hl

/-! ## No partial value -/

variable {k : Nat} {x : Run Value}

theorem ReadsRegister.full_of_value (hx : ReadsRegister h r reg k s x) {v : Value} (hv : x.ending = some (.ok v)) :
    ∃ l : List Byte, l.length = k ∧ x.state.history = s.history ++ regRead h r reg l := by
  cases hx with
  | full v l hl => exact ⟨l, hl, rfl⟩
  | selectFailed | readFailed | short | selectHung | readHung => cases hv

/-- The last of the events appended. -/
theorem getLast?_eq_of_append {l es fs : List Event} {e : Event} (hh : l ++ fs = l ++ es ++ [e]) :
    fs.getLast? = some e := by
  rw [List.append_assoc, List.append_cancel_left_eq] at hh
  simp [hh]

theorem ReadsRegister.shortRead_of_short_answer (hx : ReadsRegister h r reg k s x) {es : List Event} {m : Nat}
    {l : List Byte} (hh : x.state.history = s.history ++ es ++ [readBack h r m l]) (hl : l.length < m) :
    x.ending = some (.err .shortRead) := by
  cases hx with
  | short => rfl
  | full v l' hl' => -- the last event is a read with all the bytes it asked for
    have hlast := getLast?_eq_of_append hh
    simp only [regRead, readBack, List.getLast?_cons_cons, List.getLast?_singleton, Option.some.injEq, Event.read.injEq,
      ReadAnswer.bytes.injEq] at hlast
    obtain ⟨-, -, -, rfl, rfl⟩ := hlast
    exact absurd hl (lt_irrefl _)
  | selectHung => simp at hh
  | selectFailed | readFailed | readHung => cases getLast?_eq_of_append hh

theorem ReadsRegister.history_of_readFailed (hx : ReadsRegister h r reg k s x)
    (he : x.ending = some (.err .readFailed)) :
    x.state.history = s.history ++ [wrote h r [reg] .ok, readFails h r k] := by
  cases hx with
  | readFailed => rfl
  | full | selectFailed | short | selectHung | readHung => cases he

end

/-- Settles O22, by what a register read can come to, whatever the environment answers. -/
theorem readNeverReturnsAPartialValue : Obligations.ReadNeverReturnsAPartialValue := by
  intro s t h r reg len hl hr hexec
  obtain ⟨n, hn, hcount⟩ := exists_regLen hl
  have hx : ReadsRegister h r reg len.toNat s (memRead h r reg n s) := hcount ▸ memRead_readsRegister h r reg n s
  rw [exec_readReg_of_open hn hr] at hexec
  obtain rfl : (memRead h r reg n s).state.ended (memRead h r reg n s).ending = t := by simpa [finish] using hexec
  exact ⟨fun _ hv => hx.full_of_value hv, fun _ _ _ hh hl => hx.shortRead_of_short_answer hh hl,
    hx.history_of_readFailed⟩

/-- Settles O21, by the body of READ_REG under each list of answers. -/
theorem readRegReturnsTheBytesRead : Obligations.ReadRegReturnsTheBytesRead := by
  intro s h reg len
  refine ⟨fun h1 h2 => exec_readReg_of_badLen (regLen_eq_none h1 h2), exec_readReg_of_not_open, fun r hr =>
    ⟨fun b0 hp => ?_, fun b0 b1 hp => ?_,
      fun hl hp => exec_readReg_of_raised hr hl (readBytes_of_select_fails _ hp),
      fun hl hp => exec_readReg_of_raised hr hl (readBytes_of_read_fails hp),
      fun l hl hs hp => exec_readReg_of_raised hr hl (readBytes_of_short hs hp)⟩⟩
  · rw [exec_readReg_of_open rfl hr, memRead_one hp, finish_done]
  · rw [exec_readReg_of_open rfl hr, memRead_two hp, finish_done, bigEndian_eq]

end Sys2Proof.Machine

/-! PROOFS. OPEN (40_transport.md R91), and a number outside the width of its operand (30_encoding.md R77). -/

namespace Sys2Proof.Machine

theorem asBits_num_eq_none {w n : Nat} (hn : 2 ^ w ≤ n) : (Operand.num n).asBits w = none := by
  have hnat : (Operand.num n).asNat = some n := asNat_natOp n
  simp [Operand.asBits, hnat, hn]

theorem decode_open_of_bad_addr (bus : String) {o : Operand} (ho : o.asBits 7 = none) :
    decode ⟨0x01, [.str bus, o]⟩ = .error .badOperand := by
  simp [decode, decodeOp, twoOperands, ho]

section
variable {s : State} {bus : String} {addr : BusAddr}

theorem exec_open_of_busFail (ha : answerOpen s bus addr = some .busFail) :
    exec (.openHandle bus addr) s =
      .next ((s.answered (.opened bus addr .busFail none)).ended (some (.err .busOpenFailed))) := by
  simp [exec, execOpen, openBus, ha]

theorem exec_open_of_selectFail (ha : answerOpen s bus addr = some .selectFail) :
    exec (.openHandle bus addr) s =
      .next ((s.answered (.opened bus addr .selectFail none)).ended (some (.err .addressSelectFailed))) := by
  simp [exec, execOpen, openBus, ha]

theorem exec_open_of_ok (ha : answerOpen s bus addr = some .ok) :
    exec (.openHandle bus addr) s =
      .next (((s.bindHandle bus addr).answered (.opened bus addr .ok (some s.nextHandle))).ended
        (some (.ok (.handle s.nextHandle)))) := by
  simp [exec, execOpen, openBus, ha]

end

/-- Settles O19, by the three answers to an open, the rules of the two tables, and the reader of a `u7`. -/
theorem openBindsANewHandle : Obligations.OpenBindsANewHandle :=
  fun s bus _ =>
    ⟨exec_open_of_busFail, exec_open_of_selectFail,
     fun ha => ⟨_, _, exec_open_of_ok ha, lookup_insert_self _ _ _, fun _ hk => lookup_insert_of_ne hk _ _,
       lookup_erase_self s.nextHandle _, fun _ hk => lookup_erase_of_ne hk _⟩,
     fun _ hn => decode_open_of_bad_addr bus (asBits_num_eq_none hn)⟩

end Sys2Proof.Machine

/-! PROOFS. WRITE_REG and WRITE_RAW (40_transport.md R94, R95): each sends one frame, and ends as that transfer does. -/

namespace Sys2Proof.Machine

/-! ## The frame of WRITE_REG (30_encoding.md R72) -/

theorem hiByte_eq {value : Half} {hi lo : Byte} (hv : value.toNat = 256 * hi.toNat + lo.toNat) : hiByte value = hi := by
  have := lo.isLt
  apply BitVec.eq_of_toNat_eq
  rw [hiByte, BitVec.extractLsb'_toNat, hv, Nat.shiftRight_eq_div_pow]
  omega

theorem loByte_eq {value : Half} {hi lo : Byte} (hv : value.toNat = 256 * hi.toNat + lo.toNat) : loByte value = lo := by
  have := lo.isLt
  apply BitVec.eq_of_toNat_eq
  rw [loByte, BitVec.extractLsb'_toNat, hv, Nat.shiftRight_zero]
  omega

theorem writeFrame_one {value : Half} {hi lo : Byte} (reg : Byte) (hv : value.toNat = 256 * hi.toNat + lo.toNat) :
    writeFrame reg .one value = [reg, lo] := by
  rw [writeFrame, loByte_eq hv]

theorem writeFrame_two {value : Half} {hi lo : Byte} (reg : Byte) (hv : value.toNat = 256 * hi.toNat + lo.toNat) :
    writeFrame reg .two value = [reg, hi, lo] := by
  rw [writeFrame, hiByte_eq hv, loByte_eq hv]

theorem decode_writeReg_of_bad_value (oh oreg olen : Operand) {o : Operand} (ho : o.asBits 16 = none) :
    decode ⟨0x04, [oh, oreg, o, olen]⟩ = .error .badOperand := by
  simp [decode, decodeOp, fourOperands, ho]

section
variable {s : State} {h : HandleId} {r : HandleRec}

/-! ## One frame -/

theorem finish_frame_ok {bytes : List Byte} (hp : environmentPlays s [wrote h r bytes .ok] = true) :
    finish (unitAfter (sendFrame h r bytes s)) = .next ((s.played [wrote h r bytes .ok]).ended (some (.ok .unit))) := by
  rw [sendFrame_ok hp, unitAfter, andThen_done, finish_done]

theorem finish_frame_fail {bytes : List Byte} (hp : environmentPlays s [wrote h r bytes .fail] = true) :
    finish (unitAfter (sendFrame h r bytes s)) =
      .next ((s.played [wrote h r bytes .fail]).ended (some (.err .writeFailed))) := by
  rw [sendFrame_fail hp, unitAfter, andThen_raised, finish_raised]

/-! ## WRITE_REG -/

section
variable {reg len : Byte} {value : Half}

theorem exec_writeReg_of_badLen (hl : regLen len = none) :
    exec (.writeReg h reg value len) s = .next (s.markRefused .badOperand) := by
  simp [exec, execWriteReg, hl, refuse]

theorem exec_writeReg_of_not_open (hl : len = 1 ∨ len = 2) (hc : checkOpen s h = none) :
    exec (.writeReg h reg value len) s = .next (s.ended (some (.err .notOpen))) := by
  obtain ⟨n, hn, -⟩ := exists_regLen hl
  exact exec_of_not_open rfl (by simp [Instr.wellFormed, hn]) hc

theorem exec_writeReg_of_open {n : RegLen} (hl : regLen len = some n) (hr : checkOpen s h = some r) :
    exec (.writeReg h reg value len) s = finish (unitAfter (sendFrame h r (writeFrame reg n value) s)) := by
  simp [exec, execWriteReg, hl, withHandle_of_open hr, memWrite]

end

/-! ## WRITE_RAW -/

section
variable {bytes : List Byte}

theorem rawLenLegal_eq_true_iff {c : Config} :
    rawLenLegal c bytes = true ↔ bytes ≠ [] ∧ ∀ m, c.maxRawLen = some m → bytes.length ≤ m := by
  cases hm : c.maxRawLen <;> simp [rawLenLegal, hm]

theorem rawLenLegal_eq_false {c : Config}
    (hb : bytes = [] ∨ ∃ m, c.maxRawLen = some m ∧ m < bytes.length) : rawLenLegal c bytes = false := by
  rw [← Bool.not_eq_true, rawLenLegal_eq_true_iff]
  rintro ⟨hne, hmax⟩
  obtain hnil | ⟨m, hm, hlt⟩ := hb
  · exact hne hnil
  · exact absurd (hmax m hm) (Nat.not_le.2 hlt)

theorem exec_writeRaw_of_illegal (hl : rawLenLegal s.config bytes = false) :
    exec (.writeRaw h bytes) s = .next (s.markRefused .badOperand) := by
  simp [exec, execWriteRaw, hl, refuse]

theorem exec_writeRaw_of_open (hl : rawLenLegal s.config bytes = true) (hr : checkOpen s h = some r) :
    exec (.writeRaw h bytes) s = finish (unitAfter (sendFrame h r bytes s)) := by
  simp [exec, execWriteRaw, hl, withHandle_of_open hr]

end

end

/-- Settles O23, by the frame that a value makes and the two ends of its transfer. -/
theorem writeRegSendsOneFrame : Obligations.WriteRegSendsOneFrame := by
  intro s h reg len value
  refine ⟨fun h1 h2 => exec_writeReg_of_badLen (regLen_eq_none h1 h2), exec_writeReg_of_not_open,
    fun n hn => decode_writeReg_of_bad_value _ _ _ (asBits_num_eq_none hn), fun r hi lo hr hv => ?_⟩
  have h1 : exec (.writeReg h reg value 1) s = finish (unitAfter (sendFrame h r [reg, lo] s)) := by
    rw [exec_writeReg_of_open rfl hr, writeFrame_one reg hv]
  have h2 : exec (.writeReg h reg value 2) s = finish (unitAfter (sendFrame h r [reg, hi, lo] s)) := by
    rw [exec_writeReg_of_open rfl hr, writeFrame_two reg hv]
  rw [h1, h2]
  exact ⟨finish_frame_ok, finish_frame_ok, finish_frame_fail, finish_frame_fail⟩

/-- Settles O24, by the check of the list's length and the two ends of its transfer. -/
theorem writeRawSendsTheListUnchanged : Obligations.WriteRawSendsTheListUnchanged := by
  intro s h bytes
  refine ⟨fun hb => exec_writeRaw_of_illegal (rawLenLegal_eq_false hb), fun hne hmax => ?_⟩
  have hlegal : rawLenLegal s.config bytes = true := rawLenLegal_eq_true_iff.2 ⟨hne, hmax⟩
  refine ⟨exec_of_not_open (i := .writeRaw h bytes) rfl hlegal, fun r hr => ?_⟩
  rw [exec_writeRaw_of_open hlegal hr]
  exact ⟨finish_frame_ok, finish_frame_fail⟩

end Sys2Proof.Machine

/-! PROOFS. The angle-sensor registers (41_angle.md R111 to R113): AS_READ is READ_REG of the register's row, AS_WRITE and
AS_BURN each send one frame; and AS_MAXPOS (R114). -/

namespace Sys2Proof.Machine

/-! ## The register table (20_memory.md R47, R48) -/

theorem asReadable_of_ne_burn {a : AngleReg} (ha : a ≠ .burn) : asReadable a = true := by
  cases a with
  | burn => exact absurd rfl ha
  | _ => rfl

theorem regLen_of_ne_burn {a : AngleReg} (ha : a ≠ .burn) :
    regLen (if a ∈ [AngleReg.zmco, .status, .agc] then 1 else 2) = some (asRegLen a) := by
  cases a with
  | burn => exact absurd rfl ha
  | _ => rfl

theorem asReadable_one_of_mem :
    ∀ a ∈ [AngleReg.zmco, .status, .agc], asReadable a = true ∧ asRegLen a = .one := by decide

theorem asReadable_two_of_mem :
    ∀ a ∈ [AngleReg.zpos, .mpos, .mang, .conf, .rawAngle, .angle, .magnitude],
      asReadable a = true ∧ asRegLen a = .two := by decide

theorem asWritable_eq_false_of_not_mem {a : AngleReg} (ha : a ∉ [AngleReg.zpos, .mpos, .mang, .conf]) :
    asWritable a = false := by
  cases a with
  | zpos | mpos | mang | conf => exact absurd (by decide) ha
  | _ => rfl

theorem asRegLen_of_writable {a : AngleReg} (hw : asWritable a = true) : asRegLen a = .two := by
  cases a with
  | zpos | mpos | mang | conf => rfl
  | _ => cases hw

/-- The rows of the writable registers: their names with their addresses. -/
theorem writable_row_of_mem {m : AngleMap} {a : AngleReg} {addr : Byte}
    (hm : (a, addr) ∈ [(AngleReg.zpos, m.zpos), (.mpos, m.mpos), (.mang, m.mang), (.conf, m.conf)]) :
    asWritable a = true ∧ asRegAddr m a = addr := by
  simp only [List.mem_cons, Prod.mk.injEq, List.not_mem_nil, or_false] at hm
  obtain ⟨rfl, rfl⟩ | ⟨rfl, rfl⟩ | ⟨rfl, rfl⟩ | ⟨rfl, rfl⟩ := hm <;> exact ⟨rfl, rfl⟩

section
variable {s : State} {h : HandleId} {r : HandleRec} {a : AngleReg}

/-! ## AS_READ -/

theorem exec_asRead_burn : exec (.asRead h .burn) s = .next (s.markRefused .writeOnlyRegister) := rfl

theorem exec_asRead_eq_readReg {len : Byte} (ha : asReadable a = true) (hl : regLen len = some (asRegLen a)) :
    exec (.asRead h a) s = exec (.readReg h (asRegAddr s.config.asReg a) len) s := by
  simp [exec, execAsRead, execReadReg, ha, hl, withHandle]

theorem exec_asRead_of_open (ha : asReadable a = true) (hr : checkOpen s h = some r) :
    exec (.asRead h a) s = finish (memRead h r (asRegAddr s.config.asReg a) (asRegLen a) s) := by
  simp [exec, execAsRead, ha, withHandle_of_open hr]

/-! ## AS_WRITE -/

theorem exec_asWrite_of_not_writable {value : Half} (hw : asWritable a = false) :
    exec (.asWrite h a value) s = .next (s.markRefused .readOnlyRegister) := by
  simp [exec, execAsWrite, hw, refuse]

theorem exec_asWrite_of_open {value : Half} {hi lo : Byte} (hw : asWritable a = true)
    (hv : value.toNat = 256 * hi.toNat + lo.toNat) (hr : checkOpen s h = some r) :
    exec (.asWrite h a value) s =
      finish (unitAfter (sendFrame h r [asRegAddr s.config.asReg a, hi, lo] s)) := by
  simp [exec, execAsWrite, hw, withHandle_of_open hr, memWrite, asRegLen_of_writable hw, writeFrame_two _ hv]

/-! ## AS_BURN -/

theorem exec_asBurn_of_open {cmd : BurnCmd} (hr : checkOpen s h = some r) :
    exec (.asBurn h cmd) s =
      finish (unitAfter (sendFrame h r [s.config.asReg.burn, burnCode s.config cmd] s)) := by
  simp [exec, execAsBurn, withHandle_of_open hr, writeByte, asRegAddr]

end

/-! ## AS_MAXPOS -/

theorem maxPosition_eq_emod (zeroPos range : Half) :
    maxPosition zeroPos range = ((zeroPos.toNat + range.toNat : Nat) : Int) % 4096 := by
  rw [maxPosition, emod_eq_emod, fullScale, Nat.cast_add]

/-- Settles O25: AS_READ runs READ_REG's body with the register's row of the table. -/
theorem asReadReturnsTheRegisterAsRead : Obligations.AsReadReturnsTheRegisterAsRead := by
  intro s h r a addr haddr
  obtain rfl : addr = asRegAddr s.config.asReg a := haddr.trans (by cases a <;> rfl)
  refine ⟨exec_asRead_burn,
    fun ha => exec_asRead_eq_readReg (asReadable_of_ne_burn ha) (regLen_of_ne_burn ha),
    fun hr ha b0 hp => ?_, fun hr ha b0 b1 hp => ?_⟩
  · obtain ⟨hread, hlen⟩ := asReadable_one_of_mem a ha
    rw [exec_asRead_of_open hread hr, hlen, memRead_one hp, finish_done]
  · obtain ⟨hread, hlen⟩ := asReadable_two_of_mem a ha
    rw [exec_asRead_of_open hread hr, hlen, memRead_two hp, finish_done, bigEndian_eq]

/-- Settles O26, by the rows of the writable registers and the two ends of the one transfer. -/
theorem asWriteSendsTheValueAsGiven : Obligations.AsWriteSendsTheValueAsGiven := by
  intro s h r a value hi lo addr hv
  refine ⟨fun ha => exec_asWrite_of_not_writable (asWritable_eq_false_of_not_mem ha), fun hm => ?_⟩
  obtain ⟨hw, rfl⟩ := writable_row_of_mem hm
  refine ⟨exec_of_not_open (i := .asWrite h a value) rfl hw, fun hr => ?_⟩
  rw [exec_asWrite_of_open hw hv hr]
  exact ⟨finish_frame_ok, finish_frame_fail⟩

/-- Settles O27, by the two ends of the one transfer. -/
theorem asBurnSendsOneCommand : Obligations.AsBurnSendsOneCommand := by
  intro s h r cmd code hcode
  obtain rfl : code = burnCode s.config cmd := hcode.trans (by cases cmd <;> rfl)
  refine ⟨exec_of_not_open (i := .asBurn h cmd) rfl rfl, fun hr => ?_⟩
  rw [exec_asBurn_of_open hr]
  exact ⟨finish_frame_ok, finish_frame_fail⟩

/-- Settles O28: the result is the remainder of the sum, and `k` is its quotient. -/
theorem asMaxPosIsTheSumModulo4096 : Obligations.AsMaxPosIsTheSumModulo4096 := by
  intro s zeroPos range
  have hz := maxPosition_eq_emod zeroPos range
  exact ⟨maxPosition zeroPos range, rfl, by omega, by omega, (zeroPos.toNat + range.toNat) / 4096, by omega⟩

end Sys2Proof.Machine

/-! PROOFS. The IMU registers (42_imu.md R141 to R143): IMU_READ is READ_REG of the register's row, IMU_WRITE sends one frame,
and IMU_INIT is a one-byte READ_REG of the power-management register followed by a one-byte WRITE_REG, or that write alone. -/

namespace Sys2Proof.Machine

/-! ## The register table (20_memory.md R51) -/

theorem regLen_of_imuReg (g : ImuReg) :
    regLen (if g ∈ [ImuReg.pwrMgmt, .accelConfig, .gyroConfig, .dlpfConfig] then 1 else 2) = some (imuRegLen g) := by
  cases g <;> rfl

theorem imuRegLen_one_of_mem :
    ∀ g ∈ [ImuReg.pwrMgmt, .accelConfig, .gyroConfig, .dlpfConfig], imuRegLen g = .one := by decide

theorem imuRegLen_two_of_mem :
    ∀ g ∈ [ImuReg.accelX, .accelY, .accelZ, .temp, .gyroX, .gyroY, .gyroZ], imuRegLen g = .two := by decide

theorem imuWritable_eq_false_of_not_mem {g : ImuReg}
    (hg : g ∉ [ImuReg.pwrMgmt, .accelConfig, .gyroConfig, .dlpfConfig]) : imuWritable g = false := by
  cases g with
  | pwrMgmt | accelConfig | gyroConfig | dlpfConfig => exact absurd (by decide) hg
  | _ => rfl

/-- The rows of the configuration registers: their names with their addresses. -/
theorem imuWritable_row_of_mem {m : ImuMap} {g : ImuReg} {addr : Byte}
    (hm : (g, addr) ∈ [(ImuReg.pwrMgmt, m.pwrMgmt), (.accelConfig, m.accelConfig), (.gyroConfig, m.gyroConfig),
      (.dlpfConfig, m.dlpfConfig)]) : imuWritable g = true ∧ imuRegAddr m g = addr := by
  simp only [List.mem_cons, Prod.mk.injEq, List.not_mem_nil, or_false] at hm
  obtain ⟨rfl, rfl⟩ | ⟨rfl, rfl⟩ | ⟨rfl, rfl⟩ | ⟨rfl, rfl⟩ := hm <;> exact ⟨rfl, rfl⟩

/-! ## The sleep bit -/

theorem imuSleepMask_eq_twoPow (c : Config) : imuSleepMask c = BitVec.twoPow 8 c.imuSleepBit.val := rfl

/-- Masking with the complement of `IMU_SLEEP_MASK` clears that bit and keeps the others. -/
theorem eq_and_not_imuSleepMask {c : Config} {v w : Byte}
    (hw : ∀ k, w.getLsbD k = (v.getLsbD k && decide (k ≠ c.imuSleepBit.val))) : w = v &&& ~~~imuSleepMask c := by
  refine BitVec.eq_of_getLsbD_eq fun k hk => ?_
  rw [hw, BitVec.getLsbD_and, BitVec.getLsbD_not, imuSleepMask_eq_twoPow, BitVec.getLsbD_twoPow]
  simp [hk, eq_comm]

section
variable {s t : State} {h : HandleId} {r : HandleRec} {g : ImuReg}

theorem checkOpen_played (s : State) (es : List Event) (h : HandleId) : checkOpen (s.played es) h = checkOpen s h := rfl

/-! ## IMU_READ -/

theorem exec_imuRead_eq_readReg {len : Byte} (hl : regLen len = some (imuRegLen g)) :
    exec (.imuRead h g) s = exec (.readReg h (imuRegAddr s.config.imuReg g) len) s := by
  simp [exec, execImuRead, execReadReg, hl, withHandle]

theorem exec_imuRead_of_open (hr : checkOpen s h = some r) :
    exec (.imuRead h g) s = finish (memRead h r (imuRegAddr s.config.imuReg g) (imuRegLen g) s) := by
  simp [exec, execImuRead, withHandle_of_open hr]

/-! ## IMU_WRITE -/

theorem exec_imuWrite_of_not_writable {value : Byte} (hw : imuWritable g = false) :
    exec (.imuWrite h g value) s = .next (s.markRefused .readOnlyRegister) := by
  simp [exec, execImuWrite, hw, refuse]

theorem exec_imuWrite_of_open {value : Byte} (hw : imuWritable g = true) (hr : checkOpen s h = some r) :
    exec (.imuWrite h g value) s = finish (unitAfter (sendFrame h r [imuRegAddr s.config.imuReg g, value] s)) := by
  simp [exec, execImuWrite, hw, withHandle_of_open hr, writeByte]

/-! ## IMU_INIT -/

/-- A one-byte WRITE_REG of a byte sends that byte. -/
theorem exec_writeReg_byte (reg b : Byte) :
    exec (.writeReg h reg (b.setWidth 16) 1) s = withHandle h s fun r s => unitAfter (writeByte h r reg b s) := by
  have hframe : writeFrame reg .one (b.setWidth 16) = [reg, b] :=
    writeFrame_one (hi := 0) reg (by rw [BitVec.toNat_setWidth_of_le (by decide)]; simp)
  simp [exec, execWriteReg, regLen, memWrite, writeByte, hframe]

/-- A first part that ends without a value ends the operation, whatever would have followed it (60_exceptions.md R201). -/
theorem finish_andThen_of_no_value {α : Type} {x : Run α} {g : α → Value} (f : α → State → Run Value)
    (hx : finish (x.andThen fun a s => .done (g a) s) = .next t) (ht : ∀ v, t.ending ≠ some (.ok v)) :
    finish (x.andThen f) = .next t := by
  cases x with
  | done a u => cases hx; exact absurd rfl (ht (g a))
  | raised | hung => exact hx

theorem exec_imuInit_rmw_of_open (hm : s.config.imuInitMode = .rmw) (hr : checkOpen s h = some r) :
    exec (.imuInit h) s = finish ((readByte h r s.config.imuReg.pwrMgmt s).andThen fun v s =>
      unitAfter (writeByte h r s.config.imuReg.pwrMgmt (v &&& ~~~imuSleepMask s.config) s)) := by
  simp [exec, execImuInit, withHandle_of_open hr, hm, imuRegAddr]

theorem exec_imuInit_of_read_without_value (hm : s.config.imuInitMode = .rmw)
    (hread : exec (.readReg h s.config.imuReg.pwrMgmt 1) s = .next t) (ht : ∀ v, t.ending ≠ some (.ok v)) :
    exec (.imuInit h) s = .next t := by
  cases hc : checkOpen s h with
  | none =>
    rw [exec_readReg_of_not_open (.inl rfl) hc] at hread
    rw [exec_of_not_open rfl rfl hc, hread]
  | some r =>
    rw [exec_readReg_of_open rfl hc] at hread
    rw [exec_imuInit_rmw_of_open hm hc]
    exact finish_andThen_of_no_value _ hread ht

/-- Behind the read of `v`, the write of `v` with the sleep bit cleared. -/
theorem exec_imuInit_of_read {v : Byte} (hm : s.config.imuInitMode = .rmw) (hr : checkOpen s h = some r)
    (hp : environmentPlays s (regRead h r s.config.imuReg.pwrMgmt [v]) = true) :
    exec (.imuInit h) s = finish (unitAfter (sendFrame h r
      [s.config.imuReg.pwrMgmt, v &&& ~~~imuSleepMask s.config]
      (s.played (regRead h r s.config.imuReg.pwrMgmt [v])))) := by
  rw [exec_imuInit_rmw_of_open hm hr, readByte_ok hp, andThen_done]
  rfl

theorem exec_imuInit_writeZero (hm : s.config.imuInitMode = .writeZero) :
    exec (.imuInit h) s = withHandle h s fun r s => unitAfter (writeByte h r s.config.imuReg.pwrMgmt 0 s) := by
  simp [exec, execImuInit, hm, imuRegAddr, withHandle]

end

/-- Settles O33, by the body of IMU_INIT in each mode: the read's ending where it yields no value, else the one write. -/
theorem imuInitClearsTheSleepBit : Obligations.ImuInitClearsTheSleepBit := by
  intro s h r v w
  refine ⟨fun hm => ⟨fun t => exec_imuInit_of_read_without_value hm, fun hr hw hp => ?_⟩, fun hm => ?_⟩
  · obtain rfl : w = v &&& ~~~imuSleepMask s.config := eq_and_not_imuSleepMask hw
    rw [exec_imuInit_of_read hm hr hp]
    refine ⟨?_, fun hall => ?_⟩
    · rw [exec_writeReg_byte, withHandle_of_open ((checkOpen_played s _ h).trans hr)]
      rfl
    · rw [environmentPlays_append, Bool.and_eq_true] at hall
      rw [finish_frame_ok hall.2, played_played]
  · rw [exec_imuInit_writeZero hm]
    exact (exec_writeReg_byte _ 0).symm

/-- Settles O34: IMU_READ runs READ_REG's body with the register's row of the table. -/
theorem imuReadReturnsTheRegisterAsRead : Obligations.ImuReadReturnsTheRegisterAsRead := by
  intro s h r g addr haddr
  obtain rfl : addr = imuRegAddr s.config.imuReg g := haddr.trans (by cases g <;> rfl)
  refine ⟨exec_imuRead_eq_readReg (regLen_of_imuReg g), fun hr hg b0 hp => ?_, fun hr hg b0 b1 hp => ?_⟩
  · rw [exec_imuRead_of_open hr, imuRegLen_one_of_mem g hg, memRead_one hp, finish_done]
  · rw [exec_imuRead_of_open hr, imuRegLen_two_of_mem g hg, memRead_two hp, finish_done, bigEndian_eq]

/-- Settles O35, by the rows of the configuration registers and the two ends of the one transfer. -/
theorem imuWriteSendsOneByte : Obligations.ImuWriteSendsOneByte := by
  intro s h r g value addr
  refine ⟨fun hg => exec_imuWrite_of_not_writable (imuWritable_eq_false_of_not_mem hg), fun hm => ?_⟩
  obtain ⟨hw, rfl⟩ := imuWritable_row_of_mem hm
  refine ⟨exec_of_not_open (i := .imuWrite h g value) rfl hw, fun hr => ?_⟩
  rw [exec_imuWrite_of_open hw hr]
  exact ⟨finish_frame_ok, finish_frame_fail⟩

end Sys2Proof.Machine

/-! PROOFS. Who writes the frequency register (43_pwm.md R179): a PWM_SET_FREQ that completes, and by the shapes of `Does`
nothing else. -/

namespace Sys2Proof.Machine

/-- No id's frequency differs between `s` and `t`. -/
def KeepsFreqs (s t : State) : Prop := ∀ k, lookup k t.pwmFreq = lookup k s.pwmFreq

/-- The instruction is a PWM_SET_FREQ whose execution has completed in `t`. -/
def CompletesSetFreq (i : Instr) (t : State) (h : HandleId) (f : Rat) : Prop :=
  i = .pwmSetFreq h f ∧ t.ending = some (.ok .unit)

section
variable {i : Instr} {s t : State}

theorem keepsFreqs_of_eq (ht : t.pwmFreq = s.pwmFreq) : KeepsFreqs s t := fun k => by rw [ht]

theorem lookup_erase_of_none {α : Type} {j : HandleId} {table : List (HandleId × α)} (hj : lookup j table = none)
    (k : HandleId) : lookup k (erase j table) = lookup k table := by
  by_cases hk : k = j
  · rw [hk, lookup_erase_self, hj]
  · exact lookup_erase_of_ne hk table

/-- OPEN erases the entry of the next id, which has none (40_transport.md R91). -/
theorem openBus_keepsFreqs (hn : lookup s.nextHandle s.pwmFreq = none) (bus : String) (addr : BusAddr) :
    KeepsFreqs s (openBus bus addr s).state := by
  unfold openBus
  split
  case h_4 => exact lookup_erase_of_none hn
  all_goals exact fun _ => rfl

theorem KeepsFreqs.of_finish {x : Run Value} (hx : KeepsFreqs s x.state) (hf : finish x = .next t) :
    KeepsFreqs s t := by
  obtain rfl : x.state.ended x.ending = t := by simpa [finish] using hf
  exact hx

theorem Traffic.keepsFreqs {α : Type} {h : HandleId} {r : HandleRec} {x : Run α} (hx : Traffic h r s x) :
    KeepsFreqs s x.state := by
  obtain ⟨es, script, hung, hs, -⟩ := hx.only
  exact keepsFreqs_of_eq (by rw [hs])

/-- Either a PWM_SET_FREQ has completed and written its own register, or no register is written. -/
theorem Does.freqs {o : Host.Outcome State Fault Refusal} (hd : Does i s o)
    (hn : lookup s.nextHandle s.pwmFreq = none) (ho : o = .next t) :
    (∃ h f, CompletesSetFreq i t h f ∧ t.pwmFreq = insert h f s.pwmFreq) ∨
      (∀ h f, ¬ CompletesSetFreq i t h f) ∧ KeepsFreqs s t := by
  cases hd with
  | setsFreq h f r x hi _ _ hx =>
    obtain ⟨es, -, -, hf | ⟨e, -, hf⟩ | ⟨y, hf⟩⟩ := finish_setFreq_plays f hx <;> rw [hf] at ho <;> cases ho
    · exact .inl ⟨h, f, ⟨hi, rfl⟩, rfl⟩
    · exact .inr ⟨fun _ _ hc => (nomatch hc.2), keepsFreqs_of_eq rfl⟩
    · exact .inr ⟨fun _ _ hc => (nomatch hc.2), keepsFreqs_of_eq rfl⟩
  | refuses | refusesTick | faults | notOpen | draws =>
    cases ho; exact .inr ⟨fun _ _ hc => by simp [CompletesSetFreq] at hc, keepsFreqs_of_eq rfl⟩
  | opens bus addr hi =>
    exact .inr ⟨fun _ _ hc => (nomatch hi.symm.trans hc.1), (openBus_keepsFreqs hn bus addr).of_finish ho⟩
  | closes h r hi =>
    cases ho; exact .inr ⟨fun _ _ hc => (nomatch hi.symm.trans hc.1), keepsFreqs_of_eq rfl⟩
  | sends h r x _ _ _ hx _ hfreq => exact .inr ⟨fun h f hc => hfreq h f hc.1, hx.keepsFreqs.of_finish ho⟩
  | converts v hi =>
    cases ho; refine .inr ⟨fun _ _ hc => ?_, keepsFreqs_of_eq rfl⟩
    obtain ⟨rfl, -⟩ := hc; cases hi

end

end Sys2Proof.Machine

/-! PROOFS. Who reads the frequency register (43_pwm.md R179): an operation started with another frequency table makes the same
transfers and ends alike, and its state differs in that table alone; PWM_SET_PULSE_MS is not among these operations. -/

namespace Sys2Proof.Machine

/-- The state with another frequency table. -/
def State.withFreqs (s : State) (table : List (HandleId × Rat)) : State := { s with pwmFreq := table }

section
variable (s : State) (table : List (HandleId × Rat))

theorem withFreqs_config : (s.withFreqs table).config = s.config := rfl

theorem checkOpen_withFreqs (h : HandleId) : checkOpen (s.withFreqs table) h = checkOpen s h := rfl

theorem answerOpen_withFreqs (bus : String) (addr : BusAddr) :
    answerOpen (s.withFreqs table) bus addr = answerOpen s bus addr := rfl

theorem answerWrite_withFreqs (bus : String) (addr : BusAddr) (bytes : List Byte) :
    answerWrite (s.withFreqs table) bus addr bytes = answerWrite s bus addr bytes := rfl

theorem answerRead_withFreqs (bus : String) (addr : BusAddr) (n : Nat) :
    answerRead (s.withFreqs table) bus addr n = answerRead s bus addr n := rfl

end

/-- Two runs that stand at the same place, in states that differ in the frequency table alone. -/
inductive Run.Alike {α : Type} : Run α → Run α → Prop
  | done (a : α) (s : State) (table : List (HandleId × Rat)) : Alike (.done a s) (.done a (s.withFreqs table))
  | raised (e : Error) (s : State) (table : List (HandleId × Rat)) :
      Alike (.raised e s) (.raised e (s.withFreqs table))
  | hung (s : State) (table : List (HandleId × Rat)) : Alike (.hung s) (.hung (s.withFreqs table))

/-- A part of an operation that does not read the frequency table. -/
def FreqBlind {α : Type} (f : State → Run α) : Prop := ∀ s table, (f s).Alike (f (s.withFreqs table))

section
variable {α β : Type} {h : HandleId} {r : HandleRec}

theorem freqBlind_done (a : α) : FreqBlind (Run.done a) := fun s table => .done a s table

theorem freqBlind_raised (e : Error) : FreqBlind (Run.raised e : State → Run α) := fun s table => .raised e s table

theorem Run.Alike.andThen {x y : Run α} {g : α → State → Run β} (hx : x.Alike y) (hg : ∀ a, FreqBlind (g a)) :
    (x.andThen g).Alike (y.andThen g) := by
  cases hx with
  | done a t table => exact hg a t table
  | raised e t table => exact .raised e t table
  | hung t table => exact .hung t table

theorem freqBlind_andThen {f : State → Run α} {g : α → State → Run β} (hf : FreqBlind f)
    (hg : ∀ a, FreqBlind (g a)) : FreqBlind fun s => (f s).andThen g := fun s table => (hf s table).andThen hg

/-- A part that depends on the state's parameters, which are the same whatever the frequency table is. -/
theorem freqBlind_config {f : Config → State → Run α} (hf : ∀ c, FreqBlind (f c)) :
    FreqBlind fun s => f s.config s := fun s => hf s.config s

/-! ## Transfers -/

theorem busWrite_freqBlind (bytes : List Byte) : FreqBlind (busWrite h r bytes) := by
  intro s table
  unfold busWrite
  rw [answerWrite_withFreqs]
  cases answerWrite s r.bus r.addr bytes with
  | some a => exact .done a (s.answered _) table
  | none => exact .hung (s.blockedOn _) table

theorem busRead_freqBlind (n : Nat) : FreqBlind (busRead h r n) := by
  intro s table
  unfold busRead
  rw [answerRead_withFreqs]
  cases answerRead s r.bus r.addr n with
  | some a => exact .done a (s.answered _) table
  | none => exact .hung (s.blockedOn _) table

theorem delay_freqBlind (ms : Rat) : FreqBlind (delay h ms) := fun s table => .done () (s.record _) table

theorem openBus_freqBlind (bus : String) (addr : BusAddr) : FreqBlind (openBus bus addr) := by
  intro s table
  unfold openBus
  rw [answerOpen_withFreqs]
  cases answerOpen s bus addr with
  | none => exact .hung (s.blockedOn _) table
  | some a =>
    cases a with
    | busFail => exact .raised .busOpenFailed (s.answered _) table
    | selectFail => exact .raised .addressSelectFailed (s.answered _) table
    | ok => exact .done (Value.handle s.nextHandle) ((s.bindHandle bus addr).answered _) (erase s.nextHandle table)

theorem sendFrame_freqBlind (bytes : List Byte) : FreqBlind (sendFrame h r bytes) :=
  freqBlind_andThen (busWrite_freqBlind bytes) fun a => by
    cases a with
    | ok => exact freqBlind_done ()
    | fail => exact freqBlind_raised .writeFailed

theorem writeByte_freqBlind (reg value : Byte) : FreqBlind (writeByte h r reg value) := sendFrame_freqBlind _

theorem memWrite_freqBlind (reg : Byte) (len : RegLen) (value : Half) : FreqBlind (memWrite h r reg len value) :=
  sendFrame_freqBlind _

theorem writeBytes_freqBlind (l : List (Byte × Byte)) : FreqBlind (writeBytes h r l) := by
  induction l with
  | nil => exact freqBlind_done ()
  | cons p l ih => exact freqBlind_andThen (writeByte_freqBlind p.1 p.2) fun _ => ih

theorem readBytes_freqBlind (reg : Byte) (n : Nat) : FreqBlind (readBytes h r reg n) :=
  freqBlind_andThen (sendFrame_freqBlind [reg]) fun _ =>
    freqBlind_andThen (busRead_freqBlind n) fun a => by
      cases a with
      | fail => exact freqBlind_raised .readFailed
      | bytes l =>
        by_cases hl : l.length < n
        · simpa only [hl, if_true] using freqBlind_raised .shortRead
        · simpa only [hl, if_false] using freqBlind_done l

theorem readByte_freqBlind (reg : Byte) : FreqBlind (readByte h r reg) :=
  freqBlind_andThen (readBytes_freqBlind reg 1) fun l =>
    match l with
    | [] => freqBlind_raised .shortRead
    | b :: _ => freqBlind_done b

theorem readHalf_freqBlind (reg : Byte) : FreqBlind (readHalf h r reg) :=
  freqBlind_andThen (readBytes_freqBlind reg 2) fun l =>
    match l with
    | [] | [_] => freqBlind_raised .shortRead
    | b0 :: b1 :: _ => freqBlind_done (bigEndian b0 b1)

theorem memRead_freqBlind (reg : Byte) (len : RegLen) : FreqBlind (memRead h r reg len) := by
  cases len with
  | one => exact freqBlind_andThen (readByte_freqBlind reg) fun b => freqBlind_done (Value.u8 b)
  | two => exact freqBlind_andThen (readHalf_freqBlind reg) fun v => freqBlind_done (Value.u16 v)

theorem unitAfter_freqBlind {f : State → Run Unit} (hf : FreqBlind f) : FreqBlind fun s => unitAfter (f s) :=
  freqBlind_andThen hf fun _ => freqBlind_done Value.unit

/-! ## The composite bodies -/

theorem setRegs_freqBlind (ch : Nat) (on off : Int) : FreqBlind (setRegs h r ch on off) :=
  freqBlind_config fun c => writeBytes_freqBlind (channelBytes c.pwmReg ch on off)

theorem setAllRegs_freqBlind (on off : Int) : FreqBlind (setAllRegs h r on off) :=
  freqBlind_config fun c => writeBytes_freqBlind (allChannelBytes c.pwmReg on off)

theorem changePrescale_freqBlind (p : Byte) : FreqBlind (changePrescale h r p) :=
  freqBlind_andThen (freqBlind_config fun c => readByte_freqBlind c.pwmReg.mode1) fun old =>
  freqBlind_andThen (freqBlind_config fun c => writeByte_freqBlind c.pwmReg.mode1 (old ||| c.sleep)) fun _ =>
  freqBlind_andThen (freqBlind_config fun c => writeByte_freqBlind c.pwmReg.prescale p) fun _ =>
  freqBlind_andThen (freqBlind_config fun c => writeByte_freqBlind c.pwmReg.mode1 old) fun _ =>
  freqBlind_andThen (freqBlind_config fun c => delay_freqBlind c.tPwmFreqSettle) fun _ =>
  freqBlind_config fun c => writeByte_freqBlind c.pwmReg.mode1 (old ||| c.restart)

theorem bringup_freqBlind : FreqBlind (bringup h r) :=
  freqBlind_andThen (setAllRegs_freqBlind 0 0) fun _ =>
  freqBlind_andThen (freqBlind_config fun c => writeByte_freqBlind c.pwmReg.mode2 c.outdrv) fun _ =>
  freqBlind_andThen (freqBlind_config fun c => writeByte_freqBlind c.pwmReg.mode1 c.allcall) fun _ =>
  freqBlind_andThen (freqBlind_config fun c => delay_freqBlind c.tPwmBringupSettle) fun _ =>
  freqBlind_andThen (freqBlind_config fun c => readByte_freqBlind c.pwmReg.mode1) fun m =>
  freqBlind_andThen (freqBlind_config fun c => writeByte_freqBlind c.pwmReg.mode1 (m &&& ~~~c.sleep)) fun _ =>
  freqBlind_config fun c => delay_freqBlind c.tPwmBringupSettle

/-- The frequency register is written, and not read. -/
theorem setFreq_freqBlind (freq : Rat) : FreqBlind fun s => .done Value.unit (s.setFreq h freq) :=
  fun s table => .done Value.unit (s.setFreq h freq) (insert h freq table)

/-- A conversion of what was read, under the state's parameters. -/
theorem converted_freqBlind (x : Config → Rat) : FreqBlind fun s => .done (floatValue s.config (x s.config)) s :=
  freqBlind_config (f := fun c => Run.done (floatValue c (x c))) fun _ => freqBlind_done _

end

/-! ## Instructions -/

/-- Two outcomes that are next states which differ in the frequency table alone. -/
def OutcomesAlike (o o' : Host.Outcome State Fault Refusal) : Prop :=
  ∃ t table, o = .next t ∧ o' = .next (t.withFreqs table)

section
variable {s : State} {table : List (HandleId × Rat)}

theorem Run.Alike.finish {x y : Run Value} (hx : x.Alike y) : OutcomesAlike (finish x) (finish y) := by
  cases hx with
  | done _ t table | raised _ t table | hung t table => exact ⟨t.ended _, table, rfl, rfl⟩

theorem refuse_alike (x : RefuseReason) : OutcomesAlike (refuse x s) (refuse x (s.withFreqs table)) :=
  ⟨s.markRefused x, table, rfl, rfl⟩

theorem returnValue_alike (v : Value) : OutcomesAlike (returnValue v s) (returnValue v (s.withFreqs table)) :=
  ⟨s.ended _, table, rfl, rfl⟩

/-- A check whose answer does not depend on the frequency table. -/
theorem OutcomesAlike.ite {b : Bool} {o o' p p' : Host.Outcome State Fault Refusal} (ho : OutcomesAlike o o')
    (hp : OutcomesAlike p p') : OutcomesAlike (if b then o else p) (if b then o' else p') := by
  cases b with
  | true => exact ho
  | false => exact hp

theorem withHandle_alike {h : HandleId} {body : HandleRec → State → Run Value} (hb : ∀ r, FreqBlind (body r)) :
    OutcomesAlike (withHandle h s body) (withHandle h (s.withFreqs table) body) := by
  cases hc : checkOpen s h with
  | none =>
    rw [withHandle_of_not_open hc, withHandle_of_not_open ((checkOpen_withFreqs s table h).trans hc)]
    exact ⟨_, table, rfl, rfl⟩
  | some r =>
    rw [withHandle_of_open hc, withHandle_of_open ((checkOpen_withFreqs s table h).trans hc)]
    exact (hb r s table).finish

/-- No instruction but PWM_SET_PULSE_MS reads the frequency register. -/
theorem exec_withFreqs_alike {i : Instr} (hi : ∀ h ch ms, i ≠ .pwmSetPulseMs h ch ms) :
    OutcomesAlike (exec i s) (exec i (s.withFreqs table)) := by
  cases i with
  | openHandle bus addr => exact (openBus_freqBlind bus addr s table).finish
  | closeHandle h =>
    exact withHandle_alike fun r s table => .done Value.unit ((s.closeEntry h r).record _) table
  | readReg h reg len =>
    simp only [exec, execReadReg]
    cases regLen len with
    | none => exact refuse_alike _
    | some n => exact withHandle_alike fun r => memRead_freqBlind reg n
  | writeReg h reg value len =>
    simp only [exec, execWriteReg]
    cases regLen len with
    | none => exact refuse_alike _
    | some n => exact withHandle_alike fun r => unitAfter_freqBlind (memWrite_freqBlind reg n value)
  | writeRaw h bytes =>
    exact .ite (withHandle_alike fun r => unitAfter_freqBlind (sendFrame_freqBlind bytes)) (refuse_alike _)
  | asRead h areg =>
    exact .ite (withHandle_alike fun r => freqBlind_config fun c =>
      memRead_freqBlind (asRegAddr c.asReg areg) (asRegLen areg)) (refuse_alike _)
  | asWrite h areg value =>
    exact .ite (withHandle_alike fun r => unitAfter_freqBlind <| freqBlind_config fun c =>
      memWrite_freqBlind (asRegAddr c.asReg areg) (asRegLen areg) value) (refuse_alike _)
  | asBurn h cmd =>
    exact withHandle_alike fun r => unitAfter_freqBlind <| freqBlind_config fun c =>
      writeByte_freqBlind (asRegAddr c.asReg .burn) (burnCode c cmd)
  | asStatusScale x =>
    simp only [exec, execAsStatusScale, withFreqs_config]
    cases statusScale s.config x with
    | some v => exact returnValue_alike _
    | none => exact ⟨s.drawn.ended _, table, rfl, rfl⟩
  | imuInit h =>
    simp only [exec, execImuInit]
    refine withHandle_alike fun r s table => ?_
    rw [withFreqs_config]
    cases s.config.imuInitMode with
    | rmw =>
      exact (readByte_freqBlind _ s table).andThen fun v => unitAfter_freqBlind <| freqBlind_config fun c =>
        writeByte_freqBlind (imuRegAddr c.imuReg .pwrMgmt) (v &&& ~~~imuSleepMask c)
    | writeZero => exact unitAfter_freqBlind (writeByte_freqBlind _ 0) s table
  | imuRead h ireg =>
    simp only [exec, execImuRead]
    exact withHandle_alike fun r => freqBlind_config fun c =>
      memRead_freqBlind (imuRegAddr c.imuReg ireg) (imuRegLen ireg)
  | imuWrite h ireg value =>
    exact .ite (withHandle_alike fun r => unitAfter_freqBlind <| freqBlind_config fun c =>
      writeByte_freqBlind (imuRegAddr c.imuReg ireg) value) (refuse_alike _)
  | imuReadTemp h =>
    exact withHandle_alike fun r =>
      freqBlind_andThen (freqBlind_config fun c => readHalf_freqBlind (imuRegAddr c.imuReg .temp)) fun raw =>
      converted_freqBlind fun _ => tempC raw
  | imuReadAccel h axis ms2 =>
    exact withHandle_alike fun r =>
      freqBlind_andThen (freqBlind_config fun c => readHalf_freqBlind (imuRegAddr c.imuReg (accelReg axis))) fun raw =>
      freqBlind_andThen (freqBlind_config fun c => readByte_freqBlind (imuRegAddr c.imuReg .accelConfig)) fun cfg =>
      converted_freqBlind fun c => accelConv c raw cfg ms2
  | imuReadGyro h axis =>
    exact withHandle_alike fun r =>
      freqBlind_andThen (freqBlind_config fun c => readHalf_freqBlind (imuRegAddr c.imuReg (gyroReg axis))) fun raw =>
      freqBlind_andThen (freqBlind_config fun c => readByte_freqBlind (imuRegAddr c.imuReg .gyroConfig)) fun cfg =>
      converted_freqBlind fun c => gyroConv c raw cfg
  | pwmBringup h => exact withHandle_alike fun r => unitAfter_freqBlind bringup_freqBlind
  | pwmSetChannel h ch on off =>
    exact .ite (.ite (withHandle_alike fun r => unitAfter_freqBlind (setRegs_freqBlind ch on off)) (refuse_alike _))
      (refuse_alike _)
  | pwmSetAll h on off =>
    exact .ite (withHandle_alike fun r => unitAfter_freqBlind (setAllRegs_freqBlind on off)) (refuse_alike _)
  | pwmSetFreq h freq =>
    exact .ite (.ite (withHandle_alike fun r => freqBlind_andThen (changePrescale_freqBlind _) fun _ =>
      setFreq_freqBlind freq) (refuse_alike _)) (refuse_alike _)
  | pwmPrescale freq | pwmTicksMs ms freq => exact .ite (returnValue_alike _) (refuse_alike _)
  | pwmSetPulseMs h ch ms => exact absurd rfl (hi h ch ms)
  | asMaxPos | asRaw2DegI | asRaw2DegF | asDeg2RawI | asDeg2RawF | imuS16 | imuTempC | imuAccelScale | imuGyroScale
  | imuAccelConv | imuGyroConv => exact returnValue_alike _

end

/-- Settles O16: its writers by the shapes of an execution, its readers by running the operation with another table. -/
theorem frequencyWrittenOnlyBySetFreq : Obligations.FrequencyWrittenOnlyBySetFreq := by
  intro i s t hn ht
  have hfreqs := (exec_does i s).freqs hn ht
  refine ⟨fun h f hi he => ?_, fun hnone => ?_, fun hi table => ?_⟩
  · obtain ⟨h', f', ⟨hi', -⟩, hw⟩ | ⟨hnot, -⟩ := hfreqs
    · cases hi.symm.trans hi'
      rw [hw]
      exact ⟨lookup_insert_self _ _ _, fun k hk => lookup_insert_of_ne hk _ _⟩
    · exact absurd ⟨hi, he⟩ (hnot h f)
  · obtain ⟨h, f, ⟨hi, he⟩, -⟩ | ⟨-, hkeep⟩ := hfreqs
    · exact absurd he (hnone h f hi)
    · exact hkeep
  · obtain ⟨t', table', he, he'⟩ := exec_withFreqs_alike (s := s) (table := table) hi
    obtain rfl : t = t' := by simpa using ht.symm.trans he
    exact ⟨_, he', rfl⟩

end Sys2Proof.Machine

/-! PROOFS. PWM_PRESCALE and PWM_TICKS_MS (43_pwm.md R171, R176): each rounds its formula to nearest, or refuses its frequency. -/

namespace Sys2Proof.Machine

section
variable {ms freq : Rat} (s : State)

theorem freqLegal_of_pos (hf : 0 < freq) : freqLegal freq = true := decide_eq_true hf

theorem freqLegal_of_nonpos (hf : freq ≤ 0) : freqLegal freq = false := decide_eq_false (not_lt.2 hf)

/-- The prescale is the one integer that R171's formula rounds to. -/
theorem prescaleOf_roundsTo (hf : 0 < freq) : roundsTo (390625 / (64 * freq) - 1) (prescaleOf freq) := by
  rw [← prescale_argument hf]
  exact roundHalfAway_roundsTo _

/-- The tick count is the one integer that R176's product rounds to, also where the quotient by `freq` is by zero. -/
theorem ticksMs_roundsTo (ms freq : Rat) : roundsTo (ms * (4096 / (1000 / freq))) (ticksMs ms freq) := by
  rw [div_div_eq_mul_div]
  exact roundHalfAway_roundsTo _

theorem exec_pwmPrescale_of_pos (hf : 0 < freq) :
    exec (.pwmPrescale freq) s = .next (s.ended (some (.ok (.int (prescaleOf freq))))) := by
  simp [exec, execPwmPrescale, returnValue, freqLegal_of_pos hf]

theorem exec_pwmPrescale_of_nonpos (hf : freq ≤ 0) :
    exec (.pwmPrescale freq) s = .next (s.markRefused .badOperand) := by
  simp [exec, execPwmPrescale, refuse, freqLegal_of_nonpos hf]

theorem exec_pwmTicksMs_of_pos (hf : 0 < freq) :
    exec (.pwmTicksMs ms freq) s = .next (s.ended (some (.ok (.int (ticksMs ms freq))))) := by
  simp [exec, execPwmTicksMs, returnValue, freqLegal_of_pos hf]

theorem exec_pwmTicksMs_of_nonpos (hf : freq ≤ 0) :
    exec (.pwmTicksMs ms freq) s = .next (s.markRefused .badOperand) := by
  simp [exec, execPwmTicksMs, refuse, freqLegal_of_nonpos hf]

end

/-- Settles O43, by the prescale's rounding and the check of the frequency. -/
theorem prescaleIsTheRoundedQuotient : Obligations.PrescaleIsTheRoundedQuotient :=
  fun s freq =>
    ⟨fun hf => ⟨prescaleOf freq, prescaleOf_roundsTo hf, exec_pwmPrescale_of_pos s hf⟩, exec_pwmPrescale_of_nonpos s⟩

/-- Settles O51, by the tick count's rounding and the check of the frequency. -/
theorem ticksAreTheRoundedProduct : Obligations.TicksAreTheRoundedProduct :=
  fun s ms freq =>
    ⟨fun hf => ⟨ticksMs ms freq, ticksMs_roundsTo ms freq, exec_pwmTicksMs_of_pos s hf⟩, exec_pwmTicksMs_of_nonpos s⟩

end Sys2Proof.Machine

/-! PROOFS. The encoding (30_encoding.md R75 to R77): each operand reader accepts exactly the spelling of its value, so the decoder
reads an instruction from its own encoding and from no other request; every other request with an opcode of the map is refused
BadOperand. -/

namespace Sys2Proof.Machine

/-! ## The encoding of an instruction decodes to it -/

@[simp] theorem asStr_str (b : String) : (Operand.str b).asStr = some b := rfl
@[simp] theorem asBool_bool (b : Bool) : (Operand.bool b).asBool = some b := rfl
@[simp] theorem asRat_num (q : Rat) : (Operand.num q).asRat = some q := rfl
@[simp] theorem asAreg_areg (r : AngleReg) : (Operand.areg r).asAreg = some r := rfl
@[simp] theorem asIreg_ireg (r : ImuReg) : (Operand.ireg r).asIreg = some r := rfl
@[simp] theorem asAxis_axis (a : Axis) : (Operand.axis a).asAxis = some a := rfl
@[simp] theorem asCmd_cmd (c : BurnCmd) : (Operand.cmd c).asCmd = some c := rfl
@[simp] theorem asBytes_bytes_map (l : List Byte) : (Operand.bytes (l.map byteElement)).asBytes = some l :=
  bytesOf_map l

/-- The decoder reads an instruction from its own opcode and operands: the opcode picks the row of its format, whose readers
accept its operands one by one. -/
theorem decodeOp_encode (i : Instr) : decodeOp i.opcode i.operands = some (some i) := by
  cases i with
  | closeHandle | asStatusScale | asDeg2RawI | asDeg2RawF | imuInit | imuS16 | imuTempC | imuAccelScale | imuGyroScale
  | imuReadTemp | pwmBringup | pwmPrescale => simp [Instr.opcode, Instr.operands, decodeOp, oneOperand]
  | openHandle | writeRaw | asRead | asBurn | asMaxPos | imuRead | imuGyroConv | imuReadGyro | pwmSetFreq | pwmTicksMs =>
    simp [Instr.opcode, Instr.operands, decodeOp, twoOperands]
  | readReg | asWrite | asRaw2DegI | asRaw2DegF | imuWrite | imuAccelConv | imuReadAccel | pwmSetAll | pwmSetPulseMs =>
    simp [Instr.opcode, Instr.operands, decodeOp, threeOperands]
  | writeReg | pwmSetChannel => simp [Instr.opcode, Instr.operands, decodeOp, fourOperands]

theorem decode_eq_ok_iff {q : Request} {i : Instr} : decode q = .ok i ↔ decodeOp q.op q.operands = some (some i) := by
  unfold decode
  split <;> simp [*]

/-! ## A request that decodes is the encoding -/

section
variable {o : Operand}

@[simp] theorem asInt_eq_some {z : Int} : o.asInt = some z ↔ intOperand z = o :=
  ⟨fun h => (asInt_inv h).symm, fun h => h ▸ asInt_intOp z⟩
@[simp] theorem asNat_eq_some {n : Nat} : o.asNat = some n ↔ natOperand n = o :=
  ⟨fun h => (asNat_inv h).symm, fun h => h ▸ asNat_natOp n⟩
@[simp] theorem asBits_eq_some {w : Nat} {b : BitVec w} : o.asBits w = some b ↔ bitsOperand b = o :=
  ⟨fun h => (asBits_inv h).symm, fun h => h ▸ asBits_bitsOp b⟩
@[simp] theorem asStr_eq_some {b : String} : o.asStr = some b ↔ .str b = o :=
  ⟨fun h => (asStr_inv h).symm, fun h => h ▸ asStr_str b⟩
@[simp] theorem asBool_eq_some {b : Bool} : o.asBool = some b ↔ .bool b = o :=
  ⟨fun h => (asBool_inv h).symm, fun h => h ▸ asBool_bool b⟩
@[simp] theorem asRat_eq_some {q : Rat} : o.asRat = some q ↔ .num q = o :=
  ⟨fun h => (asRat_inv h).symm, fun h => h ▸ asRat_num q⟩
@[simp] theorem asAreg_eq_some {r : AngleReg} : o.asAreg = some r ↔ .areg r = o :=
  ⟨fun h => (asAreg_inv h).symm, fun h => h ▸ asAreg_areg r⟩
@[simp] theorem asIreg_eq_some {r : ImuReg} : o.asIreg = some r ↔ .ireg r = o :=
  ⟨fun h => (asIreg_inv h).symm, fun h => h ▸ asIreg_ireg r⟩
@[simp] theorem asAxis_eq_some {a : Axis} : o.asAxis = some a ↔ .axis a = o :=
  ⟨fun h => (asAxis_inv h).symm, fun h => h ▸ asAxis_axis a⟩
@[simp] theorem asCmd_eq_some {c : BurnCmd} : o.asCmd = some c ↔ .cmd c = o :=
  ⟨fun h => (asCmd_inv h).symm, fun h => h ▸ asCmd_cmd c⟩
@[simp] theorem asBytes_eq_some {l : List Byte} : o.asBytes = some l ↔ .bytes (l.map byteElement) = o :=
  ⟨fun h => (asBytes_inv h).symm, fun h => h ▸ asBytes_bytes_map l⟩

end

/-- Operands that the decoder accepts under an opcode are those of the instruction, and the opcode is its own. -/
theorem encode_of_decodeOp {op : Byte} {ops : List Operand} {i : Instr} (h : decodeOp op ops = some (some i)) :
    i.opcode = op ∧ i.operands = ops := by
  unfold decodeOp at h
  split at h
  case h_34 => cases h -- an opcode of no operation
  all_goals
    rename_i hop
    obtain ⟨x, hx, rfl⟩ := Option.map_eq_some_iff.1 (Option.some.inj h)
    refine ⟨BitVec.eq_of_toNat_eq hop.symm, ?_⟩
  case h_2 | h_12 | h_13 | h_14 | h_15 | h_18 | h_19 | h_20 | h_21 | h_24 | h_27 | h_30 =>
    obtain ⟨a, rfl, ha⟩ := one_inv hx
    simpa [Instr.operands] using ha
  case h_1 | h_5 | h_6 | h_8 | h_9 | h_16 | h_23 | h_26 | h_31 | h_32 =>
    obtain ⟨a, b, rfl, ha, hb⟩ := two_inv hx
    have hread := And.intro ha hb
    simpa [Instr.operands] using hread
  case h_3 | h_7 | h_10 | h_11 | h_17 | h_22 | h_25 | h_29 | h_33 =>
    obtain ⟨a, b, c, rfl, ha, hb, hc⟩ := three_inv hx
    have hread := And.intro ha (And.intro hb hc)
    simpa [Instr.operands] using hread
  case h_4 | h_28 =>
    obtain ⟨a, b, c, d, rfl, ha, hb, hc, hd⟩ := four_inv hx
    have hread := And.intro ha (And.intro hb (And.intro hc hd))
    simpa [Instr.operands] using hread

/-- Settles O1: the decoder reads an instruction from its own opcode and operands. -/
theorem decodeOfEncodeIsTheInstruction : Obligations.DecodeOfEncodeIsTheInstruction :=
  fun i => decode_eq_ok_iff.2 (decodeOp_encode i)

/-- Settles O2: what the decoder accepts under an opcode is the encoding. -/
theorem decodedRequestIsItsEncoding : Obligations.DecodedRequestIsItsEncoding := by
  rintro ⟨op, ops⟩ i h
  obtain ⟨hop, hops⟩ := encode_of_decodeOp (decode_eq_ok_iff.1 h)
  rw [encode, hop, hops]

/-! ## Every other request is refused -/

/-- A row's opcode is in no gap of the opcode map (30_encoding.md R78, R79). -/
theorem decodeOp_ne_none_of_row {op : Byte} (hrow : opRow op ≠ none) (ops : List Operand) : decodeOp op ops ≠ none := by
  obtain ⟨row, hfind⟩ := Option.ne_none_iff_exists'.1 hrow
  obtain rfl : row.op = op := by simpa using List.find?_some hfind
  have hgaps : ∀ row ∈ opRows, ¬(row.op.toNat = 0x00 ∨ (0x06 ≤ row.op.toNat ∧ row.op.toNat ≤ 0x0F) ∨
      (0x19 ≤ row.op.toNat ∧ row.op.toNat ≤ 0x1F) ∨ (0x2C ≤ row.op.toNat ∧ row.op.toNat ≤ 0x2F) ∨
      0x37 ≤ row.op.toNat) := by decide
  exact fun h => hgaps row (List.mem_of_find?_eq_some hfind) ((decodeOp_eq_none_iff _ _).1 h)

theorem decode_eq_badOperand_iff {q : Request} :
    decode q = .error .badOperand ↔ decodeOp q.op q.operands = some none := by
  unfold decode
  split <;> simp [*]

theorem decode_of_no_encoding {q : Request} (hrow : opRow q.op ≠ none) (hq : ∀ i, encode i ≠ q) :
    decode q = .error .badOperand := by
  rw [decode_eq_badOperand_iff]
  match h : decodeOp q.op q.operands with
  | none => exact absurd h (decodeOp_ne_none_of_row hrow _)
  | some none => rfl
  | some (some i) => exact absurd (decodedRequestIsItsEncoding q i (decode_eq_ok_iff.2 h)) (hq i)

section
variable {q : Rat}

theorem asInt_num_eq_none (hq : ¬ ∃ z : Int, q = z) : (Operand.num q).asInt = none :=
  Option.eq_none_iff_forall_ne_some.2 fun z h => hq ⟨z, Operand.num.inj (asInt_inv h)⟩

theorem asNat_num_eq_none (hq : q < 0 ∨ ¬ ∃ z : Int, q = z) : (Operand.num q).asNat = none := by
  refine Option.eq_none_iff_forall_ne_some.2 fun n h => ?_
  obtain rfl : q = ((n : Int) : Rat) := Operand.num.inj (asNat_inv h)
  exact hq.elim (fun hneg => absurd hneg (by simp)) fun hint => hint ⟨n, rfl⟩

theorem asByte_num_eq_none (hq : q < 0 ∨ 0xFF < q ∨ ¬ ∃ z : Int, q = z) : (Element.num q).asByte = none := by
  refine Option.eq_none_iff_forall_ne_some.2 fun b h => ?_
  obtain rfl : q = ((b.toNat : Int) : Rat) := Element.num.inj (asByte_inv h)
  obtain hneg | hbig | hint := hq
  · exact absurd hneg (by simp)
  · have : 0xFF < b.toNat := by exact_mod_cast hbig
    omega
  · exact hint ⟨b.toNat, rfl⟩

/-- A byte list with an element that is no byte is outside its type. -/
theorem asBytes_eq_none {l : List Element}
    (hl : (∃ q : Rat, .num q ∈ l ∧ (q < 0 ∨ 0xFF < q ∨ ¬ ∃ z : Int, q = z)) ∨ ∃ x, .other x ∈ l) :
    (Operand.bytes l).asBytes = none := by
  obtain ⟨q, hq, hbad⟩ | ⟨x, hx⟩ := hl
  · exact bytesOf_none hq (asByte_num_eq_none hbad)
  · exact bytesOf_none hx rfl

end

/-- Settles O5: first every request that is no encoding, then for each example the one operand that its reader turns down. -/
theorem operandsOutsideTheirTypeAreRefused : Obligations.OperandsOutsideTheirTypeAreRefused := by
  refine ⟨fun q => decode_of_no_encoding, fun bus n hn => decode_open_of_bad_addr bus (asBits_num_eq_none hn),
    fun h n l hn => ?_, fun h r n l hn => decode_writeReg_of_bad_value _ _ _ (asBits_num_eq_none hn),
    fun h n r hn => ?_, fun h l hl => ?_, fun q hq => ?_, fun q hq => ?_, fun h x => ?_, fun h ch q x => ?_⟩
  · simp [decode, decodeOp, threeOperands, asBits_num_eq_none (w := 8) hn]
  · simp [decode, decodeOp, threeOperands, asBits_num_eq_none (w := 8) hn]
  · simp [decode, decodeOp, twoOperands, asBytes_eq_none hl]
  · simp [decode, decodeOp, oneOperand, asNat_num_eq_none hq]
  · simp [decode, decodeOp, oneOperand, asInt_num_eq_none hq]
  · simp [decode, decodeOp, twoOperands, Operand.asAreg, Operand.asCmd, Operand.asIreg, Operand.asAxis]
  · simp [decode, decodeOp, oneOperand, twoOperands, threeOperands, Operand.asRat]

/-- Settles O4: each request is the encoding of the instruction named. -/
theorem sampleWordsDecode : Obligations.SampleWordsDecode :=
  ⟨decodeOfEncodeIsTheInstruction (.openHandle "1" 0x36), decodeOfEncodeIsTheInstruction (.writeReg 0 0x01 0x0123 2),
    decodeOfEncodeIsTheInstruction (.asRead 0 .zpos), decodeOfEncodeIsTheInstruction (.asRaw2DegF 2048 100 300),
    decodeOfEncodeIsTheInstruction (.imuReadAccel 0 .z true), decodeOfEncodeIsTheInstruction (.pwmSetPulseMs 0 0 (3 / 2))⟩

end Sys2Proof.Machine

/-! PROOFS. One step (00_scope.md R5): it runs the instruction its request decodes to; a refused request performs nothing
(60_exceptions.md R206); and an instruction is refused exactly where its static checks fail (R203). -/

namespace Sys2Proof.Machine

theorem took_eq {s : State} {q : Request} {rest : List Request} (hq : s.requests = q :: rest) :
    s.took = { s with requests := rest } := by simp [State.took, hq]

theorem perform_of_decode_ok {q : Request} {i : Instr} (h : decode q = .ok i) (s : State) : perform q s = exec i s := by
  simp [perform, h]

/-- Settles O6, by what performing a request does where it decodes and where it does not. -/
theorem stepRunsTheDecodedInstruction : Obligations.StepRunsTheDecodedInstruction := by
  intro s q rest hs hq
  rw [step_of_request hs hq, took_eq hq]
  exact ⟨fun i hi => perform_of_decode_ok hi _, fun x hx => perform_eq_refuse_of_decode_error hx _⟩

/-- Settles O7: with no request the step is the idle one. -/
theorem idleBlockWaits : Obligations.IdleBlockWaits := fun s hs hq => by simp [step, hs, hq]

/-- Of all that a request can do to the marks, only a refusal ends in one. -/
theorem MarksStep.eq_markRefused {s t : State} (h : MarksStep s t) {x : RefuseReason}
    (he : t.ending = some (.refused x)) : t = s.markRefused x := by
  cases h with
  | keeps _ hr => exact absurd he (hr x)
  | refuses => cases he; rfl
  | faults => cases he

/-- Settles O11, by what performing the taken request can do to the marks. -/
theorem refusedRequestPerformsNothing : Obligations.RefusedRequestPerformsNothing := by
  intro s t q rest x hs hq hstep he
  rw [step_of_request hs hq, took_eq hq] at hstep
  exact (perform_marksStep hstep).eq_markRefused he

section
variable {i : Instr} {s t : State} {o : Host.Outcome State Fault Refusal}

theorem next_ne_markRefused (ht : ∀ x, t.ending ≠ some (.refused x)) :
    ¬ ∃ x, (.next t : Host.Outcome State Fault Refusal) = .next (s.markRefused x) := by
  rintro ⟨x, h⟩
  cases h
  exact ht x rfl

theorem finish_ne_markRefused (y : Run Value) : ¬ ∃ x, finish y = .next (s.markRefused x) :=
  next_ne_markRefused y.ending_ne_refused

theorem Does.illFormed_iff (hd : Does i s o) (hi : ∀ h ch ms, i ≠ .pwmSetPulseMs h ch ms) :
    i.wellFormed s.config = false ↔ ∃ x, o = .next (s.markRefused x) := by
  cases hd with
  | refuses x hw => exact iff_of_true hw ⟨x, rfl⟩
  | refusesTick h ch ms _ hp | faults h ch ms _ hp => exact absurd hp (hi h ch ms)
  | notOpen _ _ hw | converts _ _ hw => exact iff_of_false (by simp [hw]) (next_ne_markRefused (by simp))
  | closes _ _ hop | draws _ _ hop =>
    subst hop; exact iff_of_false (by simp [Instr.wellFormed]) (next_ne_markRefused (by simp))
  | opens _ _ hop => subst hop; exact iff_of_false (by simp [Instr.wellFormed]) (finish_ne_markRefused _)
  | sends _ _ _ _ hw | setsFreq _ _ _ _ _ hw => exact iff_of_false (by simp [hw]) (finish_ne_markRefused _)

end

/-- Settles O12, by cases on the shape of the execution. -/
theorem refusedExactlyWhenIllFormed : Obligations.RefusedExactlyWhenIllFormed :=
  fun i s hi => (exec_does i s).illFormed_iff hi

end Sys2Proof.Machine

/-! PROOFS. The pure converters (30_encoding.md R78): they write nothing but their ending, the refusal mark and the count of
draws, and read nothing but the parameters and that count. -/

namespace Sys2Proof.Machine

/-- What a pure converter leaves as it was, and the endings it never has. -/
def WritesOnlyEnding (i : Instr) (s t : State) : Prop :=
  t = { s with refused := t.refused, ending := t.ending, draws := t.draws } ∧
    (∀ e, t.ending ≠ some (.err e)) ∧ (∀ x, t.ending ≠ some (.faulted x)) ∧
    (t.draws = s.draws ∨ ∃ x, i = .asStatusScale x)

/-- Two outcomes that are next states with one and the same ending. -/
def EndAlike (o o' : Host.Outcome State Fault Refusal) : Prop :=
  ∃ t t', o = .next t ∧ o' = .next t' ∧ t'.ending = t.ending

section
variable {i : Instr} {s s' t : State} {o : Host.Outcome State Fault Refusal}

theorem ne_some_handle_of_isPure (hp : isPure i = true) (h : HandleId) : handleOf i ≠ some h := by
  simp [handleOf_eq_none_of_isPure hp]

theorem Does.writesOnlyEnding (hd : Does i s o) (hp : isPure i = true) (ho : o = .next t) : WritesOnlyEnding i s t := by
  cases hd with
  | refuses | converts => cases ho; exact ⟨rfl, by simp, by simp, .inl rfl⟩
  | draws x d hi => cases ho; exact ⟨rfl, by simp, by simp, .inr ⟨x, hi⟩⟩
  | refusesTick h _ _ _ hi | faults h _ _ _ hi | closes h _ hi | setsFreq h _ _ _ hi =>
    exact absurd (by rw [hi]; rfl) (ne_some_handle_of_isPure hp h)
  | notOpen h hi | sends h _ _ hi => exact absurd hi (ne_some_handle_of_isPure hp h)
  | opens bus addr hi => subst hi; cases hp

theorem returnValue_endAlike (v : Value) : EndAlike (returnValue v s) (returnValue v s') := ⟨_, _, rfl, rfl, rfl⟩

theorem refuse_endAlike (x : RefuseReason) : EndAlike (refuse x s) (refuse x s') := ⟨_, _, rfl, rfl, rfl⟩

theorem returnFloat_endAlike (hc : s'.config = s.config) (x : Rat) : EndAlike (returnFloat x s) (returnFloat x s') := by
  rw [returnFloat, returnFloat, hc]
  exact returnValue_endAlike _

theorem EndAlike.ite {b : Bool} {o o' p p' : Host.Outcome State Fault Refusal} (ho : EndAlike o o')
    (hp : EndAlike p p') : EndAlike (if b then o else p) (if b then o' else p') := by
  cases b with
  | true => exact ho
  | false => exact hp

/-- Pure converters end alike in states with the same parameters and the same count of draws. -/
theorem exec_endAlike_of_isPure (hp : isPure i = true) (hc : s'.config = s.config) (hd : s'.draws = s.draws) :
    EndAlike (exec i s) (exec i s') := by
  cases i with
  | asMaxPos | asDeg2RawI | imuS16 => exact returnValue_endAlike _
  | asRaw2DegF | asDeg2RawF | imuTempC => exact returnFloat_endAlike hc _
  | asRaw2DegI raw z m => simp only [exec, execAsRaw2DegI, hc]; exact returnValue_endAlike _
  | imuAccelScale cfg => simp only [exec, execImuAccelScale, hc]; exact returnValue_endAlike _
  | imuGyroScale cfg => simp only [exec, execImuGyroScale, hc]; exact returnFloat_endAlike hc _
  | imuAccelConv raw cfg ms2 => simp only [exec, execImuAccelConv, hc]; exact returnFloat_endAlike hc _
  | imuGyroConv raw cfg => simp only [exec, execImuGyroConv, hc]; exact returnFloat_endAlike hc _
  | asStatusScale x =>
    simp only [exec, execAsStatusScale, hc, hd]
    cases statusScale s.config x with
    | some v => exact returnValue_endAlike _
    | none => exact returnValue_endAlike _
  | pwmPrescale | pwmTicksMs => exact .ite (returnValue_endAlike _) (refuse_endAlike _)
  | _ => cases hp

end

/-- Settles O13: what a pure converter writes by the shape of its execution, what it reads by running it in both states. -/
theorem pureConvertersWriteNothing : Obligations.PureConvertersWriteNothing := by
  intro i s t hp ht
  obtain ⟨hframe, herr, hfault, hdraws⟩ := (exec_does i s).writesOnlyEnding hp ht
  refine ⟨hframe, herr, hfault, hdraws, fun s' hc hd => ?_⟩
  obtain ⟨u, t', hu, ht', he⟩ := exec_endAlike_of_isPure hp hc hd
  obtain rfl : u = t := by simpa using hu.symm.trans ht
  exact ⟨t', ht', he⟩

end Sys2Proof.Machine

/-! PROOFS. Who writes the handle table (10_state.md R20, 40_transport.md R91, R96), and the three invariants: what executing one
instruction can do to the two tables and the history is said once (`Changes`), and each invariant follows by cases on it. -/

namespace Sys2Proof.Machine

/-! ## What a step can change -/

/-- An event of `s` that neither issues a handle nor closes one: traffic through an open handle, or an open that failed. -/
def Passes (s : State) (e : Event) : Prop :=
  (∃ h r, checkOpen s h = some r ∧ through h r e) ∨
    ∃ bus addr a, a ≠ OpenAnswer.ok ∧ e = .opened bus addr a none

/-- What a step that executes `i`, or no instruction, can do to the tables and the history. -/
inductive Changes (i : Option Instr) (s t : State) : Prop
  | passes (es : List Event) (hes : ∀ e ∈ es, Passes s e) (hh : t.history = s.history ++ es)
      (ht : t.handles = s.handles) (hn : t.nextHandle = s.nextHandle) (hf : t.pwmFreq = s.pwmFreq)
  | setsFreq (h : HandleId) (r : HandleRec) (f : Rat) (hc : checkOpen s h = some r)
      (hl : 0 < f ∧ 0 ≤ prescaleOf f ∧ prescaleOf f ≤ 255)
      (es : List Event) (hes : ∀ e ∈ es, Passes s e) (hh : t.history = s.history ++ es)
      (ht : t.handles = s.handles) (hn : t.nextHandle = s.nextHandle) (hf : t.pwmFreq = insert h f s.pwmFreq)
  | opens (bus : String) (addr : BusAddr) (hi : i = some (.openHandle bus addr))
      (hh : t.history = s.history ++ [.opened bus addr .ok (some s.nextHandle)])
      (ht : t.handles = insert s.nextHandle { bus := bus, addr := addr, isOpen := true } s.handles)
      (hn : t.nextHandle = s.nextHandle + 1) (hf : t.pwmFreq = erase s.nextHandle s.pwmFreq)
  | closes (h : HandleId) (r : HandleRec) (hi : i = some (.closeHandle h)) (hc : checkOpen s h = some r)
      (hh : t.history = s.history ++ [.closed h])
      (ht : t.handles = insert h { r with isOpen := false } s.handles)
      (hn : t.nextHandle = s.nextHandle) (hf : t.pwmFreq = s.pwmFreq)

section
variable {i : Instr} {j : Option Instr} {s t : State} {h : HandleId} {r : HandleRec}

/-- Nothing happens to the tables and the history. -/
theorem changes_of_same (hh : t.history = s.history) (ht : t.handles = s.handles) (hn : t.nextHandle = s.nextHandle)
    (hf : t.pwmFreq = s.pwmFreq) : Changes j s t :=
  .passes [] (by simp) (by simpa using hh) ht hn hf

theorem Changes.of_finish {x : Run Value} (hx : ∀ e, Changes j s (x.state.ended e)) (hf : finish x = .next t) :
    Changes j s t := by
  obtain rfl : x.state.ended x.ending = t := by simpa [finish] using hf
  exact hx _

theorem passes_of_through {es : List Event} (hc : checkOpen s h = some r) (hes : ∀ e ∈ es, through h r e) :
    ∀ e ∈ es, Passes s e := fun e he => .inl ⟨h, r, hc, hes e he⟩

theorem openBus_changes (bus : String) (addr : BusAddr) (s : State) (e : Option Ending) :
    Changes (some (.openHandle bus addr)) s ((openBus bus addr s).state.ended e) := by
  unfold openBus
  split
  case h_1 => exact changes_of_same rfl rfl rfl rfl
  case h_4 => exact .opens bus addr rfl rfl rfl rfl rfl
  case h_2 | h_3 => exact .passes [_] (by simp [Passes]) rfl rfl rfl rfl

theorem Traffic.changes {α : Type} {x : Run α} (hc : checkOpen s h = some r) (hx : Traffic h r s x) (e : Option Ending) :
    Changes j s (x.state.ended e) := by
  obtain ⟨es, script, hung, hs, hes⟩ := hx.only
  rw [hs]
  exact .passes es (passes_of_through hc hes) rfl rfl rfl rfl

theorem prescale_of_wellFormed {c : Config} {f : Rat} (hw : (Instr.pwmSetFreq h f).wellFormed c = true) :
    0 < f ∧ 0 ≤ prescaleOf f ∧ prescaleOf f ≤ 255 := by
  simpa [Instr.wellFormed, freqLegal, prescaleLegal] using hw

theorem Traffic.setFreq_changes {x : Run Unit} {f : Rat} (hc : checkOpen s h = some r)
    (hl : 0 < f ∧ 0 ≤ prescaleOf f ∧ prescaleOf f ≤ 255) (hx : Traffic h r s x) (e : Option Ending) :
    Changes j s ((x.andThen fun _ t => .done Value.unit (t.setFreq h f)).state.ended e) := by
  obtain ⟨es, script, hung, hs, hes⟩ := hx.only
  have hpass := passes_of_through hc hes
  cases x with
  | done _ t => obtain rfl := hs; exact .setsFreq h r f hc hl es hpass rfl rfl rfl rfl
  | raised _ t | hung t => obtain rfl := hs; exact .passes es hpass rfl rfl rfl rfl

theorem Does.changes {o : Host.Outcome State Fault Refusal} (hd : Does i s o) (ho : o = .next t) :
    Changes (some i) s t := by
  cases hd with
  | refuses | refusesTick | faults | notOpen | converts | draws => cases ho; exact changes_of_same rfl rfl rfl rfl
  | opens bus addr hi => subst hi; exact .of_finish (openBus_changes bus addr s) ho
  | closes h r hi hc => subst hi; cases ho; exact .closes h r rfl hc rfl rfl rfl rfl
  | sends h r x _ _ hc hx => exact .of_finish (hx.changes hc) ho
  | setsFreq h f r x hi hw hc hx => subst hi; exact .of_finish (hx.setFreq_changes hc (prescale_of_wellFormed hw)) ho

theorem perform_changes {q : Request} (hp : perform q s = .next t) : ∃ j, Changes j s t := by
  unfold perform at hp
  split at hp
  · exact ⟨_, (exec_does _ s).changes hp⟩
  · cases hp; exact ⟨none, changes_of_same rfl rfl rfl rfl⟩

/-- Taking the request leaves the tables and the history as they are. -/
theorem Changes.of_took (hx : Changes j s.took t) : Changes j s t := by
  cases hx with
  | passes es hes hh ht hn hf => exact .passes es hes hh ht hn hf
  | setsFreq h r f hc hl es hes hh ht hn hf => exact .setsFreq h r f hc hl es hes hh ht hn hf
  | opens bus addr hi hh ht hn hf => exact .opens bus addr hi hh ht hn hf
  | closes h r hi hc hh ht hn hf => exact .closes h r hi hc hh ht hn hf

theorem step_changes (hstep : step s = .next t) : ∃ j, Changes j s t := by
  unfold step at hstep
  split at hstep
  · cases hstep
  · split at hstep
    · cases hstep; exact ⟨none, changes_of_same rfl rfl rfl rfl⟩
    · obtain ⟨j, hj⟩ := perform_changes hstep; exact ⟨j, hj.of_took⟩

end

/-! ## The handle table -/

section
variable {α : Type} {i : Instr} {s t : State}

theorem lookup_insert (k j : HandleId) (a : α) (table : List (HandleId × α)) :
    lookup k (insert j a table) = if k = j then some a else lookup k table := by
  split
  · rename_i hk; rw [hk, lookup_insert_self]
  · rename_i hk; exact lookup_insert_of_ne hk a table

/-- The parameters and the coming requests stand as they did. -/
def KeepsHost (s t : State) : Prop := t.config = s.config ∧ t.requests = s.requests

theorem KeepsHost.of_finish {x : Run Value} (hx : KeepsHost s x.state) (hf : finish x = .next t) : KeepsHost s t := by
  obtain rfl : x.state.ended x.ending = t := by simpa [finish] using hf
  exact hx

theorem openBus_keepsHost (bus : String) (addr : BusAddr) (s : State) : KeepsHost s (openBus bus addr s).state := by
  unfold openBus
  split <;> exact ⟨rfl, rfl⟩

theorem Traffic.keepsHost {h : HandleId} {r : HandleRec} {x : Run α} (hx : Traffic h r s x) : KeepsHost s x.state := by
  obtain ⟨es, script, hung, hs, -⟩ := hx.only
  rw [hs]
  exact ⟨rfl, rfl⟩

theorem Traffic.setFreq_keepsHost {h : HandleId} {r : HandleRec} {x : Run Unit} (f : Rat) (hx : Traffic h r s x) :
    KeepsHost s (x.andThen fun _ t => .done Value.unit (t.setFreq h f)).state := by
  have hk := hx.keepsHost
  cases x with
  | done _ t | raised _ t | hung t => exact hk

theorem Does.keepsHost {o : Host.Outcome State Fault Refusal} (hd : Does i s o) (ho : o = .next t) : KeepsHost s t := by
  cases hd with
  | refuses | refusesTick | faults | notOpen | closes | converts | draws => cases ho; exact ⟨rfl, rfl⟩
  | opens bus addr => exact (openBus_keepsHost bus addr s).of_finish ho
  | sends _ _ _ _ _ _ hx => exact hx.keepsHost.of_finish ho
  | setsFreq _ f _ _ _ _ _ hx => exact (hx.setFreq_keepsHost f).of_finish ho

theorem Changes.handles_of_not_open (hx : Changes (some i) s t) (hi : ∀ bus addr, i ≠ .openHandle bus addr) :
    t.nextHandle = s.nextHandle ∧ ∀ k, i ≠ .closeHandle k → lookup k t.handles = lookup k s.handles := by
  cases hx with
  | passes _ _ _ ht hn | setsFreq _ _ _ _ _ _ _ _ ht hn => exact ⟨hn, fun k _ => by rw [ht]⟩
  | opens bus addr hop => exact absurd (Option.some.inj hop) (hi bus addr)
  | closes h r hcl _ _ ht hn =>
    refine ⟨hn, fun k hk => ?_⟩
    rw [ht, lookup_insert_of_ne fun hkh => hk (by rw [hkh]; exact Option.some.inj hcl)]

theorem Changes.handles_of_open {bus : String} {addr : BusAddr} (hx : Changes (some (.openHandle bus addr)) s t)
    {k : HandleId} (hk : k ≠ s.nextHandle) : lookup k t.handles = lookup k s.handles := by
  cases hx with
  | passes _ _ _ ht | setsFreq _ _ _ _ _ _ _ _ ht => rw [ht]
  | opens _ _ _ _ ht => rw [ht, lookup_insert_of_ne hk]
  | closes _ _ hcl => cases hcl

end

/-- Settles O15, by what an execution can change. -/
theorem handleTableWrittenOnlyByOpenAndClose : Obligations.HandleTableWrittenOnlyByOpenAndClose := by
  intro i s t ht
  obtain ⟨hconfig, hrequests⟩ := (exec_does i s).keepsHost ht
  have hx := (exec_does i s).changes ht
  exact ⟨hconfig, hrequests, hx.handles_of_not_open, fun bus addr hi k hk => (hi ▸ hx).handles_of_open hk⟩

/-! ## The tables -/

section
variable {j : Option Instr} {s t : State} {h : HandleId} {r : HandleRec}

theorem TablesInv.lt_of_lookup (hs : TablesInv s) (hl : lookup h s.handles = some r) : h < s.nextHandle :=
  (hs.ids h).1 (by rw [hl]; rfl)

theorem TablesInv.lt_of_checkOpen (hs : TablesInv s) (hc : checkOpen s h = some r) : h < s.nextHandle :=
  hs.lt_of_lookup (checkOpen_eq_some.1 hc).1

/-- A handle table with one entry written has that id beside the ids it had. -/
theorem isSome_lookup_insert {α : Type} {k i : HandleId} {a : α} {table : List (HandleId × α)} :
    (lookup k (insert i a table)).isSome = true ↔ k = i ∨ (lookup k table).isSome = true := by
  rw [lookup_insert]
  split <;> simp [*]

/-- The clauses about the handle table. -/
theorem Changes.keeps_ids (hx : Changes j s t) (hs : TablesInv s) :
    TableWf t.handles ∧ ∀ k, (lookup k t.handles).isSome = true ↔ k < t.nextHandle := by
  cases hx with
  | passes _ _ _ ht hn | setsFreq _ _ _ _ _ _ _ _ ht hn => rw [ht, hn]; exact ⟨hs.handlesWf, hs.ids⟩
  | opens _ _ _ _ ht hn =>
    rw [ht, hn]
    refine ⟨insert_keeps_wf _ _ hs.handlesWf, fun k => ?_⟩
    rw [isSome_lookup_insert, hs.ids]
    exact or_comm.trans Nat.lt_succ_iff_lt_or_eq.symm
  | closes h r _ hc _ ht hn =>
    rw [ht, hn]
    refine ⟨insert_keeps_wf _ _ hs.handlesWf, fun k => ?_⟩
    rw [isSome_lookup_insert, hs.ids]
    exact or_iff_right_of_imp fun hk => hk ▸ hs.lt_of_checkOpen hc

/-- The clauses about the frequency table, for the frequencies that stand in it afterwards. -/
theorem Changes.keeps_freqs (hx : Changes j s t) (hs : TablesInv s) :
    TableWf t.pwmFreq ∧ ∀ k f, lookup k t.pwmFreq = some f →
      k < t.nextHandle ∧ 0 < f ∧ 0 ≤ prescaleOf f ∧ prescaleOf f ≤ 255 := by
  have hold : ∀ k f, lookup k s.pwmFreq = some f →
      k < s.nextHandle ∧ 0 < f ∧ 0 ≤ prescaleOf f ∧ prescaleOf f ≤ 255 :=
    fun k f hk => ⟨hs.freqIds k f hk, hs.freqLegal k f hk⟩
  cases hx with
  | passes _ _ _ _ hn hf | closes _ _ _ _ _ _ hn hf => rw [hf, hn]; exact ⟨hs.freqWf, hold⟩
  | setsFreq h r f hc hl _ _ _ _ hn hf =>
    rw [hf, hn]
    refine ⟨insert_keeps_wf _ _ hs.freqWf, fun k g hk => ?_⟩
    rw [lookup_insert] at hk
    split at hk
    · rename_i hkh; cases hk; exact ⟨hkh ▸ hs.lt_of_checkOpen hc, hl⟩
    · exact hold k g hk
  | opens _ _ _ _ _ hn hf =>
    rw [hf, hn]
    refine ⟨erase_keeps_wf _ hs.freqWf, fun k g hk => ?_⟩
    obtain rfl | hne := eq_or_ne k s.nextHandle
    · rw [lookup_erase_self] at hk; cases hk
    · rw [lookup_erase_of_ne hne] at hk
      exact (hold k g hk).imp_left Nat.lt_succ_of_lt

theorem Changes.keeps_tables (hx : Changes j s t) (hs : TablesInv s) : TablesInv t := by
  obtain ⟨hwf, hids⟩ := hx.keeps_ids hs
  obtain ⟨hfwf, hf⟩ := hx.keeps_freqs hs
  exact ⟨hwf, hfwf, hids, fun k f hk => (hf k f hk).1, fun k f hk => (hf k f hk).2⟩

end

/-- Settles O56, by what a step can change. -/
theorem stepKeepsTheTables : Obligations.StepKeepsTheTables := by
  intro s t hs hstep
  obtain ⟨j, hx⟩ := step_changes hstep
  exact hx.keeps_tables hs

/-! ## The history -/

/-- Every entry stays bound to its pair, and a closed one stays closed. -/
def KeepsPairs (s t : State) : Prop :=
  ∀ h r, lookup h s.handles = some r →
    ∃ r', lookup h t.handles = some r' ∧ r'.bus = r.bus ∧ r'.addr = r.addr ∧ (r.isOpen = false → r'.isOpen = false)

section
variable {j : Option Instr} {s t : State} {h : HandleId} {r : HandleRec} {e : Event}

theorem keepsPairs_of_eq (ht : t.handles = s.handles) : KeepsPairs s t :=
  fun _ r hr => ⟨r, ht ▸ hr, rfl, rfl, id⟩

/-- The entry that OPEN writes is none of those the table has. -/
theorem TablesInv.ne_next_of_lookup (hs : TablesInv s) (hr : lookup h s.handles = some r) : h ≠ s.nextHandle :=
  (hs.lt_of_lookup hr).ne

theorem Changes.keepsPairs (hx : Changes j s t) (hs : TablesInv s) : KeepsPairs s t := by
  cases hx with
  | passes _ _ _ ht | setsFreq _ _ _ _ _ _ _ _ ht => exact keepsPairs_of_eq ht
  | opens _ _ _ _ ht =>
    exact fun k q hq => ⟨q, by rw [ht, lookup_insert_of_ne (hs.ne_next_of_lookup hq), hq], rfl, rfl, id⟩
  | closes h r _ hc _ ht =>
    intro k q hq
    rw [ht, lookup_insert]
    split
    · rename_i hkh
      obtain rfl : r = q := entry_eq_of_checkOpen hc (hkh ▸ hq)
      exact ⟨_, rfl, rfl, rfl, fun _ => rfl⟩
    · exact ⟨q, hq, rfl, rfl, id⟩

/-- An event that agrees with the handle table does so as long as entries keep their pairs. -/
theorem KeepsPairs.agrees (hk : KeepsPairs s t) (he : agrees s e) : agrees t e := by
  have pair : ∀ {k : HandleId} {bus : String} {addr : BusAddr},
      (∃ r, lookup k s.handles = some r ∧ r.bus = bus ∧ r.addr = addr) →
      ∃ r, lookup k t.handles = some r ∧ r.bus = bus ∧ r.addr = addr := by
    rintro k bus addr ⟨r, hr, rfl, rfl⟩
    obtain ⟨r', hr', hbus, haddr, -⟩ := hk k r hr
    exact ⟨r', hr', hbus, haddr⟩
  cases e with
  | opened bus addr a k =>
    cases a with
    | ok =>
      cases k with
      | none => exact he
      | some k => exact pair he
    | busFail | selectFail => exact he
  | wrote => exact pair he
  | read => exact he.imp_left pair
  | delayed k ms =>
    obtain ⟨r, hr⟩ := Option.isSome_iff_exists.1 he
    obtain ⟨r', hr', -⟩ := hk k r hr
    exact Option.isSome_iff_exists.2 ⟨r', hr'⟩
  | closed k =>
    obtain ⟨r, hr, hcl⟩ := he
    obtain ⟨r', hr', -, -, hcl'⟩ := hk k r hr
    exact ⟨r', hr', hcl' hcl⟩

theorem agrees_of_passes (he : Passes s e) : agrees s e := by
  obtain ⟨h, r, hc, hthrough⟩ | ⟨bus, addr, a, ha, rfl⟩ := he
  · have hr := (checkOpen_eq_some.1 hc).1
    cases e with
    | wrote => obtain ⟨rfl, rfl, rfl⟩ := hthrough; exact ⟨r, hr, rfl, rfl⟩
    | read => obtain ⟨rfl, rfl, rfl, hfits⟩ := hthrough; exact ⟨⟨r, hr, rfl, rfl⟩, hfits⟩
    | delayed => obtain rfl := hthrough; exact Option.isSome_iff_exists.2 ⟨r, hr⟩
    | opened | closed => exact hthrough.elim
  · cases a with
    | ok => exact absurd rfl ha
    | busFail | selectFail => rfl

/-- The events that a step appends agree with the table it leaves. -/
theorem Changes.appends_agreeing (hx : Changes j s t) (hs : TablesInv s) :
    ∃ es, t.history = s.history ++ es ∧ ∀ e ∈ es, agrees t e := by
  have hk := hx.keepsPairs hs
  cases hx with
  | passes es hes hh | setsFreq _ _ _ _ _ es hes hh =>
    exact ⟨es, hh, fun e he => hk.agrees (agrees_of_passes (hes e he))⟩
  | opens bus addr _ hh ht => exact ⟨_, hh, by simp [agrees, ht]⟩
  | closes h r _ _ hh ht => exact ⟨_, hh, by simp [agrees, ht]⟩

end

/-- Settles O57: the old events agree as before, and the appended ones by what a step can change. -/
theorem stepKeepsTheHistoryBound : Obligations.StepKeepsTheHistoryBound := by
  intro s t hs hstep
  obtain ⟨j, hx⟩ := step_changes hstep
  obtain ⟨es, hh, hes⟩ := hx.appends_agreeing hs.tables
  refine ⟨hx.keeps_tables hs.tables, fun e he => ?_⟩
  rw [hh, List.mem_append] at he
  exact he.elim (fun hold => (hx.keepsPairs hs.tables).agrees (hs.agree e hold)) (hes e)

/-! ## Closed handles -/

/-- An event that may stand somewhere behind `a`: not one of the handle that `a` closes. -/
def MayFollow (a e : Event) : Prop := ∀ h, a = .closed h → eventHandle e ≠ some h

/-- No event of a handle stands behind its close: the history is pairwise in an order that may follow. -/
theorem quiet_iff_pairwise {l : List Event} :
    (∀ pre post h, l = pre ++ .closed h :: post → ∀ e ∈ post, eventHandle e ≠ some h) ↔ l.Pairwise MayFollow := by
  constructor
  · intro hq
    induction l with
    | nil => exact .nil
    | cons a l ih =>
      refine List.pairwise_cons.2 ⟨?_, ih fun pre post h hl => hq (a :: pre) post h (by rw [hl]; rfl)⟩
      rintro e he h rfl
      exact hq [] l h rfl e he
  · rintro hp pre post h rfl e he
    exact (List.pairwise_cons.1 (List.pairwise_append.1 hp).2.1).1 e he h rfl

section
variable {j : Option Instr} {s t : State} {h : HandleId} {r : HandleRec} {e : Event} {es : List Event}

theorem CloseInv.pairwise (hs : CloseInv s) : s.history.Pairwise MayFollow := quiet_iff_pairwise.1 hs.quiet

theorem CloseInv.not_closed_of_checkOpen (hs : CloseInv s) (hc : checkOpen s h = some r) : .closed h ∉ s.history := by
  obtain ⟨hr, hopen⟩ := checkOpen_eq_some.1 hc
  rw [← hs.closed h r hr, hopen]
  simp

theorem Passes.ne_closed (he : Passes s e) (h : HandleId) : e ≠ .closed h := by
  rintro rfl
  obtain ⟨k, r, -, hthrough⟩ | ⟨bus, addr, a, -, hop⟩ := he
  · exact hthrough
  · cases hop

/-- The handle that a passing event names is open. -/
theorem Passes.checkOpen_of_eventHandle (he : Passes s e) (hk : eventHandle e = some h) : ∃ r, checkOpen s h = some r := by
  obtain ⟨k, r, hc, hthrough⟩ | ⟨bus, addr, a, -, rfl⟩ := he
  · cases e with
    | wrote | read => obtain ⟨rfl, -⟩ := hthrough; cases hk; exact ⟨r, hc⟩
    | delayed => obtain rfl := hthrough; cases hk; exact ⟨r, hc⟩
    | opened | closed => exact hthrough.elim
  · cases hk

/-- Events that are of open handles may follow the history, and one another where none of them closes a handle. -/
theorem CloseInv.pairwise_append (hs : CloseInv s)
    (hes : ∀ e ∈ es, ∀ h, eventHandle e = some h → .closed h ∉ s.history) (hp : es.Pairwise MayFollow) :
    (s.history ++ es).Pairwise MayFollow := by
  refine List.pairwise_append.2 ⟨hs.pairwise, hp, ?_⟩
  rintro a ha e he h rfl hk
  exact hes e he h hk ha

theorem CloseInv.pairwise_passes (hs : CloseInv s) (hes : ∀ e ∈ es, Passes s e) :
    (s.history ++ es).Pairwise MayFollow := by
  refine hs.pairwise_append (fun e he h hk => ?_) ?_
  · obtain ⟨r, hc⟩ := (hes e he).checkOpen_of_eventHandle hk
    exact hs.not_closed_of_checkOpen hc
  · exact List.pairwise_of_forall_mem_list fun a ha e _ h hcl => absurd hcl ((hes a ha).ne_closed h)

theorem closed_mem_append_passes (hes : ∀ e ∈ es, Passes s e) : .closed h ∈ s.history ++ es ↔ .closed h ∈ s.history := by
  rw [List.mem_append, or_iff_left fun hmem => (hes _ hmem).ne_closed h rfl]

/-- No event of an id that is not issued stands in the history. -/
theorem CloseInv.next_not_closed (hs : CloseInv s) : .closed s.nextHandle ∉ s.history :=
  fun hmem => (hs.issued _ hmem s.nextHandle rfl).false

theorem Changes.keeps_closed_iff (hx : Changes j s t) (hs : CloseInv s) :
    ∀ k q, lookup k t.handles = some q → (q.isOpen = false ↔ .closed k ∈ t.history) := by
  intro k q hq
  cases hx with
  | passes es hes hh ht | setsFreq _ _ _ _ _ es hes hh ht =>
    rw [hh, closed_mem_append_passes hes]
    exact hs.closed k q (ht ▸ hq)
  | opens bus addr _ hh ht =>
    rw [ht, lookup_insert] at hq
    rw [hh, List.mem_append]
    split at hq
    · rename_i hk
      cases hq
      simp [hk, hs.next_not_closed]
    · simpa using hs.closed k q hq
  | closes h r _ hc hh ht =>
    rw [ht, lookup_insert] at hq
    rw [hh, List.mem_append]
    split at hq
    · rename_i hk
      cases hq
      simp [hk]
    · rename_i hk
      simpa [hk] using hs.closed k q hq

theorem Changes.keeps_issued (hx : Changes j s t) (hs : CloseInv s) :
    ∀ e ∈ t.history, ∀ k, eventHandle e = some k → k < t.nextHandle := by
  intro e he k hk
  cases hx with
  | passes es hes hh _ hn | setsFreq _ _ _ _ _ es hes hh _ hn =>
    rw [hh, List.mem_append] at he
    rw [hn]
    refine he.elim (fun hold => hs.issued e hold k hk) fun hnew => ?_
    obtain ⟨r, hc⟩ := (hes e hnew).checkOpen_of_eventHandle hk
    exact hs.tables.lt_of_checkOpen hc
  | opens bus addr _ hh _ hn =>
    rw [hh, List.mem_append, List.mem_singleton] at he
    rw [hn]
    obtain hold | rfl := he
    · exact Nat.lt_succ_of_lt (hs.issued e hold k hk)
    · cases hk; exact Nat.lt_succ_self _
  | closes h r _ hc hh _ hn =>
    rw [hh, List.mem_append, List.mem_singleton] at he
    rw [hn]
    obtain hold | rfl := he
    · exact hs.issued e hold k hk
    · cases hk; exact hs.tables.lt_of_checkOpen hc

theorem Changes.keeps_quiet (hx : Changes j s t) (hs : CloseInv s) : t.history.Pairwise MayFollow := by
  cases hx with
  | passes es hes hh | setsFreq _ _ _ _ _ es hes hh => rw [hh]; exact hs.pairwise_passes hes
  | opens bus addr _ hh =>
    rw [hh]
    exact hs.pairwise_append (by simpa [eventHandle] using hs.next_not_closed) (List.pairwise_singleton _ _)
  | closes h r _ hc hh =>
    rw [hh]
    exact hs.pairwise_append (by simpa [eventHandle] using hs.not_closed_of_checkOpen hc) (List.pairwise_singleton _ _)

theorem Changes.keeps_close (hx : Changes j s t) (hs : CloseInv s) : CloseInv t :=
  ⟨hx.keeps_tables hs.tables, hx.keeps_closed_iff hs, hx.keeps_issued hs, quiet_iff_pairwise.2 (hx.keeps_quiet hs)⟩

/-- A closed entry is written by no step: OPEN writes a new id, CLOSE an open entry. -/
theorem Changes.keeps_closed_entry (hx : Changes j s t) (hs : TablesInv s) (hr : lookup h s.handles = some r)
    (hcl : r.isOpen = false) : lookup h t.handles = some r := by
  cases hx with
  | passes _ _ _ ht | setsFreq _ _ _ _ _ _ _ _ ht => rw [ht, hr]
  | opens _ _ _ _ ht => rw [ht, lookup_insert_of_ne (hs.ne_next_of_lookup hr), hr]
  | closes k q _ hc _ ht =>
    have hne : h ≠ k := by
      rintro rfl
      obtain rfl := entry_eq_of_checkOpen hc hr
      simp [(checkOpen_eq_some.1 hc).2] at hcl
    rw [ht, lookup_insert_of_ne hne, hr]

theorem Changes.extends_history (hx : Changes j s t) : ∃ es, t.history = s.history ++ es := by
  cases hx with
  | passes _ _ hh | setsFreq _ _ _ _ _ _ _ hh | opens _ _ _ hh | closes _ _ _ _ hh => exact ⟨_, hh⟩

end

/-- Settles O58, by what a step can change. -/
theorem stepKeepsClosedHandlesSilent : Obligations.StepKeepsClosedHandlesSilent := by
  intro s t hs hstep
  obtain ⟨j, hx⟩ := step_changes hstep
  exact ⟨hx.keeps_close hs, fun h r => hx.keeps_closed_entry hs.tables, hx.extends_history⟩

/-! ## Reset -/

/-- Settles O54: the tables and the history of the state after reset are empty. -/
theorem resetLeavesAnEmptyBlock : Obligations.ResetLeavesAnEmptyBlock :=
  ⟨lookup_nil, rfl, lookup_nil, rfl, rfl, rfl⟩

theorem resetWith_tables (c : Config) : TablesInv (State.resetWith c) :=
  ⟨.nil, .nil, fun h => by simp [State.resetWith], fun _ _ hf => (nomatch hf), fun _ _ hf => (nomatch hf)⟩

/-- Settles O55: empty tables and an empty history. -/
theorem resetMeetsTheInvariants : Obligations.ResetMeetsTheInvariants :=
  fun c =>
    ⟨resetWith_tables c, ⟨resetWith_tables c, fun _ he => (nomatch he)⟩,
      ⟨resetWith_tables c, fun _ _ hr => (nomatch hr), fun _ he => (nomatch he), quiet_iff_pairwise.2 .nil⟩⟩

end Sys2Proof.Machine

/-! PROOFS. The converters of the angle sensor (41_angle.md R115 to R119): rescaling by the span, reducing degrees modulo a full
turn, the full circle there and back, and the magnet table. -/

namespace Sys2Proof.Machine

/-! ## Raw values to degrees -/

section
variable (s : State) (raw zeroPos maxPos : Half)

theorem exec_asRaw2DegI :
    exec (.asRaw2DegI raw zeroPos maxPos) s =
      .next (s.ended (some (.ok (.int (rawToDegInt s.config.angleIntDivisor raw zeroPos maxPos))))) := rfl

theorem exec_asRaw2DegF :
    exec (.asRaw2DegF raw zeroPos maxPos) s =
      .next (s.ended (some (.ok (floatValue s.config (rawToDegRat raw zeroPos maxPos))))) := rfl

theorem rawToDegInt_literal :
    rawToDegInt .literal raw zeroPos maxPos =
      Int.tdiv ((raw.toNat : Int) * ((maxPos.toNat : Int) - zeroPos.toNat)) 46603 := rfl

theorem rawToDegInt_exact :
    rawToDegInt .exact raw zeroPos maxPos =
      Int.tdiv ((raw.toNat : Int) * ((maxPos.toNat : Int) - zeroPos.toNat) * 360) (4096 * 4096) := rfl

theorem rawToDegRat_eq :
    rawToDegRat raw zeroPos maxPos =
      (raw.toNat : Rat) * ((maxPos.toNat : Rat) - zeroPos.toNat) * 360 / (4096 * 4096) := by
  rw [rawToDegRat, show ((fullScale * fullScale : Int) : Rat) = 4096 * 4096 by norm_num [fullScale]]
  push_cast
  rfl

end

/-- Settles O29, by the quotients that the two forms compute. -/
theorem rawToDegreesRescales : Obligations.RawToDegreesRescales := by
  intro s raw zeroPos maxPos
  rw [exec_asRaw2DegI]
  refine ⟨fun hd => ?_, fun hd => ?_, _, represents_floatValue s.config _, ?_⟩
  · rw [hd, rawToDegInt_literal]; rfl
  · rw [hd, rawToDegInt_exact]; rfl
  · rw [exec_asRaw2DegF, rawToDegRat_eq]; rfl

/-! ## Degrees to raw values -/

theorem exec_asDeg2RawI (s : State) (deg : Int) :
    exec (.asDeg2RawI deg) s = .next (s.ended (some (.ok (.int (degToRawInt deg))))) := rfl

theorem exec_asDeg2RawF (s : State) (deg : Rat) :
    exec (.asDeg2RawF deg) s = .next (s.ended (some (.ok (floatValue s.config (degToRawRat deg))))) := rfl

theorem degToRawInt_eq (deg : Int) : degToRawInt deg = Int.tdiv (4096 * Int.tmod deg 360) 360 := by
  rw [degToRawInt, quot_eq_tdiv, rem_eq_tmod, fullScale]

theorem degToRawInt_neg (deg : Int) : degToRawInt (-deg) = -degToRawInt deg := by
  rw [degToRawInt_eq, degToRawInt_eq, Int.neg_tmod, Int.mul_neg, Int.neg_tdiv]

theorem degToRawInt_of_nonneg {deg : Int} (h : 0 ≤ deg) : degToRawInt deg = 4096 * (deg % 360) / 360 := by
  have := Int.emod_nonneg deg (b := 360) (by decide)
  rw [degToRawInt_eq, Int.tmod_eq_emod_of_nonneg h, Int.tdiv_eq_ediv_of_nonneg (by omega)]

theorem degToRawInt_bounds (deg : Int) : -4084 ≤ degToRawInt deg ∧ degToRawInt deg ≤ 4084 := by
  obtain h | h := le_total 0 deg
  · rw [degToRawInt_of_nonneg h]; omega
  · rw [← neg_neg deg, degToRawInt_neg, degToRawInt_of_nonneg (neg_nonneg.2 h)]; omega

theorem floor_eq_of_le_of_lt {x : Rat} {k : Int} (hle : (k : Rat) ≤ x) (hlt : x < k + 1) : x.floor = k := by
  refine le_antisymm ?_ (Rat.le_floor_iff.2 hle)
  have : ((x.floor : Int) : Rat) < ((k + 1 : Int) : Rat) := by push_cast; exact (Rat.floor_le x).trans_lt hlt
  exact Int.lt_add_one_iff.1 (by exact_mod_cast this)

/-- Truncation leaves a rest of the operand's sign that is less than one. -/
theorem trunc_eq {x rest : Rat} {k : Int} (hx : x = k + rest) (hpos : 0 ≤ x → 0 ≤ rest ∧ rest < 1)
    (hneg : x < 0 → -1 < rest ∧ rest ≤ 0) : trunc x = k := by
  unfold trunc
  split
  · rename_i h
    obtain ⟨h0, h1⟩ := hpos h
    exact floor_eq_of_le_of_lt (by linarith) (by linarith)
  · rename_i h
    obtain ⟨h0, h1⟩ := hneg (not_le.1 h)
    rw [floor_eq_of_le_of_lt (k := -k) (by push_cast; linarith) (by push_cast; linarith), neg_neg]

/-- The floating remainder modulo a full turn, which keeps the operand's sign. -/
theorem fmod_full_turn {deg rest : Rat} {k : Int} (hdeg : deg = 360 * k + rest)
    (hpos : 0 ≤ deg → 0 ≤ rest ∧ rest < 360) (hneg : deg < 0 → -360 < rest ∧ rest ≤ 0) : fmod deg 360 = rest := by
  have htrunc : trunc (deg / 360) = k := by
    refine trunc_eq (rest := rest / 360) (by rw [hdeg]; ring) (fun h => ?_) fun h => ?_
    · obtain ⟨h0, h1⟩ := hpos (by linarith)
      exact ⟨by linarith, by linarith⟩
    · obtain ⟨h0, h1⟩ := hneg (by linarith)
      exact ⟨by linarith, by linarith⟩
  rw [fmod, htrunc, hdeg]
  ring

theorem degToRawRat_eq {deg rest : Rat} {k : Int} (hdeg : deg = 360 * k + rest)
    (hpos : 0 ≤ deg → 0 ≤ rest ∧ rest < 360) (hneg : deg < 0 → -360 < rest ∧ rest ≤ 0) :
    degToRawRat deg = 4096 * rest / 360 := by
  rw [degToRawRat, fmod_full_turn hdeg hpos hneg, fullScale]
  norm_num

/-- Settles O30, by the remainder modulo a full turn of either form. -/
theorem degreesToRawReducesFirst : Obligations.DegreesToRawReducesFirst := by
  refine ⟨fun s deg => ⟨_, exec_asDeg2RawI s deg, degToRawInt_eq deg, degToRawInt_bounds deg⟩,
    fun s deg rest k hdeg hpos hneg => ⟨_, represents_floatValue s.config _, ?_⟩, fun x => ?_⟩
  · rw [exec_asDeg2RawF, degToRawRat_eq hdeg hpos hneg]; rfl
  · simp [decode, decodeOp, oneOperand, Operand.asRat]

/-! ## The full circle (95_test_vectors.md S1) -/

section
variable {raw : Half}

theorem rawToDegRat_full_circle (raw : Half) : rawToDegRat raw 0 4096 = raw.toNat * 360 / 4096 := by
  rw [rawToDegRat_eq, show ((4096 : Half).toNat : Rat) = 4096 from rfl, show ((0 : Half).toNat : Rat) = 0 from rfl]
  ring

/-- The floating forms invert each other: no value of the circle reaches a full turn. -/
theorem degToRawRat_rawToDegRat (hraw : raw.toNat ≤ 4095) : degToRawRat (rawToDegRat raw 0 4096) = raw.toNat := by
  have h0 : (0 : Rat) ≤ raw.toNat := by positivity
  have h1 : (raw.toNat : Rat) ≤ 4095 := by exact_mod_cast hraw
  rw [rawToDegRat_full_circle, degToRawRat_eq (k := 0) (rest := raw.toNat * 360 / 4096) (by push_cast; ring)
    (fun _ => ⟨by linarith, by linarith⟩) (fun h => absurd h (not_lt.2 (by linarith)))]
  ring

theorem rawToDegInt_literal_full_circle (raw : Half) :
    rawToDegInt .literal raw 0 4096 = (raw.toNat : Int) * 4096 / 46603 := by
  have h : (0 : Int) ≤ raw.toNat * 4096 := by positivity
  rw [rawToDegInt_literal]
  exact Int.tdiv_eq_ediv_of_nonneg h

theorem rawToDegInt_exact_full_circle (raw : Half) :
    rawToDegInt .exact raw 0 4096 = (raw.toNat : Int) * 4096 * 360 / 16777216 := by
  have h : (0 : Int) ≤ raw.toNat * 4096 * 360 := by positivity
  rw [rawToDegInt_exact]
  exact Int.tdiv_eq_ediv_of_nonneg h

theorem rawToDegInt_lt_turn (d : IntDivisor) (hraw : raw.toNat ≤ 4095) :
    0 ≤ rawToDegInt d raw 0 4096 ∧ rawToDegInt d raw 0 4096 < 360 := by
  cases d with
  | literal => rw [rawToDegInt_literal_full_circle]; omega
  | exact => rw [rawToDegInt_exact_full_circle]; omega

/-- The integer forms lose at most 12 counts. -/
theorem degToRawInt_rawToDegInt (d : IntDivisor) (hraw : raw.toNat ≤ 4095) :
    degToRawInt (rawToDegInt d raw 0 4096) ≤ raw.toNat ∧
      (raw.toNat : Int) ≤ degToRawInt (rawToDegInt d raw 0 4096) + 12 := by
  obtain ⟨h0, h1⟩ := rawToDegInt_lt_turn d hraw
  rw [degToRawInt_of_nonneg h0, Int.emod_eq_of_lt h0 h1]
  cases d with
  | literal => rw [rawToDegInt_literal_full_circle]; omega
  | exact => rw [rawToDegInt_exact_full_circle]; omega

end

/-- Settles O32, by the exact inverse of the floating forms and the bound on the integer forms. -/
theorem fullCircleRoundTrip : Obligations.FullCircleRoundTrip := by
  intro s raw hraw
  obtain ⟨hle, hge⟩ := degToRawInt_rawToDegInt s.config.angleIntDivisor hraw
  refine ⟨fun hf => ⟨rawToDegRat raw 0 4096, ?_, ?_⟩, _, _, exec_asRaw2DegI s raw 0 4096, exec_asDeg2RawI s _, hle, hge⟩
  · rw [exec_asRaw2DegF, floatValue_exact hf]; rfl
  · rw [exec_asDeg2RawF, degToRawRat_rawToDegRat hraw, floatValue_exact hf]; rfl

/-! ## The magnet table -/

section
variable {s : State} {x : Byte}

theorem exec_asStatusScale_of_row {v : Int} (hv : statusScale s.config x = some v) :
    exec (.asStatusScale x) s = .next (s.ended (some (.ok (.int v)))) := by
  simp [exec, execAsStatusScale, hv, returnValue]

theorem exec_asStatusScale_of_no_row (hv : statusScale s.config x = none) :
    exec (.asStatusScale x) s = .next (s.drawn.ended (some (.ok (.int (drawnScale (Config.freeScale s.draws)))))) := by
  simp [exec, execAsStatusScale, hv, returnValue]

end

/-- Settles O31, row by row; where the table has no row, by the range of a draw. -/
theorem statusScaleFollowsTheTable : Obligations.StatusScaleFollowsTheTable := by
  rintro s x mh ml md rfl rfl rfl
  refine ⟨fun hh hl => exec_asStatusScale_of_row ?_, fun hh hl => exec_asStatusScale_of_row ?_,
    fun hh hl => exec_asStatusScale_of_row ?_, fun hh hl => ?_⟩
  · simp only [statusScale, hh, hl]
  · simp only [statusScale, hh, hl]
  · simp only [statusScale, hh, hl]
  · obtain ⟨hlo, hhi⟩ := drawnScale_range (Config.freeScale s.draws)
    exact ⟨_, hlo, hhi, exec_asStatusScale_of_no_row (by simp only [statusScale, hh, hl])⟩

end Sys2Proof.Machine

/-! PROOFS. The converters of the IMU (42_imu.md R144 to R150): the two's-complement reading, the temperature, and the scale
factors that the range selector picks. -/

namespace Sys2Proof.Machine

/-- The two's-complement reading of R12, by the two halves of the range. -/
theorem s16_eq_of_halves {x : Half} {z : Int} (hlow : x.toNat < 0x8000 → z = x.toNat)
    (hhigh : 0x8000 ≤ x.toNat → z = (x.toNat : Int) - 0x10000) : s16 x = z := by
  unfold s16
  split
  · rename_i h; exact (hlow h).symm
  · rename_i h; exact (hhigh (not_lt.1 h)).symm

theorem tempC_eq (raw : Half) : tempC raw = (s16 raw : Rat) / 340 + 3653 / 100 := rfl

/-- Settles O36, by the two halves of the range. -/
theorem signedDecodeAndTemperature : Obligations.SignedDecodeAndTemperature := by
  rintro s x z ⟨hlow, hhigh⟩
  obtain rfl := s16_eq_of_halves hlow hhigh
  exact ⟨rfl, _, represents_floatValue s.config _, rfl⟩

theorem rangeSel_toNat (c : Config) (cfg : Byte) : (rangeSel c cfg).toNat = cfg.toNat / 2 ^ c.rangeLo.val % 4 := by
  rw [rangeSel, BitVec.extractLsb'_toNat, Nat.shiftRight_eq_div_pow]

theorem selector_cases : ∀ sel : BitVec 2, sel = 0 ∨ sel = 1 ∨ sel = 2 ∨ sel = 3 := by decide

theorem afsTable_eq (sel : BitVec 2) : afsTable sel = ([16384, 8192, 4096, 2048] : List Int).getD sel.toNat 0 := by
  obtain rfl | rfl | rfl | rfl := selector_cases sel <;> rfl

theorem afsTable_cast (sel : BitVec 2) :
    (afsTable sel : Rat) = ([16384, 8192, 4096, 2048] : List Rat).getD sel.toNat 0 := by
  rw [afsTable_eq]
  obtain rfl | rfl | rfl | rfl := selector_cases sel <;> simp

theorem gfsTable_eq (sel : BitVec 2) :
    gfsTable sel = ([131, 131 / 2, 164 / 5, 82 / 5] : List Rat).getD sel.toNat 0 := by
  obtain rfl | rfl | rfl | rfl := selector_cases sel <;> rfl

/-- Settles O37, by the tables at the two-bit selector. -/
theorem scaleFactorsFollowTheSelector : Obligations.ScaleFactorsFollowTheSelector := by
  rintro s cfg k rfl
  rw [← rangeSel_toNat, ← afsTable_eq, ← gfsTable_eq]
  exact ⟨rfl, _, represents_floatValue s.config _, rfl⟩

section
variable (c : Config) (raw : Half) (cfg : Byte)

/-- The acceleration by the factor of the selector, in units of the source or of SI. -/
theorem accelConv_eq (ms2 : Bool) :
    accelConv c raw cfg ms2 = (raw.toInt : Rat) /
      ([16384, 8192, 4096, 2048] : List Rat).getD (cfg.toNat / 2 ^ c.rangeLo.val % 4) 0 *
        (if ms2 then 980665 / 100000 else 1) := by
  rw [← rangeSel_toNat, ← afsTable_cast, accelConv, s16_eq_toInt]
  cases ms2 with
  | true => rfl
  | false => exact (mul_one _).symm

theorem gyroConv_eq :
    gyroConv c raw cfg = (raw.toInt : Rat) /
      ([131, 131 / 2, 164 / 5, 82 / 5] : List Rat).getD (cfg.toNat / 2 ^ c.rangeLo.val % 4) 0 := by
  rw [← rangeSel_toNat, ← gfsTable_eq, gyroConv, s16_eq_toInt]

theorem exec_imuAccelConv (s : State) (ms2 : Bool) :
    exec (.imuAccelConv raw cfg ms2) s =
      .next (s.ended (some (.ok (floatValue s.config (accelConv s.config raw cfg ms2))))) := rfl

theorem exec_imuGyroConv (s : State) :
    exec (.imuGyroConv raw cfg) s = .next (s.ended (some (.ok (floatValue s.config (gyroConv s.config raw cfg))))) := rfl

end

/-- Settles O38, by the quotient that each conversion computes. -/
theorem conversionsDivideByTheSelectedScale : Obligations.ConversionsDivideByTheSelectedScale := by
  rintro s raw cfg k rfl
  refine ⟨⟨_, represents_floatValue s.config _, ?_⟩, ⟨_, represents_floatValue s.config _, ?_⟩,
    _, represents_floatValue s.config _, ?_⟩
  · rw [exec_imuAccelConv, accelConv_eq, if_neg (by decide), mul_one]; rfl
  · rw [exec_imuAccelConv, accelConv_eq, if_pos rfl]; rfl
  · rw [exec_imuGyroConv, gyroConv_eq]; rfl

end Sys2Proof.Machine

/-! PROOFS. The converting reads of the IMU (42_imu.md R151 to R154): IMU_READ_TEMP is a two-byte register read and a conversion;
IMU_READ_ACCEL and IMU_READ_GYRO are one sample each, the axis and then the live range. -/

namespace Sys2Proof.Machine

/-! ## Parts that end in a value, and parts that do not -/

section
variable {α β : Type} {s t u : State} {h : HandleId} {r : HandleRec} {reg len : Byte} {k : Nat} {x : Run Value} {v : Value}

/-- A sequence that is done is done in each of its parts. -/
theorem done_of_andThen {y : Run α} {f : α → State → Run β} {b : β} (hy : y.andThen f = .done b t) :
    ∃ a u, y = .done a u ∧ f a u = .done b t := by
  cases y with
  | done a u => exact ⟨a, u, rfl, hy⟩
  | raised | hung => cases hy

theorem done_of_finish (hx : finish x = .next t) (he : t.ending = some (.ok v)) :
    ∃ u, x = .done v u ∧ t = u.ended (some (.ok v)) := by
  cases x with
  | done w u => cases hx; cases he; exact ⟨u, rfl, rfl⟩
  | raised | hung => cases hx; cases he

theorem ReadsRegister.of_done (hx : ReadsRegister h r reg k s (.done v t)) :
    ∃ l : List Byte, l.length = k ∧ t = s.played (regRead h r reg l) := by
  cases hx with
  | full _ l hl => exact ⟨l, hl, rfl⟩

/-- A one-byte read that is done was answered with one byte. -/
theorem readByte_done {b : Byte} (hb : readByte h r reg s = .done b t) : ∃ b0, t = s.played (regRead h r reg [b0]) := by
  have hx := memRead_readsRegister h r reg .one s
  rw [memRead, hb, andThen_done] at hx
  obtain ⟨l, hl, ht⟩ := hx.of_done
  obtain ⟨b0, rfl⟩ := List.length_eq_one_iff.1 hl
  exact ⟨b0, ht⟩

/-- A two-byte read that is done was answered with two bytes. -/
theorem readHalf_done {w : Half} (hw : readHalf h r reg s = .done w t) :
    ∃ b0 b1, t = s.played (regRead h r reg [b0, b1]) := by
  have hx := memRead_readsRegister h r reg .two s
  rw [memRead, hw, andThen_done] at hx
  obtain ⟨l, hl, ht⟩ := hx.of_done
  obtain ⟨b0, b1, rfl⟩ := List.length_eq_two.1 hl
  exact ⟨b0, b1, ht⟩

/-- An operation that begins with a register read ends as READ_REG of that register does, where that ends without a value. The
read is READ_REG's body up to the value `g` it makes of what it read. -/
theorem exec_of_read_without_value {i : Instr} {n : RegLen} {read : HandleRec → State → Run α} {g : α → Value}
    (hn : regLen len = some n) (hi : handleOf i = some h) (hw : i.wellFormed s.config = true)
    (hmem : ∀ r, memRead h r reg n s = (read r s).andThen fun a u => .done (g a) u)
    (hbody : ∀ r, checkOpen s h = some r → ∃ f, exec i s = finish ((read r s).andThen f))
    (hread : exec (.readReg h reg len) s = .next t) (ht : ∀ v, t.ending ≠ some (.ok v)) : exec i s = .next t := by
  cases hc : checkOpen s h with
  | none =>
    have hlen : (Instr.readReg h reg len).wellFormed s.config = true := by simp [Instr.wellFormed, hn]
    rw [exec_of_not_open (i := .readReg h reg len) rfl hlen hc] at hread
    rw [exec_of_not_open hi hw hc, hread]
  | some r =>
    rw [exec_readReg_of_open hn hc, hmem] at hread
    obtain ⟨f, hf⟩ := hbody r hc
    rw [hf]
    exact finish_andThen_of_no_value f hread ht

end

/-! ## IMU_READ_TEMP -/

section
variable {s t : State} {h : HandleId} {r : HandleRec} {b0 b1 : Byte}

theorem exec_imuReadTemp_of_open (hr : checkOpen s h = some r) :
    exec (.imuReadTemp h) s = finish ((readHalf h r s.config.imuReg.temp s).andThen fun raw u =>
      .done (floatValue u.config (tempC raw)) u) := by
  simp [exec, execImuReadTemp, withHandle_of_open hr, imuRegAddr]

theorem exec_imuReadTemp_of_read (hr : checkOpen s h = some r)
    (hp : environmentPlays s (regRead h r s.config.imuReg.temp [b0, b1]) = true) :
    exec (.imuReadTemp h) s = .next ((s.played (regRead h r s.config.imuReg.temp [b0, b1])).ended
      (some (.ok (floatValue s.config (tempC (BitVec.ofNat 16 (256 * b0.toNat + b1.toNat))))))) := by
  rw [exec_imuReadTemp_of_open hr, readHalf_ok hp, andThen_done, finish_done, bigEndian_eq, played_config]

end

/-- Settles O39, by READ_REG's body in front of the conversion. -/
theorem readTempConvertsTheRegister : Obligations.ReadTempConvertsTheRegister := by
  refine fun s h => ⟨fun t => exec_of_read_without_value (n := .two) rfl rfl rfl (fun _ => rfl)
    fun r hr => ⟨_, exec_imuReadTemp_of_open hr⟩, fun r b0 b1 hr hp => ⟨_, represents_floatValue s.config _, ?_⟩⟩
  rw [exec_imuReadTemp_of_read hr hp, tempC_eq, s16_eq_toInt]

/-! ## Samples -/

/-- One sample: the axis register `axis`, then the register `range` of the live range, and the conversion by both. -/
def sample (h : HandleId) (r : HandleRec) (axis : Byte) (range : Config → Byte) (conv : Config → Half → Byte → Rat)
    (s : State) : Run Value :=
  (readHalf h r axis s).andThen fun raw s =>
    (readByte h r (range s.config) s).andThen fun cfg s => .done (floatValue s.config (conv s.config raw cfg)) s

section
variable {s t : State} {h : HandleId} {r : HandleRec} {axis : Byte} {range : Config → Byte}
  {conv : Config → Half → Byte → Rat} {i : Instr} {v : Value} {b0 b1 cfg : Byte}

theorem exec_imuReadAccel_of_open (a : Axis) (ms2 : Bool) (hr : checkOpen s h = some r) :
    exec (.imuReadAccel h a ms2) s = finish (sample h r (imuRegAddr s.config.imuReg (accelReg a))
      (fun c => c.imuReg.accelConfig) (fun c raw cfg => accelConv c raw cfg ms2) s) := by
  simp [exec, execImuReadAccel, withHandle_of_open hr, sample, imuRegAddr]

theorem exec_imuReadGyro_of_open (a : Axis) (hr : checkOpen s h = some r) :
    exec (.imuReadGyro h a) s = finish (sample h r (imuRegAddr s.config.imuReg (gyroReg a))
      (fun c => c.imuReg.gyroConfig) gyroConv s) := by
  simp [exec, execImuReadGyro, withHandle_of_open hr, sample, imuRegAddr]

theorem sample_of_axis (hp : environmentPlays s (regRead h r axis [b0, b1]) = true) :
    sample h r axis range conv s =
      (readByte h r (range s.config) (s.played (regRead h r axis [b0, b1]))).andThen fun cfg s =>
        .done (floatValue s.config (conv s.config (BitVec.ofNat 16 (256 * b0.toNat + b1.toNat)) cfg)) s := by
  rw [sample, readHalf_ok hp, andThen_done, bigEndian_eq, played_config]

theorem sample_of_reads
    (hp : environmentPlays s (regRead h r axis [b0, b1] ++ regRead h r (range s.config) [cfg]) = true) :
    finish (sample h r axis range conv s) =
      .next ((s.played (regRead h r axis [b0, b1] ++ regRead h r (range s.config) [cfg])).ended
        (some (.ok (floatValue s.config (conv s.config (BitVec.ofNat 16 (256 * b0.toNat + b1.toNat)) cfg))))) := by
  obtain ⟨haxis, hrange⟩ := Bool.and_eq_true_iff.1 ((environmentPlays_append _ _ _).symm.trans hp)
  rw [sample_of_axis haxis, readByte_ok hrange, andThen_done, finish_done, played_played, played_config]

/-- A sample ends as READ_REG of the axis does, where that ends without a value. -/
theorem exec_of_axis_without_value (hi : handleOf i = some h) (hw : i.wellFormed s.config = true)
    (hbody : ∀ r, checkOpen s h = some r → exec i s = finish (sample h r axis range conv s))
    (hread : exec (.readReg h axis 2) s = .next t) (ht : ∀ v, t.ending ≠ some (.ok v)) : exec i s = .next t :=
  exec_of_read_without_value (n := .two) rfl hi hw (fun _ => rfl) (fun r hr => ⟨_, hbody r hr⟩) hread ht

/-- Behind the axis, a sample ends as READ_REG of the range does, where that ends without a value. -/
theorem finish_sample_of_range_without_value (hr : checkOpen s h = some r)
    (hp : environmentPlays s (regRead h r axis [b0, b1]) = true)
    (hread : exec (.readReg h (range s.config) 1) (s.played (regRead h r axis [b0, b1])) = .next t)
    (ht : ∀ v, t.ending ≠ some (.ok v)) : finish (sample h r axis range conv s) = .next t := by
  rw [exec_readReg_of_open (n := .one) rfl ((checkOpen_played s _ h).trans hr)] at hread
  rw [sample_of_axis hp]
  exact finish_andThen_of_no_value _ hread ht

/-- A sample that ends in a value has read its axis and its range in full. -/
theorem history_of_sample (hx : finish (sample h r axis range conv s) = .next t) (he : t.ending = some (.ok v)) :
    ∃ b0 b1 cfg, t.history = s.history ++ (regRead h r axis [b0, b1] ++ regRead h r (range s.config) [cfg]) := by
  obtain ⟨u, hu, rfl⟩ := done_of_finish hx he
  obtain ⟨raw, s1, haxis, hrest⟩ := done_of_andThen hu
  obtain ⟨b0, b1, rfl⟩ := readHalf_done haxis
  obtain ⟨cfg, s2, hrange, hdone⟩ := done_of_andThen hrest
  obtain ⟨b, rfl⟩ := readByte_done hrange
  cases hdone
  exact ⟨b0, b1, b, List.append_assoc _ _ _⟩

theorem history_of_imuReadTemp (hr : checkOpen s h = some r) (hx : exec (.imuReadTemp h) s = .next t)
    (he : t.ending = some (.ok v)) : ∃ b0 b1, t.history = s.history ++ regRead h r s.config.imuReg.temp [b0, b1] := by
  rw [exec_imuReadTemp_of_open hr] at hx
  obtain ⟨u, hu, rfl⟩ := done_of_finish hx he
  obtain ⟨raw, s1, htemp, hdone⟩ := done_of_andThen hu
  obtain ⟨b0, b1, rfl⟩ := readHalf_done htemp
  cases hdone
  exact ⟨b0, b1, rfl⟩

end

/-- Settles O40, by the body of a sample under each answer. -/
theorem readAccelUsesTheLiveRange : Obligations.ReadAccelUsesTheLiveRange := by
  intro s h a ms2 addr haddr
  obtain rfl : addr = imuRegAddr s.config.imuReg (accelReg a) := haddr.trans (by cases a <;> rfl)
  have hbody := fun r => exec_imuReadAccel_of_open (s := s) (h := h) (r := r) a ms2
  refine ⟨fun t => exec_of_axis_without_value rfl rfl hbody, fun r b0 b1 hr hp => ?_⟩
  rw [hbody r hr]
  refine ⟨fun t => finish_sample_of_range_without_value (range := fun c => c.imuReg.accelConfig) hr hp, ?_⟩
  rintro cfg k rfl hall
  refine ⟨_, represents_floatValue s.config _, ?_⟩
  rw [sample_of_reads hall, accelConv_eq]

/-- Settles O41, by the body of a sample under each answer. -/
theorem readGyroUsesTheLiveRange : Obligations.ReadGyroUsesTheLiveRange := by
  intro s h a addr haddr
  obtain rfl : addr = imuRegAddr s.config.imuReg (gyroReg a) := haddr.trans (by cases a <;> rfl)
  have hbody := fun r => exec_imuReadGyro_of_open (s := s) (h := h) (r := r) a
  refine ⟨fun t => exec_of_axis_without_value rfl rfl hbody, fun r b0 b1 hr hp => ?_⟩
  rw [hbody r hr]
  refine ⟨fun t => finish_sample_of_range_without_value (range := fun c => c.imuReg.gyroConfig) hr hp, ?_⟩
  rintro cfg k rfl hall
  refine ⟨_, represents_floatValue s.config _, ?_⟩
  rw [sample_of_reads hall, gyroConv_eq]

/-- Settles O42: an operation that is done is done in each of its reads. -/
theorem noValueFromAFailedRead : Obligations.NoValueFromAFailedRead := by
  intro i h r s t v hr hexec he
  refine ⟨?_, ?_, ?_⟩
  · rintro rfl
    exact history_of_imuReadTemp hr hexec he
  · rintro a ms2 rfl
    rw [exec_imuReadAccel_of_open a ms2 hr] at hexec
    cases a <;> exact history_of_sample hexec he
  · rintro a rfl
    rw [exec_imuReadGyro_of_open a hr] at hexec
    cases a <;> exact history_of_sample hexec he

end Sys2Proof.Machine

/-! PROOFS. CLOSE (40_transport.md R96), and transfers that are never answered (60_exceptions.md R208): an OPEN, the one write of
an operation, the select and the read of READ_REG. -/

namespace Sys2Proof.Machine

/-! ## CLOSE -/

section
variable {s u : State} {h : HandleId} {r : HandleRec}

theorem exec_close_of_open (hr : checkOpen s h = some r) :
    exec (.closeHandle h) s = .next (((s.closeEntry h r).record (.closed h)).ended (some (.ok .unit))) := by
  simp [exec, execClose, withHandle_of_open hr]

/-- A handle whose entry is closed does not pass the check, in any state with that table. -/
theorem checkOpen_of_closeEntry (hu : u.handles = (s.closeEntry h r).handles) : checkOpen u h = none :=
  checkOpen_eq_none_of_closed (.inr ⟨{ r with isOpen := false }, by rw [hu]; exact lookup_insert_self _ _ _, rfl⟩)

end

/-- Settles O20, by the table that CLOSE leaves and the handle check of every later operation. -/
theorem closeReleasesTheHandle : Obligations.CloseReleasesTheHandle :=
  fun s h =>
    ⟨fun r hr => ⟨(s.closeEntry h r).handles, exec_close_of_open hr, lookup_insert_self _ _ _,
      fun _ hk => lookup_insert_of_ne hk _ _,
      fun _ _ hu hi hw => exec_of_not_open hi hw (checkOpen_of_closeEntry hu)⟩,
    exec_of_not_open (i := .closeHandle h) rfl rfl⟩

/-! ## Transfers that are never answered -/

section
variable {s : State} {h : HandleId} {r : HandleRec} {reg len : Byte}

theorem exec_open_of_no_answer {bus : String} {addr : BusAddr} (ha : answerOpen s bus addr = none) :
    exec (.openHandle bus addr) s = .next ((s.blockedOn (.open_ bus addr)).ended none) := by
  simp [exec, execOpen, openBus, ha]

/-- The instruction `i` on the open handle `h` sends `bytes` first, and blocks where that write gets no answer. -/
def BlocksOnWrite (s : State) (h : HandleId) (r : HandleRec) (bytes : List Byte) (i : Instr) : Prop :=
  answerWrite s r.bus r.addr bytes = none → exec i s = .next ((s.blockedOn (.write h bytes)).ended none)

theorem blocksOnWrite_of_frame {i : Instr} {bytes : List Byte}
    (he : exec i s = finish (unitAfter (sendFrame h r bytes s))) : BlocksOnWrite s h r bytes i := fun ha => by
  rw [he, sendFrame_hung ha, unitAfter, andThen_hung, finish_hung]

/-- A register read that is blocked leaves READ_REG without an end. -/
theorem exec_readReg_of_hung {t : State} (hr : checkOpen s h = some r) (hl : len = 1 ∨ len = 2)
    (hb : readBytes h r reg len.toNat s = .hung t) : exec (.readReg h reg len) s = .next (t.ended none) := by
  obtain ⟨n, hn, hcount⟩ := exists_regLen hl
  rw [exec_readReg_of_open hn hr, memRead_of_hung (hcount ▸ hb), finish_hung]

theorem exec_readReg_of_read_hangs (hr : checkOpen s h = some r) (hl : len = 1 ∨ len = 2)
    (hp : environmentPlays s [wrote h r [reg] .ok] = true)
    (ha : answerRead (s.played [wrote h r [reg] .ok]) r.bus r.addr len.toNat = none) :
    exec (.readReg h reg len) s =
      .next (((s.answered (wrote h r [reg] .ok)).blockedOn (.read h len.toNat)).ended none) := by
  rw [answered_eq_played (by rfl)]
  exact exec_readReg_of_hung hr hl (readBytes_of_read_hangs hp ha)

theorem readReg_blocksOnWrite (hr : checkOpen s h = some r) (hl : len = 1 ∨ len = 2) :
    BlocksOnWrite s h r [reg] (.readReg h reg len) :=
  fun ha => exec_readReg_of_hung hr hl (readBytes_of_select_hangs _ ha)

theorem writeReg_blocksOnWrite {n : RegLen} {value : Half} {bytes : List Byte} (hr : checkOpen s h = some r)
    (hn : regLen len = some n) (hframe : writeFrame reg n value = bytes) :
    BlocksOnWrite s h r bytes (.writeReg h reg value len) :=
  blocksOnWrite_of_frame (by rw [exec_writeReg_of_open hn hr, hframe])

theorem asWrite_blocksOnWrite {a : AngleReg} {value : Half} {hi lo : Byte} (hr : checkOpen s h = some r)
    (hv : value.toNat = 256 * hi.toNat + lo.toNat)
    (hm : (a, reg) ∈ [(AngleReg.zpos, s.config.asReg.zpos), (.mpos, s.config.asReg.mpos),
      (.mang, s.config.asReg.mang), (.conf, s.config.asReg.conf)]) :
    BlocksOnWrite s h r [reg, hi, lo] (.asWrite h a value) := by
  obtain ⟨hw, rfl⟩ := writable_row_of_mem hm
  exact blocksOnWrite_of_frame (exec_asWrite_of_open hw hv hr)

/-- The rows of the burn commands: their names with their codes. -/
theorem burnCode_of_mem {c : Config} {cmd : BurnCmd} {code : Byte}
    (hm : (cmd, code) ∈ [(BurnCmd.angle, c.burnAngleCmd), (.setting, c.burnSettingCmd)]) : burnCode c cmd = code := by
  simp only [List.mem_cons, Prod.mk.injEq, List.not_mem_nil, or_false] at hm
  obtain ⟨rfl, rfl⟩ | ⟨rfl, rfl⟩ := hm <;> rfl

theorem asBurn_blocksOnWrite {cmd : BurnCmd} {code : Byte} (hr : checkOpen s h = some r)
    (hm : (cmd, code) ∈ [(BurnCmd.angle, s.config.burnAngleCmd), (.setting, s.config.burnSettingCmd)]) :
    BlocksOnWrite s h r [s.config.asReg.burn, code] (.asBurn h cmd) := by
  obtain rfl := burnCode_of_mem hm
  exact blocksOnWrite_of_frame (exec_asBurn_of_open hr)

theorem imuWrite_blocksOnWrite {g : ImuReg} {value : Byte} (hr : checkOpen s h = some r)
    (hm : (g, reg) ∈ [(ImuReg.pwrMgmt, s.config.imuReg.pwrMgmt), (.accelConfig, s.config.imuReg.accelConfig),
      (.gyroConfig, s.config.imuReg.gyroConfig), (.dlpfConfig, s.config.imuReg.dlpfConfig)]) :
    BlocksOnWrite s h r [reg, value] (.imuWrite h g value) := by
  obtain ⟨hw, rfl⟩ := imuWritable_row_of_mem hm
  exact blocksOnWrite_of_frame (exec_imuWrite_of_open hw hr)

end

/-- Settles O8: by what OPEN does without an answer, by the one frame of each operation of one write, and by the two transfers of
READ_REG. -/
theorem unansweredTransferBlocksTheBlock : Obligations.UnansweredTransferBlocksTheBlock := by
  refine ⟨fun s bus addr => exec_open_of_no_answer, ?_, fun s h r reg len => exec_readReg_of_read_hangs,
    fun s x hx => by simp [step, hx]⟩
  intro s i h r reg value hi lo bytes hr hv hop
  change BlocksOnWrite s h r bytes i
  obtain ⟨rfl, rfl⟩ | ⟨rfl, rfl⟩ | ⟨rfl, hlegal⟩ | ⟨rfl, rfl⟩ | ⟨rfl, rfl⟩ | ⟨a, rfl, rfl, hm⟩ | ⟨cmd, rfl, rfl, hm⟩ |
    ⟨g, rfl, rfl, hm⟩ := hop
  · exact writeReg_blocksOnWrite hr (n := .one) rfl (writeFrame_one reg hv)
  · exact writeReg_blocksOnWrite hr (n := .two) rfl (writeFrame_two reg hv)
  · exact blocksOnWrite_of_frame (exec_writeRaw_of_open hlegal hr)
  · exact readReg_blocksOnWrite hr (.inl rfl)
  · exact readReg_blocksOnWrite hr (.inr rfl)
  · exact asWrite_blocksOnWrite hr hv hm
  · exact asBurn_blocksOnWrite hr hm
  · exact imuWrite_blocksOnWrite hr hm

end Sys2Proof.Machine

/-! PROOFS. The PWM operations (43_pwm.md R172 to R178): each runs a part that `Follows` a fixed list of events, so that one rule per
way the environment answers gives its result, its first failing write and its first unanswered transfer. -/

namespace Sys2Proof.Machine

/-! ## An operation whose first part follows a list of events -/

section
variable {s : State} {α : Type} {f : State → Run α} {g : α → State → Run Value} {es : List Event} {a : α} {k : Nat} {e : Event}

theorem Follows.finish_ok (hf : Follows s.config f es a) (hp : environmentPlays s es = true) :
    finish ((f s).andThen g) = finish (g a (s.played es)) := by
  rw [hf.ok s rfl hp, andThen_done]

theorem Follows.finish_fails (hf : Follows s.config f es a) (hk : es[k]? = some e) (hw : isWrite e = true)
    (hp : environmentPlays s (es.take k ++ [refusedByBus e]) = true) :
    finish ((f s).andThen g) =
      .next ((s.played (es.take k ++ [refusedByBus e])).ended (some (.err .writeFailed))) := by
  rw [hf.fails s k e rfl hk hw hp, andThen_raised, finish_raised]

theorem Follows.finish_blocks {x : Transfer} (hf : Follows s.config f es a) (hk : es[k]? = some e)
    (hp : environmentPlays s (es.take k) = true) (hx : unanswered (s.played (es.take k)) e = some x) :
    finish ((f s).andThen g) = .next (((s.played (es.take k)).blockedOn x).ended none) := by
  rw [hf.blocks s k e x rfl hk hp hx, andThen_hung, finish_hung]

end

theorem isWrite_of_wroteAll {h : HandleId} {r : HandleRec} {l : List (Byte × Byte)} {k : Nat} {e : Event}
    (hk : (wroteAll h r l)[k]? = some e) : isWrite e = true := by
  obtain ⟨p, -, rfl⟩ := List.mem_map.1 (List.mem_of_getElem? hk)
  rfl

/-! ## Ticks and prescales as bytes -/

section
variable {t : Int} {hi lo : Byte}

theorem tickLo_eq (ht : t = 256 * hi.toNat + lo.toNat) : tickLo t = lo := by
  have := lo.isLt
  refine BitVec.eq_of_toNat_eq ?_
  rw [tickLo, BitVec.toNat_ofInt, ht]
  omega

theorem tickHi_eq (ht : t = 256 * hi.toNat + lo.toNat) : tickHi t = hi := by
  have := lo.isLt
  have := hi.isLt
  refine BitVec.eq_of_toNat_eq ?_
  rw [tickHi, BitVec.toNat_ofInt, ht]
  omega

theorem tickLegal_of_bounds (h0 : 0 ≤ t) (h1 : t ≤ 4095) : tickLegal t = true := decide_eq_true ⟨h0, h1⟩

theorem ticksLegal_of_bounds {on off : Int} (hon0 : 0 ≤ on) (hon1 : on ≤ 4095) (hoff0 : 0 ≤ off) (hoff1 : off ≤ 4095) :
    (tickLegal on && tickLegal off) = true := by
  rw [tickLegal_of_bounds hon0 hon1, tickLegal_of_bounds hoff0 hoff1]; rfl

theorem tickLegal_eq_false (ht : t < 0 ∨ 4095 < t) : tickLegal t = false := decide_eq_false (by omega)

theorem ticksLegal_eq_false {on off : Int} (h : on < 0 ∨ 4095 < on ∨ off < 0 ∨ 4095 < off) :
    (tickLegal on && tickLegal off) = false := by
  rw [Bool.and_eq_false_iff]
  obtain h | h | h | h := h
  · exact .inl (tickLegal_eq_false (.inl h))
  · exact .inl (tickLegal_eq_false (.inr h))
  · exact .inr (tickLegal_eq_false (.inl h))
  · exact .inr (tickLegal_eq_false (.inr h))

theorem ofInt_of_toNat_eq {p : Int} {b : Byte} (hb : (b.toNat : Int) = p) : BitVec.ofInt 8 p = b := by
  have := b.isLt
  refine BitVec.eq_of_toNat_eq ?_
  rw [BitVec.toNat_ofInt, ← hb]
  omega

theorem channelBytes_eq {m : PwmMap} {ch : Nat} {on off : Int} {onL onH offL offH : Byte}
    (hon : on = 256 * onH.toNat + onL.toNat) (hoff : off = 256 * offH.toNat + offL.toNat) :
    channelBytes m ch on off = [(channelAddr m.led0OnL ch, onL), (channelAddr m.led0OnH ch, onH),
      (channelAddr m.led0OffL ch, offL), (channelAddr m.led0OffH ch, offH)] := by
  rw [channelBytes, tickLo_eq hon, tickHi_eq hon, tickLo_eq hoff, tickHi_eq hoff]

theorem allChannelBytes_eq {m : PwmMap} {on off : Int} {onL onH offL offH : Byte}
    (hon : on = 256 * onH.toNat + onL.toNat) (hoff : off = 256 * offH.toNat + offL.toNat) :
    allChannelBytes m on off = [(m.allOnL, onL), (m.allOnH, onH), (m.allOffL, offL), (m.allOffH, offH)] := by
  rw [allChannelBytes, tickLo_eq hon, tickHi_eq hon, tickLo_eq hoff, tickHi_eq hoff]

end

/-! ## The operations behind their checks -/

section
variable {s : State} {h : HandleId} {r : HandleRec} {ch : Nat} {on off : Int} {ms freq : Rat}

theorem channelLegal_of_lt (hch : ch < s.config.numChannels) : channelLegal s.config ch = true := decide_eq_true hch

theorem channelLegal_eq_false (hch : s.config.numChannels ≤ ch) : channelLegal s.config ch = false :=
  decide_eq_false (not_lt.2 hch)

theorem exec_pwmSetChannel_of_badChannel (hch : s.config.numChannels ≤ ch) :
    exec (.pwmSetChannel h ch on off) s = .next (s.markRefused .channelOutOfRange) := by
  simp [exec, execPwmSetChannel, channelLegal_eq_false hch, refuse]

theorem exec_pwmSetChannel_of_badTicks (hch : ch < s.config.numChannels)
    (ht : (tickLegal on && tickLegal off) = false) :
    exec (.pwmSetChannel h ch on off) s = .next (s.markRefused .tickOutOfRange) := by
  simp only [exec, execPwmSetChannel, channelLegal_of_lt hch, ht]
  rfl

theorem exec_pwmSetChannel_of_open (hch : channelLegal s.config ch = true) (ht : (tickLegal on && tickLegal off) = true)
    (hr : checkOpen s h = some r) :
    exec (.pwmSetChannel h ch on off) s = finish (unitAfter (setRegs h r ch on off s)) := by
  simp only [exec, execPwmSetChannel, hch, ht, if_true, withHandle_of_open hr]

theorem exec_pwmSetAll_of_badTicks (ht : (tickLegal on && tickLegal off) = false) :
    exec (.pwmSetAll h on off) s = .next (s.markRefused .tickOutOfRange) := by
  simp only [exec, execPwmSetAll, ht]
  rfl

theorem exec_pwmSetAll_of_open (ht : (tickLegal on && tickLegal off) = true) (hr : checkOpen s h = some r) :
    exec (.pwmSetAll h on off) s = finish (unitAfter (setAllRegs h r on off s)) := by
  simp only [exec, execPwmSetAll, ht, if_true, withHandle_of_open hr]

theorem exec_pwmSetPulseMs_of_badChannel (hch : s.config.numChannels ≤ ch) :
    exec (.pwmSetPulseMs h ch ms) s = .next (s.markRefused .channelOutOfRange) := by
  simp [exec, execPwmSetPulseMs, channelLegal_eq_false hch, refuse]

theorem exec_pwmSetPulseMs_of_no_freq (hch : ch < s.config.numChannels) (hr : checkOpen s h = some r)
    (hl : lookup h s.pwmFreq = none) :
    exec (.pwmSetPulseMs h ch ms) s = .next (s.markFaulted .frequencyUnset) := by
  simp [exec, execPwmSetPulseMs, channelLegal_of_lt hch, hr, hl, faultWith]

theorem exec_pwmSetPulseMs_of_badTicks (hch : ch < s.config.numChannels) (hr : checkOpen s h = some r)
    (hl : lookup h s.pwmFreq = some freq) (ht : tickLegal (ticksMs ms freq) = false) :
    exec (.pwmSetPulseMs h ch ms) s = .next (s.markRefused .tickOutOfRange) := by
  simp [exec, execPwmSetPulseMs, channelLegal_of_lt hch, hr, hl, ht, refuse]

theorem exec_pwmSetPulseMs_of_open (hch : channelLegal s.config ch = true) (hr : checkOpen s h = some r)
    (hl : lookup h s.pwmFreq = some freq) (hoff : roundsTo (ms * 4096 * freq / 1000) off) (h0 : 0 ≤ off)
    (h1 : off ≤ 4095) :
    exec (.pwmSetPulseMs h ch ms) s = finish (unitAfter (setRegs h r ch 0 off s)) := by
  simp [exec, execPwmSetPulseMs, hch, hr, hl, ticksMs_eq hoff, tickLegal_of_bounds h0 h1]

theorem exec_pwmSetFreq_of_badPrescale (hf : 0 < freq) (hp : prescaleLegal (prescaleOf freq) = false) :
    exec (.pwmSetFreq h freq) s = .next (s.markRefused .prescaleOutOfRange) := by
  simp [exec, execPwmSetFreq, freqLegal_of_pos hf, hp, refuse]

theorem exec_pwmSetFreq_of_nonpos (hf : freq ≤ 0) :
    exec (.pwmSetFreq h freq) s = .next (s.markRefused .badOperand) := by
  simp [exec, execPwmSetFreq, freqLegal_of_nonpos hf, refuse]

theorem exec_pwmSetFreq_of_open (hw : (Instr.pwmSetFreq h freq).wellFormed s.config = true)
    (hr : checkOpen s h = some r) :
    exec (.pwmSetFreq h freq) s = finish ((changePrescale h r (BitVec.ofInt 8 (prescaleOf freq)) s).andThen
      fun _ t => .done .unit (t.setFreq h freq)) := by
  obtain ⟨hf, hp⟩ := Bool.and_eq_true_iff.1 hw
  simp [exec, execPwmSetFreq, hf, hp, withHandle_of_open hr]

theorem exec_pwmBringup_of_open (hr : checkOpen s h = some r) :
    exec (.pwmBringup h) s = finish (unitAfter (bringup h r s)) := by
  simp [exec, execPwmBringup, withHandle_of_open hr]

end

/-! ## PWM_SET_CHANNEL, PWM_SET_ALL and PWM_SET_PULSE_MS -/

/-- Settles O48, by the checks in order and the four writes where the environment answers them. -/
theorem setChannelWritesFourRegisters : Obligations.SetChannelWritesFourRegisters := by
  refine ⟨fun base ch => channelAddr_toNat, fun s h ch on off => ⟨exec_pwmSetChannel_of_badChannel, fun hch =>
    ⟨fun ht => exec_pwmSetChannel_of_badTicks hch (ticksLegal_eq_false ht), fun hon0 hon1 hoff0 hoff1 => ?_⟩⟩⟩
  have hlegal := channelLegal_of_lt hch
  have hticks := ticksLegal_of_bounds hon0 hon1 hoff0 hoff1
  refine ⟨exec_of_not_open (i := .pwmSetChannel h ch on off) rfl
    (by simp only [Instr.wellFormed, hlegal, Bool.true_and, hticks]), ?_⟩
  rintro r _ _ _ _ onL onH offL offH es hr rfl rfl rfl rfl hon hoff rfl hp
  rw [← channelBytes_eq hon hoff] at hp ⊢
  rw [exec_pwmSetChannel_of_open hlegal hticks hr]
  exact (follows_setRegs s.config h r ch on off).finish_ok hp

/-- Settles O49, by the check and the four writes where the environment answers them. -/
theorem setAllWritesTheBroadcastBlock : Obligations.SetAllWritesTheBroadcastBlock := by
  refine fun s h on off => ⟨fun ht => exec_pwmSetAll_of_badTicks (ticksLegal_eq_false ht),
    fun hon0 hon1 hoff0 hoff1 => ?_⟩
  have hticks := ticksLegal_of_bounds hon0 hon1 hoff0 hoff1
  refine ⟨exec_of_not_open (i := .pwmSetAll h on off) rfl hticks, ?_⟩
  rintro r onL onH offL offH es hr hon hoff rfl hp
  rw [← allChannelBytes_eq hon hoff] at hp ⊢
  rw [exec_pwmSetAll_of_open hticks hr]
  exact (follows_setAllRegs s.config h r on off).finish_ok hp

/-- Settles O52, by the checks in order and the four writes where the environment answers them. -/
theorem setPulseWritesALeadingEdgePulse : Obligations.SetPulseWritesALeadingEdgePulse := by
  refine fun s h ch ms => ⟨exec_pwmSetPulseMs_of_badChannel, fun hch => ?_⟩
  have hlegal := channelLegal_of_lt hch
  refine ⟨exec_of_not_open (i := .pwmSetPulseMs h ch ms) rfl hlegal, fun r hr =>
    ⟨exec_pwmSetPulseMs_of_no_freq hch hr, fun f off hl hoff => ⟨fun ht => ?_, fun h0 h1 => ?_⟩⟩⟩
  · exact exec_pwmSetPulseMs_of_badTicks hch hr hl (by rw [ticksMs_eq hoff, tickLegal_eq_false ht])
  · rintro _ _ _ _ offL offH es rfl rfl rfl rfl hbytes rfl hp
    rw [← channelBytes_eq (on := 0) (onL := 0) (onH := 0) rfl hbytes] at hp ⊢
    rw [exec_pwmSetPulseMs_of_open hlegal hr hl hoff h0 h1]
    exact (follows_setRegs s.config h r ch 0 off).finish_ok hp

/-- Settles O50: each operation runs a part that follows its four writes, so the first that fails ends it. -/
theorem partlyWrittenChannelIsLeftAsItIs : Obligations.PartlyWrittenChannelIsLeftAsItIs := by
  intro s h r ch k on off ms freq e hr hch hon0 hon1 hoff0 hoff1
  have hlegal := channelLegal_of_lt hch
  have hticks := ticksLegal_of_bounds hon0 hon1 hoff0 hoff1
  refine ⟨fun hk hp => ?_, fun hk hp => ?_, fun hl hoff hk hp => ?_⟩
  · rw [exec_pwmSetChannel_of_open hlegal hticks hr]
    exact (follows_setRegs s.config h r ch on off).finish_fails hk (isWrite_of_wroteAll hk) hp
  · rw [exec_pwmSetAll_of_open hticks hr]
    exact (follows_setAllRegs s.config h r on off).finish_fails hk (isWrite_of_wroteAll hk) hp
  · rw [exec_pwmSetPulseMs_of_open hlegal hr hl hoff hoff0 hoff1]
    exact (follows_setRegs s.config h r ch 0 off).finish_fails hk (isWrite_of_wroteAll hk) hp

/-! ## PWM_SET_FREQ -/

section
variable {s t : State} {h : HandleId} {r : HandleRec} {freq : Rat} {p : Int} {b : Byte}

theorem setFreq_wellFormed (hf : 0 < freq) (hp : roundsTo (390625 / (64 * freq) - 1) p) (h0 : 0 ≤ p) (h1 : p ≤ 255) :
    (Instr.pwmSetFreq h freq).wellFormed s.config = true := by
  simp [Instr.wellFormed, freqLegal_of_pos hf, prescaleOf_eq hf hp, prescaleLegal, h0, h1]

/-- The prescale that the frequency rounds to is the byte sent. -/
theorem exec_pwmSetFreq_eq (hf : 0 < freq) (hp : roundsTo (390625 / (64 * freq) - 1) p) (hb : (b.toNat : Int) = p)
    (hr : checkOpen s h = some r) :
    exec (.pwmSetFreq h freq) s =
      finish ((changePrescale h r b s).andThen fun _ t => .done .unit (t.setFreq h freq)) := by
  have hlt := b.isLt
  rw [exec_pwmSetFreq_of_open (setFreq_wellFormed hf hp (by omega) (by omega)) hr, prescaleOf_eq hf hp,
    ofInt_of_toNat_eq hb]

theorem andThen_assoc {α β γ : Type} (x : Run α) (f : α → State → Run β) (g : β → State → Run γ) :
    (x.andThen f).andThen g = x.andThen fun a s => (f a s).andThen g := by
  cases x <;> rfl

/-- The frequency change begins with READ_REG's body for MODE1. -/
theorem exec_pwmSetFreq_of_read_without_value (hw : (Instr.pwmSetFreq h freq).wellFormed s.config = true)
    (hread : exec (.readReg h s.config.pwmReg.mode1 1) s = .next t) (ht : ∀ v, t.ending ≠ some (.ok v)) :
    exec (.pwmSetFreq h freq) s = .next t :=
  exec_of_read_without_value (n := .one) rfl rfl hw (fun _ => rfl)
    (fun r hr => ⟨_, by rw [exec_pwmSetFreq_of_open hw hr, changePrescale, andThen_assoc]⟩) hread ht

end

/-- Settles O44, by the checks in order and the seven events where the environment answers them. -/
theorem setFreqRunsTheSequence : Obligations.SetFreqRunsTheSequence := by
  refine fun s h freq => ⟨exec_pwmSetFreq_of_nonpos, fun p hf hp => ⟨fun hbad => ?_, fun h0 h1 => ⟨?_, ?_⟩⟩⟩
  · exact exec_pwmSetFreq_of_badPrescale hf (by rw [prescaleOf_eq hf hp]; exact decide_eq_false (by omega))
  · exact exec_of_not_open (i := .pwmSetFreq h freq) rfl (setFreq_wellFormed hf hp h0 h1)
  · intro r old b hr hb hplays
    refine ⟨insert h freq s.pwmFreq, ?_, lookup_insert_self _ _ _, fun k hk => lookup_insert_of_ne hk _ _⟩
    rw [exec_pwmSetFreq_eq hf hp hb hr, (follows_changePrescale s.config h r b old).finish_ok hplays]
    rfl

/-- Settles O45: the change begins with READ_REG's body, and follows its seven events up to the first write that fails. -/
theorem setFreqStopsAtTheFirstError : Obligations.SetFreqStopsAtTheFirstError := by
  intro s h freq p b hf hp hb
  have hlt := b.isLt
  refine ⟨fun t => exec_pwmSetFreq_of_read_without_value (setFreq_wellFormed hf hp (by omega) (by omega)),
    fun r old k e hr hk hw hplays => ?_⟩
  rw [exec_pwmSetFreq_eq hf hp hb hr]
  exact (follows_changePrescale s.config h r b old).finish_fails hk hw hplays

/-! ## PWM_BRINGUP -/

/-- The first half of a bring-up: the outputs silenced, the drivers and all-call enabled, and the wait. -/
def silence (h : HandleId) (r : HandleRec) (s : State) : Run Unit :=
  (setAllRegs h r 0 0 s).andThen fun _ s =>
    (writeByte h r s.config.pwmReg.mode2 s.config.outdrv s).andThen fun _ s =>
      (writeByte h r s.config.pwmReg.mode1 s.config.allcall s).andThen fun _ s =>
        delay h s.config.tPwmBringupSettle s

/-- The events of that half. -/
def silenceEvents (c : Config) (h : HandleId) (r : HandleRec) : List Event :=
  wroteAll h r [(c.pwmReg.allOnL, 0), (c.pwmReg.allOnH, 0), (c.pwmReg.allOffL, 0), (c.pwmReg.allOffH, 0),
    (c.pwmReg.mode2, c.outdrv), (c.pwmReg.mode1, c.allcall)] ++ [.delayed h c.tPwmBringupSettle]

section
variable {s t : State} {h : HandleId} {r : HandleRec}

theorem follows_silence (c : Config) (h : HandleId) (r : HandleRec) :
    Follows c (silence h r) (silenceEvents c h r) () :=
  follows_andThen (es := wroteAll h r (allChannelBytes c.pwmReg 0 0)) (follows_setAllRegs c h r 0 0) <|
  follows_andThen (follows_config (f := fun c => writeByte h r c.pwmReg.mode2 c.outdrv) (follows_writeByte c h r _ _)) <|
  follows_andThen (follows_config (f := fun c => writeByte h r c.pwmReg.mode1 c.allcall) (follows_writeByte c h r _ _)) <|
  follows_config (f := fun c => delay h c.tPwmBringupSettle) (follows_delay c h _)

/-- The second half begins with READ_REG's body for MODE1. -/
theorem bringup_eq (h : HandleId) (r : HandleRec) (s : State) :
    bringup h r s = (silence h r s).andThen fun _ s =>
      (readByte h r s.config.pwmReg.mode1 s).andThen fun m s =>
        (writeByte h r s.config.pwmReg.mode1 (m &&& ~~~s.config.sleep) s).andThen fun _ s =>
          delay h s.config.tPwmBringupSettle s := by
  simp only [bringup, silence, andThen_assoc]

theorem exec_pwmBringup_of_read_without_value (hr : checkOpen s h = some r)
    (hp : environmentPlays s (silenceEvents s.config h r) = true)
    (hread : exec (.readReg h s.config.pwmReg.mode1 1) (s.played (silenceEvents s.config h r)) = .next t)
    (ht : ∀ v, t.ending ≠ some (.ok v)) : exec (.pwmBringup h) s = .next t := by
  rw [exec_readReg_of_open (n := .one) rfl ((checkOpen_played s _ h).trans hr)] at hread
  rw [exec_pwmBringup_of_open hr, unitAfter, bringup_eq, andThen_assoc, (follows_silence s.config h r).finish_ok hp,
    andThen_assoc]
  exact finish_andThen_of_no_value _ hread ht

end

/-- Settles O53: a bring-up follows its eleven events, and behind the first seven begins with READ_REG's body. -/
theorem bringupSilencesBeforeEnabling : Obligations.BringupSilencesBeforeEnabling := by
  refine fun s h => ⟨exec_of_not_open (i := .pwmBringup h) rfl rfl, ?_⟩
  rintro r m _ _ hr rfl rfl
  refine ⟨fun hp => ?_, fun k e hk hw hp => ?_, fun hp t => exec_pwmBringup_of_read_without_value hr hp⟩
  · rw [exec_pwmBringup_of_open hr]
    exact (follows_bringup s.config h r m).finish_ok hp
  · rw [exec_pwmBringup_of_open hr]
    exact (follows_bringup s.config h r m).finish_fails hk hw hp

/-! ## Unanswered transfers -/

/-- In `s`, the instruction begins with a part that follows the events `es`. -/
def RunsEvents (s : State) (i : Instr) (es : List Event) : Prop :=
  ∃ f g, exec i s = finish ((f s).andThen g) ∧ Follows s.config f es ()

section
variable {s : State} {i : Instr} {h : HandleId} {r : HandleRec} {es : List Event} {k : Nat}

theorem RunsEvents.blocks {e : Event} {x : Transfer} (hi : RunsEvents s i es) (hk : es[k]? = some e)
    (hp : environmentPlays s (es.take k) = true) (hx : unanswered (s.played (es.take k)) e = some x) :
    exec i s = .next (((s.played (es.take k)).blockedOn x).ended none) := by
  obtain ⟨f, g, he, hf⟩ := hi
  rw [he, hf.finish_blocks hk hp hx]

theorem pwmSetChannel_runsEvents {ch : Nat} {on off : Int} (hr : checkOpen s h = some r)
    (hw : (Instr.pwmSetChannel h ch on off).wellFormed s.config = true) :
    RunsEvents s (.pwmSetChannel h ch on off) (wroteAll h r (channelBytes s.config.pwmReg ch on off)) := by
  obtain ⟨hch, ht⟩ : channelLegal s.config ch = true ∧ (tickLegal on && tickLegal off) = true := by
    simpa [Instr.wellFormed, and_assoc] using hw
  exact ⟨_, _, exec_pwmSetChannel_of_open hch ht hr, follows_setRegs s.config h r ch on off⟩

theorem pwmSetAll_runsEvents {on off : Int} (hr : checkOpen s h = some r)
    (hw : (Instr.pwmSetAll h on off).wellFormed s.config = true) :
    RunsEvents s (.pwmSetAll h on off) (wroteAll h r (allChannelBytes s.config.pwmReg on off)) :=
  ⟨_, _, exec_pwmSetAll_of_open hw hr, follows_setAllRegs s.config h r on off⟩

theorem pwmSetPulseMs_runsEvents {ch : Nat} {ms freq : Rat} {off : Int} (hr : checkOpen s h = some r)
    (hw : (Instr.pwmSetPulseMs h ch ms).wellFormed s.config = true) (hl : lookup h s.pwmFreq = some freq)
    (hoff : roundsTo (ms * 4096 * freq / 1000) off) (h0 : 0 ≤ off) (h1 : off ≤ 4095) :
    RunsEvents s (.pwmSetPulseMs h ch ms) (wroteAll h r (channelBytes s.config.pwmReg ch 0 off)) :=
  ⟨_, _, exec_pwmSetPulseMs_of_open hw hr hl hoff h0 h1, follows_setRegs s.config h r ch 0 off⟩

theorem pwmSetFreq_runsEvents {freq : Rat} {p old : Byte} (hr : checkOpen s h = some r)
    (hw : (Instr.pwmSetFreq h freq).wellFormed s.config = true)
    (hp : roundsTo (390625 / (64 * freq) - 1) (p.toNat : Int)) :
    RunsEvents s (.pwmSetFreq h freq) (setFreqEvents s.config h r old p) :=
  ⟨_, _, exec_pwmSetFreq_eq (prescale_of_wellFormed hw).1 hp rfl hr, follows_changePrescale s.config h r p old⟩

theorem pwmBringup_runsEvents {m : Byte} (hr : checkOpen s h = some r) :
    RunsEvents s (.pwmBringup h) (bringupEvents s.config h r m) :=
  ⟨_, _, exec_pwmBringup_of_open hr, follows_bringup s.config h r m⟩

end

/-- Settles O59: each of the five operations begins with a part that follows its events, so the first that is not answered
blocks it. -/
theorem unansweredPwmTransferBlocksTheBlock : Obligations.UnansweredPwmTransferBlocksTheBlock := by
  intro s i h r es k hr hop hp
  have hi : RunsEvents s i es := by
    obtain ⟨ch, on, off, rfl, hw, rfl⟩ | ⟨on, off, rfl, hw, rfl⟩ | ⟨ch, ms, freq, off, rfl, hw, hl, hoff, h0, h1, rfl⟩ |
      ⟨freq, p, old, rfl, hw, hround, rfl⟩ | ⟨m, rfl, rfl⟩ := hop
    · exact pwmSetChannel_runsEvents hr hw
    · exact pwmSetAll_runsEvents hr hw
    · exact pwmSetPulseMs_runsEvents hr hw hl hoff h0 h1
    · exact pwmSetFreq_runsEvents hr hw hround
    · exact pwmBringup_runsEvents hr
  exact ⟨fun bytes hk ha => hi.blocks hk hp (by simp [unanswered, wrote, ha]),
    fun n l hk ha => hi.blocks hk hp (by simp [unanswered, readBack, ha])⟩

end Sys2Proof.Machine

/-! PROOFS. What the events of an operation can be, whatever the environment answers: the rule `Sends` carries a property of single
events through the parts of an operation. -/

namespace Sys2Proof.Machine

/-- A part of an operation that started in `s` keeps the parameters and appends events with the property `P` only. -/
def Sends (P : Event → Prop) (s : State) {α : Type} (x : Run α) : Prop :=
  x.state.config = s.config ∧ ∃ es, x.state.history = s.history ++ es ∧ ∀ e ∈ es, P e

section
variable {P : Event → Prop} {α β : Type} {s : State} {h : HandleId} {r : HandleRec} {reg : Byte}

theorem sends_none {x : Run α} (hx : x.state = s) : Sends P s x := ⟨by rw [hx], [], by simp [hx], by simp⟩

theorem sends_andThen {x : Run α} {f : α → State → Run β} (hx : Sends P s x)
    (hf : ∀ a t, t.config = s.config → Sends P t (f a t)) : Sends P s (x.andThen f) := by
  cases x with
  | done a t =>
    obtain ⟨hc, es, hh, hes⟩ := hx
    obtain ⟨hc', es', hh', hes'⟩ := hf a t hc
    refine ⟨hc'.trans hc, es ++ es', ?_, fun e he => (List.mem_append.1 he).elim (hes e) (hes' e)⟩
    rw [andThen_done, hh', ← List.append_assoc]
    exact congrArg (· ++ es') hh
  | raised | hung => exact hx

theorem sends_busWrite {bytes : List Byte} (hP : ∀ a, P (wrote h r bytes a)) : Sends P s (busWrite h r bytes s) := by
  unfold busWrite
  split
  · exact ⟨rfl, [_], rfl, List.forall_mem_singleton.2 (hP _)⟩
  · exact ⟨rfl, [], by simp, by simp⟩

theorem sends_busRead {n : Nat} (hP : ∀ a, P (.read h r.bus r.addr n a)) : Sends P s (busRead h r n s) := by
  unfold busRead
  split
  · exact ⟨rfl, [_], rfl, List.forall_mem_singleton.2 (hP _)⟩
  · exact ⟨rfl, [], by simp, by simp⟩

theorem sends_delay {ms : Rat} (hP : P (.delayed h ms)) : Sends P s (delay h ms s) :=
  ⟨rfl, [_], rfl, List.forall_mem_singleton.2 hP⟩

theorem sends_sendFrame {bytes : List Byte} (hP : ∀ a, P (wrote h r bytes a)) : Sends P s (sendFrame h r bytes s) :=
  sends_andThen (sends_busWrite hP) fun a t _ => by
    cases a with
    | ok | fail => exact sends_none rfl

theorem sends_readBytes {n : Nat} (hw : ∀ a, P (wrote h r [reg] a)) (hr : ∀ a, P (.read h r.bus r.addr n a)) :
    Sends P s (readBytes h r reg n s) :=
  sends_andThen (sends_sendFrame hw) fun _ t _ => sends_andThen (sends_busRead hr) fun a u _ => by
    cases a with
    | fail => exact sends_none rfl
    | bytes l => by_cases hl : l.length < n <;> simp only [hl, if_true, if_false] <;> exact sends_none rfl

theorem sends_readByte (hw : ∀ a, P (wrote h r [reg] a)) (hr : ∀ a, P (.read h r.bus r.addr 1 a)) :
    Sends P s (readByte h r reg s) :=
  sends_andThen (sends_readBytes hw hr) fun l t _ => by
    cases l with
    | nil | cons => exact sends_none rfl

theorem sends_readHalf (hw : ∀ a, P (wrote h r [reg] a)) (hr : ∀ a, P (.read h r.bus r.addr 2 a)) :
    Sends P s (readHalf h r reg s) :=
  sends_andThen (sends_readBytes hw hr) fun l _ _ =>
    match l with
    | [] | [_] | _ :: _ :: _ => sends_none rfl

theorem sends_memRead {len : RegLen} (hw : ∀ a, P (wrote h r [reg] a)) (hr : ∀ n a, P (.read h r.bus r.addr n a)) :
    Sends P s (memRead h r reg len s) := by
  cases len with
  | one => exact sends_andThen (sends_readByte hw (hr 1)) fun _ _ _ => sends_none rfl
  | two => exact sends_andThen (sends_readHalf hw (hr 2)) fun _ _ _ => sends_none rfl

theorem sends_writeBytes {l : List (Byte × Byte)} (hP : ∀ p ∈ l, ∀ a, P (wrote h r [p.1, p.2] a)) :
    Sends P s (writeBytes h r l s) := by
  induction l generalizing s with
  | nil => exact sends_none rfl
  | cons p l ih =>
    exact sends_andThen (sends_sendFrame (hP p List.mem_cons_self)) fun _ t _ =>
      ih fun q hq => hP q (List.mem_cons_of_mem p hq)

theorem sends_unitAfter {x : Run Unit} (hx : Sends P s x) : Sends P s (unitAfter x) :=
  sends_andThen hx fun _ _ _ => sends_none rfl

end

end Sys2Proof.Machine

/-! PROOFS. PRESCALE is written only behind the sleep write of the same sequence (43_pwm.md R173). -/

namespace Sys2Proof.Machine

/-- A write of PRESCALE through the entry `r` of `h`. -/
def IsPrescaleWrite (c : Config) (h : HandleId) (r : HandleRec) (e : Event) : Prop :=
  ∃ v a, e = wrote h r [c.pwmReg.prescale, v] a

/-- The acknowledged write of MODE1 with the sleep bits. -/
def sleepWrite (c : Config) (h : HandleId) (r : HandleRec) (old : Byte) : Event :=
  wrote h r [c.pwmReg.mode1, old ||| c.sleep] .ok

/-- In `es`, each write of PRESCALE stands directly behind an acknowledged sleep write. -/
def SleepsFirst (c : Config) (h : HandleId) (r : HandleRec) (es : List Event) : Prop :=
  ∀ pre post v a, es = pre ++ wrote h r [c.pwmReg.prescale, v] a :: post →
    ∃ before old, pre = before ++ [sleepWrite c h r old]

section
variable {c : Config} {s : State} {h : HandleId} {r : HandleRec} {es es' : List Event} {p : Byte}

theorem sleepsFirst_of_no_prescale (hes : ∀ e ∈ es, ¬ IsPrescaleWrite c h r e) : SleepsFirst c h r es := by
  rintro pre post v a rfl
  exact absurd ⟨v, a, rfl⟩ (hes _ (by simp))

/-- The place of the one element of a list that has a property. -/
theorem eq_of_append_cons_eq {α : Type} {P : α → Prop} {l l' pre post : List α} {x y : α} (hl : ∀ e ∈ l, ¬ P e)
    (hl' : ∀ e ∈ l', ¬ P e) (hy : P y) (heq : l ++ x :: l' = pre ++ y :: post) : pre = l := by
  obtain ⟨m, rfl, hm⟩ | ⟨m, rfl, hm⟩ := List.append_eq_append_iff.1 heq
  · cases m with
    | nil => simp
    | cons z m =>
      obtain ⟨-, rfl⟩ := List.cons.inj hm
      exact absurd hy (hl' y (by simp))
  · cases m with
    | nil => simp
    | cons z m =>
      obtain ⟨rfl, -⟩ := List.cons.inj hm
      exact absurd hy (hl _ (by simp))

/-- At most the first of the events behind a sleep write is a write of PRESCALE, and none before. -/
theorem sleepsFirst_of_sleep (old : Byte) (hes : ∀ e ∈ es, ¬ IsPrescaleWrite c h r e)
    (hsleep : ¬ IsPrescaleWrite c h r (sleepWrite c h r old)) (hes' : ∀ e ∈ es'.tail, ¬ IsPrescaleWrite c h r e) :
    SleepsFirst c h r (es ++ sleepWrite c h r old :: es') := by
  have hbefore : ∀ e ∈ es ++ [sleepWrite c h r old], ¬ IsPrescaleWrite c h r e :=
    List.forall_mem_append.2 ⟨hes, List.forall_mem_singleton.2 hsleep⟩
  cases es' with
  | nil => exact sleepsFirst_of_no_prescale hbefore
  | cons e es' =>
    intro pre post v a heq
    rw [List.append_cons] at heq
    exact ⟨es, old, eq_of_append_cons_eq hbefore hes' ⟨v, a, rfl⟩ heq⟩

theorem not_prescaleWrite_of_ne {reg : Byte} (hne : c.pwmReg.prescale ≠ reg) (v : Byte) (a : WriteAnswer) :
    ¬ IsPrescaleWrite c h r (wrote h r [reg, v] a) := by
  rintro ⟨w, b, heq⟩
  simp only [wrote, Event.wrote.injEq, List.cons.injEq] at heq
  exact hne heq.2.2.2.1.1.symm

theorem not_prescaleWrite_select (reg : Byte) (a : WriteAnswer) : ¬ IsPrescaleWrite c h r (wrote h r [reg] a) := by
  rintro ⟨w, b, heq⟩
  simp [wrote] at heq

theorem not_prescaleWrite_of_not_write {e : Event} (he : isWrite e = false) : ¬ IsPrescaleWrite c h r e := by
  rintro ⟨v, a, rfl⟩
  cases he

/-- The three ends of a write of one register. -/
theorem writeByte_ends (h : HandleId) (r : HandleRec) (reg v : Byte) (s : State) :
    writeByte h r reg v s = .done () (s.answered (wrote h r [reg, v] .ok)) ∨
      writeByte h r reg v s = .raised .writeFailed (s.answered (wrote h r [reg, v] .fail)) ∨
      writeByte h r reg v s = .hung (s.blockedOn (.write h [reg, v])) := by
  match ha : answerWrite s r.bus r.addr [reg, v] with
  | some .ok => exact .inl (by simp [writeByte, sendFrame, busWrite, ha, wrote])
  | some .fail => exact .inr (.inl (by simp [writeByte, sendFrame, busWrite, ha, wrote]))
  | none => exact .inr (.inr (by simp [writeByte, sendFrame, busWrite, ha]))

/-- The rest of the sequence, behind the write of PRESCALE. -/
def restoreMode (h : HandleId) (r : HandleRec) (old : Byte) (s : State) : Run Unit :=
  (writeByte h r s.config.pwmReg.mode1 old s).andThen fun _ s =>
    (delay h s.config.tPwmFreqSettle s).andThen fun _ s =>
      writeByte h r s.config.pwmReg.mode1 (old ||| s.config.restart) s

theorem restoreMode_sends (hne : s.config.pwmReg.prescale ≠ s.config.pwmReg.mode1) (old : Byte) :
    Sends (¬ IsPrescaleWrite s.config h r ·) s (restoreMode h r old s) :=
  sends_andThen (sends_sendFrame (not_prescaleWrite_of_ne hne _)) fun _ t ht =>
    sends_andThen (sends_delay (not_prescaleWrite_of_not_write rfl)) fun _ u hu => by
      rw [hu, ht]
      exact sends_sendFrame (not_prescaleWrite_of_ne hne _)

/-- A write and a part behind it append events that have the property of that part, but for the write itself. -/
theorem tail_of_writeByte {P : Event → Prop} {reg v : Byte} {f : Unit → State → Run Unit}
    (hf : ∀ t, t.config = s.config → Sends P t (f () t)) :
    ∃ es, ((writeByte h r reg v s).andThen f).state.history = s.history ++ es ∧ ∀ e ∈ es.tail, P e := by
  obtain hw | hw | hw := writeByte_ends h r reg v s <;> rw [hw]
  · obtain ⟨-, es, hh, hes⟩ := hf (s.answered (wrote h r [reg, v] .ok)) rfl
    exact ⟨wrote h r [reg, v] .ok :: es, by simpa using hh, hes⟩
  · exact ⟨[wrote h r [reg, v] .fail], rfl, by simp⟩
  · exact ⟨[], by simp, by simp⟩

/-- Behind the read of MODE1: the sleep write, and only where it is acknowledged the write of PRESCALE. -/
theorem sleepThenPrescale_sleepsFirst (hne : s.config.pwmReg.prescale ≠ s.config.pwmReg.mode1) (old : Byte)
    (hes : ∀ e ∈ es, ¬ IsPrescaleWrite s.config h r e) :
    ∃ es', ((writeByte h r s.config.pwmReg.mode1 (old ||| s.config.sleep) s).andThen fun _ s =>
        (writeByte h r s.config.pwmReg.prescale p s).andThen fun _ s => restoreMode h r old s).state.history =
          s.history ++ es' ∧ SleepsFirst s.config h r (es ++ es') := by
  have hmode := not_prescaleWrite_of_ne (h := h) (r := r) hne (old ||| s.config.sleep)
  obtain hw | hw | hw := writeByte_ends h r s.config.pwmReg.mode1 (old ||| s.config.sleep) s <;> rw [hw]
  · obtain ⟨es', hh, hes'⟩ := tail_of_writeByte (h := h) (r := r) (reg := s.config.pwmReg.prescale) (v := p)
      (s := s.answered (sleepWrite s.config h r old)) (P := (¬ IsPrescaleWrite s.config h r ·))
      (f := fun _ s => restoreMode h r old s) fun t ht => by
        obtain ht : t.config = s.config := ht
        rw [← ht]; exact restoreMode_sends (ht ▸ hne) old
    exact ⟨sleepWrite s.config h r old :: es', hh.trans (List.append_assoc _ _ _),
      sleepsFirst_of_sleep old hes (hmode .ok) hes'⟩
  · exact ⟨_, rfl, sleepsFirst_of_no_prescale
      (List.forall_mem_append.2 ⟨hes, List.forall_mem_singleton.2 (hmode .fail)⟩)⟩
  · exact ⟨[], by simp, sleepsFirst_of_no_prescale (by simpa using hes)⟩

theorem changePrescale_sleepsFirst (hne : s.config.pwmReg.prescale ≠ s.config.pwmReg.mode1) :
    ∃ es, (changePrescale h r p s).state.history = s.history ++ es ∧ SleepsFirst s.config h r es := by
  have hread : Sends (¬ IsPrescaleWrite s.config h r ·) s (readByte h r s.config.pwmReg.mode1 s) :=
    sends_readByte (not_prescaleWrite_select _) fun _ => not_prescaleWrite_of_not_write rfl
  obtain ⟨hc, es, hh, hes⟩ := hread
  unfold changePrescale
  cases hx : readByte h r s.config.pwmReg.mode1 s with
  | done old t =>
    rw [hx] at hc hh
    obtain hc : t.config = s.config := hc
    obtain ⟨es', hh', hes'⟩ := sleepThenPrescale_sleepsFirst (s := t) (h := h) (r := r) (p := p) (hc ▸ hne) old
      (hc ▸ hes)
    exact ⟨es ++ es', by rw [andThen_done, ← List.append_assoc]; exact hh'.trans (congrArg (· ++ es') hh), hc ▸ hes'⟩
  | raised _ t | hung t => rw [hx] at hh; exact ⟨es, hh, sleepsFirst_of_no_prescale hes⟩

end

/-- Writing the frequency register behind a part appends nothing. -/
theorem history_setFreq (x : Run Unit) (h : HandleId) (f : Rat) :
    (x.andThen fun _ t => .done Value.unit (t.setFreq h f)).state.history = x.state.history := by
  cases x <;> rfl

/-- Settles O46, by what the sequence appends however it ends; a refused frequency appends nothing. -/
theorem prescaleWrittenOnlyAfterSleep : Obligations.PrescaleWrittenOnlyAfterSleep := by
  intro s t h r freq es pre post v a hne hr hexec hh heq
  suffices hes : SleepsFirst s.config h r es from hes pre post v a heq
  cases hw : (Instr.pwmSetFreq h freq).wellFormed s.config with
  | false =>
    obtain ⟨x, hx⟩ := (refusedExactlyWhenIllFormed (.pwmSetFreq h freq) s (by simp)).1 hw
    cases hx.symm.trans hexec
    obtain rfl : es = [] := by simpa using hh
    exact sleepsFirst_of_no_prescale (by simp)
  | true =>
    obtain ⟨es', hh', hes'⟩ := changePrescale_sleepsFirst (h := h) (r := r) (p := BitVec.ofInt 8 (prescaleOf freq)) hne
    rw [exec_pwmSetFreq_of_open hw hr, finish] at hexec
    cases hexec
    obtain rfl : es = es' := List.append_cancel_left (hh.symm.trans ((history_setFreq _ h freq).trans hh'))
    exact hes'

end Sys2Proof.Machine

/-! PROOFS. Under the default parameters (log entry 9) no operation but PWM_SET_FREQ and the raw writes puts the PWM controller to
sleep or writes PRESCALE (43_pwm.md R173). -/

namespace Sys2Proof.Machine

/-- An event that is no register write of 0xFE, and of 0x00 only one of a byte with the sleep bit clear. -/
def KeepsAwake (e : Event) : Prop :=
  ∀ h bus addr v rest a, e = .wrote h bus addr (v :: rest) a → rest ≠ [] →
    v ≠ 0xFE ∧ (v = 0x00 → ∃ b, rest = [b] ∧ b.getLsbD 4 = false)

/-- A register address that is, under the default parameters, neither PRESCALE's nor MODE1's. -/
abbrev ElsewhereReg (reg : Byte) : Prop := reg ≠ 0xFE ∧ reg ≠ 0x00

/-! ## Events -/

section
variable {h : HandleId} {r : HandleRec} {reg b : Byte} {rest : List Byte} {a : WriteAnswer} {e : Event}

theorem keepsAwake_of_not_write (he : isWrite e = false) : KeepsAwake e := by
  rintro h bus addr v rest a rfl
  cases he

theorem keepsAwake_select : KeepsAwake (wrote h r [reg] a) := by
  rintro _ _ _ _ _ _ heq hne
  cases heq
  exact absurd rfl hne

theorem keepsAwake_elsewhere (hreg : ElsewhereReg reg) : KeepsAwake (wrote h r (reg :: rest) a) := by
  rintro _ _ _ _ _ _ heq -
  cases heq
  exact ⟨hreg.1, fun h0 => absurd h0 hreg.2⟩

/-- A byte with the sleep bit clear may go to any register but PRESCALE. -/
theorem keepsAwake_awake (hreg : reg ≠ 0xFE) (hb : b.getLsbD 4 = false) : KeepsAwake (wrote h r [reg, b] a) := by
  rintro _ _ _ _ _ _ heq -
  cases heq
  exact ⟨hreg, fun _ => ⟨b, rfl, hb⟩⟩

end

/-! ## Parts of operations -/

section
variable {s : State} {h : HandleId} {r : HandleRec} {reg b : Byte}

theorem readByte_awake : Sends KeepsAwake s (readByte h r reg s) :=
  sends_readByte (fun _ => keepsAwake_select) fun _ => keepsAwake_of_not_write rfl

theorem readHalf_awake : Sends KeepsAwake s (readHalf h r reg s) :=
  sends_readHalf (fun _ => keepsAwake_select) fun _ => keepsAwake_of_not_write rfl

theorem memRead_awake {len : RegLen} : Sends KeepsAwake s (memRead h r reg len s) :=
  sends_memRead (fun _ => keepsAwake_select) fun _ _ => keepsAwake_of_not_write rfl

theorem writeByte_awake (hreg : ElsewhereReg reg) : Sends KeepsAwake s (writeByte h r reg b s) :=
  sends_sendFrame fun _ => keepsAwake_elsewhere hreg

theorem memWrite_awake {len : RegLen} {value : Half} (hreg : ElsewhereReg reg) :
    Sends KeepsAwake s (memWrite h r reg len value s) := by
  cases len with
  | one | two => exact sends_sendFrame fun _ => keepsAwake_elsewhere hreg

theorem writeBytes_awake {l : List (Byte × Byte)} (hl : ∀ p ∈ l, ElsewhereReg p.1) :
    Sends KeepsAwake s (writeBytes h r l s) :=
  sends_writeBytes fun p hp _ => keepsAwake_elsewhere (hl p hp)

theorem delay_awake {ms : Rat} : Sends KeepsAwake s (delay h ms s) := sends_delay (keepsAwake_of_not_write rfl)

end

/-! ## The default addresses -/

theorem asRegAddr_default_elsewhere :
    ∀ {a : AngleReg}, asWritable a = true → ElsewhereReg (asRegAddr Config.default.asReg a) := by
  intro a; cases a <;> decide

theorem imuRegAddr_default_elsewhere (g : ImuReg) : ElsewhereReg (imuRegAddr Config.default.imuReg g) := by
  cases g <;> decide

theorem channelAddr_elsewhere {base : Byte} {ch : Nat} (h0 : 0 < base.toNat) (h1 : base.toNat ≤ 9) (hch : ch < 16) :
    ElsewhereReg (channelAddr base ch) := by
  have haddr := channelAddr_toNat (base := base) (ch := ch) (by omega)
  constructor <;> intro heq <;> rw [heq] at haddr <;> simp at haddr <;> omega

theorem channelBytes_default_elsewhere {ch : Nat} (hch : ch < 16) (on off : Int) :
    ∀ p ∈ channelBytes Config.default.pwmReg ch on off, ElsewhereReg p.1 := by
  have h : ∀ base ∈ [0x06, 0x07, 0x08, 0x09], ElsewhereReg (channelAddr base ch) := by
    intro base hbase
    have hbounds : ∀ b ∈ [0x06, 0x07, 0x08, (0x09 : Byte)], 0 < b.toNat ∧ b.toNat ≤ 9 := by decide
    exact channelAddr_elsewhere (hbounds base hbase).1 (hbounds base hbase).2 hch
  simpa [channelBytes, Config.default, PwmMap.default] using h

theorem allChannelBytes_default_elsewhere (on off : Int) :
    ∀ p ∈ allChannelBytes Config.default.pwmReg on off, ElsewhereReg p.1 := by
  have h : ∀ reg ∈ [0xFA, 0xFB, 0xFC, (0xFD : Byte)], ElsewhereReg reg := by decide
  simpa [allChannelBytes, Config.default, PwmMap.default] using h

/-! ## Instructions -/

/-- An outcome that is a next state whose history has events with the property `P` appended. -/
def OutcomeSends (P : Event → Prop) (s : State) (o : Host.Outcome State Fault Refusal) : Prop :=
  ∃ t, o = .next t ∧ ∃ es, t.history = s.history ++ es ∧ ∀ e ∈ es, P e

section
variable {P : Event → Prop} {s : State}

theorem outcomeSends_of_same {t : State} (ht : t.history = s.history) : OutcomeSends P s (.next t) :=
  ⟨t, rfl, [], by simp [ht], by simp⟩

theorem outcomeSends_finish {x : Run Value} (hx : Sends P s x) : OutcomeSends P s (finish x) := ⟨_, rfl, hx.2⟩

theorem OutcomeSends.ite {b : Bool} {o p : Host.Outcome State Fault Refusal} (ho : b = true → OutcomeSends P s o)
    (hp : OutcomeSends P s p) : OutcomeSends P s (if b then o else p) := by
  cases b with
  | true => exact ho rfl
  | false => exact hp

theorem outcomeSends_withHandle {h : HandleId} {body : HandleRec → State → Run Value}
    (hb : ∀ r, Sends P s (body r s)) : OutcomeSends P s (withHandle h s body) := by
  unfold withHandle
  split
  · exact outcomeSends_finish (hb _)
  · exact outcomeSends_of_same rfl

end

section
variable {s : State}

theorem execPwmSetPulseMs_awake (hc : s.config = Config.default) (h : HandleId) (ch : Nat) (ms : Rat) :
    OutcomeSends KeepsAwake s (execPwmSetPulseMs h ch ms s) := by
  refine .ite (fun hch => ?_) (outcomeSends_of_same rfl)
  rw [hc] at hch
  cases checkOpen s h with
  | none => exact outcomeSends_of_same rfl
  | some r =>
    cases lookup h s.pwmFreq with
    | none => exact outcomeSends_of_same rfl
    | some f =>
      refine .ite (fun _ => outcomeSends_finish (sends_unitAfter ?_)) (outcomeSends_of_same rfl)
      rw [setRegs, hc]
      exact writeBytes_awake (channelBytes_default_elsewhere (of_decide_eq_true hch) _ _)

theorem openBus_awake (bus : String) (addr : BusAddr) (s : State) : Sends KeepsAwake s (openBus bus addr s) := by
  unfold openBus
  split
  case h_1 => exact ⟨rfl, [], by simp, by simp⟩
  all_goals exact ⟨rfl, [_], rfl, List.forall_mem_singleton.2 (keepsAwake_of_not_write rfl)⟩

theorem bringup_awake (hc : s.config = Config.default) (h : HandleId) (r : HandleRec) :
    Sends KeepsAwake s (bringup h r s) := by
  refine sends_andThen (by rw [setAllRegs, hc]; exact writeBytes_awake (allChannelBytes_default_elsewhere 0 0))
    fun _ s1 h1 => sends_andThen (by rw [h1, hc]; exact writeByte_awake (by decide)) fun _ s2 h2 => ?_
  have hc2 : s2.config = Config.default := by rw [h2, h1, hc]
  refine sends_andThen (by rw [hc2]; exact sends_sendFrame fun _ => keepsAwake_awake (by decide) (by decide))
    fun _ s3 h3 => sends_andThen delay_awake fun _ s4 h4 => sends_andThen readByte_awake fun m s5 h5 =>
      sends_andThen ?_ fun _ _ _ => delay_awake
  rw [h5, h4, h3, hc2]
  exact sends_sendFrame fun _ => keepsAwake_awake (by decide) (by simp [Config.default])

theorem exec_awake {i : Instr} (hc : s.config = Config.default) (hfreq : ∀ h f, i ≠ .pwmSetFreq h f)
    (hreg : ∀ h reg v l, i ≠ .writeReg h reg v l) (hraw : ∀ h l, i ≠ .writeRaw h l) :
    OutcomeSends KeepsAwake s (exec i s) := by
  cases i with
  | pwmSetFreq h f => exact absurd rfl (hfreq h f)
  | writeReg h reg v l => exact absurd rfl (hreg h reg v l)
  | writeRaw h l => exact absurd rfl (hraw h l)
  | openHandle bus addr => exact outcomeSends_finish (openBus_awake bus addr s)
  | closeHandle h =>
    simp only [exec, execClose]
    exact outcomeSends_withHandle fun r =>
      ⟨rfl, [.closed h], rfl, List.forall_mem_singleton.2 (keepsAwake_of_not_write rfl)⟩
  | readReg h reg len =>
    simp only [exec, execReadReg]
    cases regLen len with
    | none => exact outcomeSends_of_same rfl
    | some n => exact outcomeSends_withHandle fun r => memRead_awake
  | asRead h a => exact .ite (fun _ => outcomeSends_withHandle fun r => memRead_awake) (outcomeSends_of_same rfl)
  | imuRead h g => exact outcomeSends_withHandle fun r => memRead_awake
  | imuReadTemp h =>
    simp only [exec, execImuReadTemp]
    exact outcomeSends_withHandle fun r => sends_andThen readHalf_awake fun _ _ _ => sends_none rfl
  | imuReadAccel h a ms2 =>
    simp only [exec, execImuReadAccel]
    exact outcomeSends_withHandle fun r => sends_andThen readHalf_awake fun _ _ _ =>
      sends_andThen readByte_awake fun _ _ _ => sends_none rfl
  | imuReadGyro h a =>
    simp only [exec, execImuReadGyro]
    exact outcomeSends_withHandle fun r => sends_andThen readHalf_awake fun _ _ _ =>
      sends_andThen readByte_awake fun _ _ _ => sends_none rfl
  | asWrite h a value =>
    refine .ite (fun hw => outcomeSends_withHandle fun r => sends_unitAfter (memWrite_awake ?_)) (outcomeSends_of_same rfl)
    rw [hc]; exact asRegAddr_default_elsewhere hw
  | asBurn h cmd =>
    simp only [exec, execAsBurn]
    refine outcomeSends_withHandle fun r => sends_unitAfter (writeByte_awake ?_)
    rw [hc]; decide
  | imuInit h =>
    simp only [exec, execImuInit]
    refine outcomeSends_withHandle fun r => ?_
    have hpwr := imuRegAddr_default_elsewhere .pwrMgmt
    split
    · exact sends_andThen readByte_awake fun v t ht =>
        sends_unitAfter (writeByte_awake (by rw [ht, hc]; exact hpwr))
    · exact sends_unitAfter (writeByte_awake (by rw [hc]; exact hpwr))
  | imuWrite h g value =>
    refine .ite (fun _ => outcomeSends_withHandle fun r => sends_unitAfter (writeByte_awake ?_)) (outcomeSends_of_same rfl)
    rw [hc]; exact imuRegAddr_default_elsewhere g
  | pwmBringup h =>
    simp only [exec, execPwmBringup]
    exact outcomeSends_withHandle fun r => sends_unitAfter (bringup_awake hc h r)
  | pwmSetChannel h ch on off =>
    refine .ite (fun hch => .ite (fun _ => outcomeSends_withHandle fun r => sends_unitAfter ?_)
      (outcomeSends_of_same rfl)) (outcomeSends_of_same rfl)
    rw [hc] at hch
    rw [setRegs, hc]
    exact writeBytes_awake (channelBytes_default_elsewhere (of_decide_eq_true hch) on off)
  | pwmSetAll h on off =>
    refine .ite (fun _ => outcomeSends_withHandle fun r => sends_unitAfter ?_) (outcomeSends_of_same rfl)
    rw [setAllRegs, hc]
    exact writeBytes_awake (allChannelBytes_default_elsewhere on off)
  | pwmSetPulseMs h ch ms => exact execPwmSetPulseMs_awake hc h ch ms
  | asStatusScale x =>
    simp only [exec, execAsStatusScale]
    cases statusScale s.config x with
    | some | none => exact outcomeSends_of_same rfl
  | pwmPrescale | pwmTicksMs => exact .ite (fun _ => outcomeSends_of_same rfl) (outcomeSends_of_same rfl)
  | asMaxPos | asRaw2DegI | asRaw2DegF | asDeg2RawI | asDeg2RawF | imuS16 | imuTempC | imuAccelScale | imuGyroScale
  | imuAccelConv | imuGyroConv => exact outcomeSends_of_same rfl

end

/-- Settles O47, instruction by instruction: what each sends, and to which of the default addresses. -/
theorem noOtherOperationWritesPrescale : Obligations.NoOtherOperationWritesPrescale := by
  intro i s t es hc hfreq hreg hraw hexec hh e he
  obtain ⟨u, hu, es', hh', hes'⟩ := exec_awake hc hfreq hreg hraw
  cases hu.symm.trans hexec
  obtain rfl : es = es' := List.append_cancel_left (hh.symm.trans hh')
  exact hes' e he

end Sys2Proof.Machine
